-- ==== Sys2Proof/Word.lean ====
section
/-! DEFINITION. The fixed word types of the block: the byte of the two buffers, the 32-bit word that every
host access moves, and the names of the register indices. -/

namespace Sys2Proof

/-- One byte of `MSG` or `OUT` (10_state.md R32, R33). -/
abbrev Byte := BitVec 8

/-- The 32-bit word that a host access moves (20_memory.md R69) and that a command is (30_encoding.md R100). -/
abbrev Word := BitVec 32

/-- The index of a big register, `B0` to `B15` (10_state.md R22). -/
abbrev BReg := Fin 16

/-- The index of a point register, `P0` to `P7` (10_state.md R24).  A command's 4-bit point field may hold
8 to 15 as well; the decoder refuses those (30_encoding.md R108), so that no `Instr` names a register that
does not exist. -/
abbrev PReg := Fin 8

end Sys2Proof
end

