-- ==== Sys2Proof/Config.lean ====
section
/-! DEFINITION. The implementation parameters of 00_scope.md R6.  Those the spec marks OPEN are opaque
constants without a body: no proof can see a value of them, so that every theorem holds for every admitted
value.  The fixed ones are plain definitions.  The free value of a read while busy (70_reset_and_hazards.md
R312) stands here too. -/

namespace Sys2Proof.Config

/-- The OPEN choice behind `W`: which of the nine multiples of 32 from 256 to 512 (log entry 1). -/
opaque widthStep : Fin 9

/-- `W`, the width in bits of every big register, coordinate and curve register (00_scope.md R6): a
multiple of 32 with `256 <= W <= 512`, and any of those. -/
def W : Nat := 256 + 32 * widthStep.val

/-- The OPEN choice behind `BASE`: which `0x4000`-byte slot of the bus the window fills (log entry 2). -/
opaque baseSlot : Nat

/-- `BASE`, the bus address of offset 0 of the window, aligned to `0x4000` (00_scope.md R6). -/
def base : Nat := 0x4000 * baseSlot

/-- The OPEN choice behind `SIGN_MAX_ATTEMPTS` (log entry 3). -/
opaque signRetries : Nat

/-- `SIGN_MAX_ATTEMPTS`, an integer `>= 1`: the nonce draws `SIGN` makes before it reports a degenerate
signature (00_scope.md R6). -/
def signMaxAttempts : Nat := signRetries + 1

/-- The two values of `KS_HEX_CASE` (00_scope.md R6). -/
inductive HexCase where
  | lower
  | upper
deriving DecidableEq, Repr, Inhabited

/-- `KS_HEX_CASE`, OPEN: the letter case of the keystream's hexadecimal digits (log entry 4). -/
opaque ksHexCase : HexCase

/-- The OPEN choice behind `RNG`: any function at all of the seed, the draw index and the two bounds
(log entry 5). -/
opaque rngChoice (seed idx : BitVec 64) (lo hi : Nat) : Nat

/-- `RNG(seed, idx, lo, hi)` (00_scope.md R7): a total function whose result is in `[lo, hi]` when
`lo <= hi`, and of which nothing else may be assumed.  Every such function is some choice of `rngChoice`. -/
def rng (seed idx : BitVec 64) (lo hi : Nat) : Nat := lo + rngChoice seed idx lo hi % (hi - lo + 1)

/-- The free value that the `n`-th unspecified read returns: a host read, while `BUSY = 1`, of state that
a command can write returns any 32-bit value (70_reset_and_hazards.md R312; log entry 6). -/
opaque busyRead (n : Nat) : Word

/-- `MSG_BYTES`, the size in bytes of each of the buffers `MSG` and `OUT` (00_scope.md R6). -/
def msgBytes : Nat := 4096

/-- The size in bytes of the register window (20_memory.md R60). -/
def windowBytes : Nat := 0x4000

/-- The constant of the read-only register `ID` (10_state.md R40). -/
def idValue : Word := 0x45430007#32

end Sys2Proof.Config

namespace Sys2Proof

/-- The contents of a big register, a point coordinate or a curve register: `W` bits (10_state.md R22,
R24, R27). -/
abbrev BigWord := BitVec Config.W

end Sys2Proof
end

