-- ==== Sys2Proof/Syntax.lean ====
section
/-! DEFINITION. The abstract syntax of the command set `ECCORE-7`: one constructor per row of the opcode map
(30_encoding.md R105).  The arguments are the fields the row uses, in the order `FD`, `FA`, `FB`, `FC`,
`IMM8`. -/

namespace Sys2Proof

/-- The 20 commands of 30_encoding.md R105. -/
inductive Instr where
  /-- `NOP` (46_system.md R260). -/
  | nop
  /-- `MODRED bD, bA, bC` (40_field.md R133). -/
  | modred (fd fa fc : BReg)
  /-- `MODADD bD, bA, bB, bC` (40_field.md R134). -/
  | modadd (fd fa fb fc : BReg)
  /-- `MODSUB bD, bA, bB, bC` (40_field.md R135). -/
  | modsub (fd fa fb fc : BReg)
  /-- `MODMUL bD, bA, bB, bC` (40_field.md R136). -/
  | modmul (fd fa fb fc : BReg)
  /-- `MONTMUL bD, bA, bB, bC` (40_field.md R138). -/
  | montmul (fd fa fb fc : BReg)
  /-- `MONTR2 bD, bC` (40_field.md R139). -/
  | montr2 (fd fc : BReg)
  /-- `MODINV bD, bA, bC` (40_field.md R143). -/
  | modinv (fd fa fc : BReg)
  /-- `PADD pD, pA, pB` (41_curve.md R167). -/
  | padd (fd fa fb : PReg)
  /-- `PDBL pD, pA` (41_curve.md R168). -/
  | pdbl (fd fa : PReg)
  /-- `PMUL pD, pA, bB` (41_curve.md R170). -/
  | pmul (fd fa : PReg) (fb : BReg)
  /-- `KEYGEN bD` (42_key.md R181). -/
  | keygen (fd : BReg)
  /-- `PUBKEY pD, bA` (42_key.md R182). -/
  | pubkey (fd : PReg) (fa : BReg)
  /-- `SHAINIT` (43_hash.md R199). -/
  | shainit
  /-- `SHABLK #i` (43_hash.md R200). -/
  | shablk (imm8 : BitVec 8)
  /-- `SHAHASH bD` (43_hash.md R201). -/
  | shahash (fd : BReg)
  /-- `SIGN bD, bB, bA`: `r` to `B[FD]`, `s` to `B[FB]`, key in `B[FA]` (44_signature.md R222). -/
  | sign (fd fa fb : BReg)
  /-- `VERIFY bA, bB, pC` (44_signature.md R225). -/
  | verify (fa fb : BReg) (fc : PReg)
  /-- `ENCRYPT pD, pA` (45_cipher.md R242). -/
  | encrypt (fd fa : PReg)
  /-- `DECRYPT bA, pB` (45_cipher.md R243). -/
  | decrypt (fa : BReg) (fb : PReg)
deriving DecidableEq, Repr

/-- The pseudo-instruction `MODSQR bD, bA, bC` (30_encoding.md R110). -/
def Instr.modsqr (fd fa fc : BReg) : Instr := .modmul fd fa fa fc

/-- The pseudo-instruction `TOMONT bD, bA, bR2, bC` (30_encoding.md R110). -/
def Instr.tomont (fd fa r2 fc : BReg) : Instr := .montmul fd fa r2 fc

/-- The pseudo-instruction `FROMMONT bD, bA, bONE, bC` (30_encoding.md R110). -/
def Instr.frommont (fd fa one fc : BReg) : Instr := .montmul fd fa one fc

end Sys2Proof
end

