-- ==== Sys2Proof/WellFormed.lean ====
section
/-! DEFINITION. Which terms of `Instr` are commands.  Every register index of `Instr` is in range by its type,
so the one check left is the one of 30_encoding.md R107 and R108. -/

namespace Sys2Proof

/-- A term is a command of 30_encoding.md R105 unless it is `SIGN` with `FD = FB`, which R107 makes
illegal.  (A `SHABLK` index of 64 or more is a legal command that ends in `MALFORMED_INPUT`, 43_hash.md
R200.) -/
def Instr.wellFormed : Instr → Bool
  | .nop => true
  | .modred _ _ _ => true
  | .modadd _ _ _ _ => true
  | .modsub _ _ _ _ => true
  | .modmul _ _ _ _ => true
  | .montmul _ _ _ _ => true
  | .montr2 _ _ => true
  | .modinv _ _ _ => true
  | .padd _ _ _ => true
  | .pdbl _ _ => true
  | .pmul _ _ _ => true
  | .keygen _ => true
  | .pubkey _ _ => true
  | .shainit => true
  | .shablk _ => true
  | .shahash _ => true
  | .sign fd _ fb => decide (fd ≠ fb)
  | .verify _ _ _ => true
  | .encrypt _ _ => true
  | .decrypt _ _ => true

end Sys2Proof
end

