-- ==== Sys2Proof/Decode.lean ====
section
/-! DEFINITION. The encoding of commands (30_encoding.md): the fields of a command word, the opcode map, the
decoder, which is total on 32-bit words and rejects by name, and after it the encoder and the assembler
text, both written from the same rules. -/

namespace Sys2Proof

/-- The five operand fields of a command word (30_encoding.md R101). -/
inductive CmdField where
  | fd
  | fa
  | fb
  | fc
  | imm8
deriving DecidableEq, Repr

/-- What a command uses a field for (30_encoding.md R102 to R104). -/
inductive FieldKind where
  /-- Should be zero. -/
  | sbz
  /-- Names a big register; every value is legal. -/
  | big
  /-- Names a point register; 8 to 15 are illegal. -/
  | point
  /-- The 8-bit unsigned immediate. -/
  | imm
deriving DecidableEq, Repr

/-- Why a word is no command (30_encoding.md R108).  The block reports each of them as
`ILLEGAL_COMMAND`. -/
inductive Reject where
  /-- The opcode is not in the map of 30_encoding.md R105. -/
  | unassignedOpcode
  /-- A should-be-zero field is not zero. -/
  | sbzNotZero (f : CmdField)
  /-- A point-register field holds 8 or more. -/
  | pointOutOfRange (f : CmdField)
  /-- `SIGN` names one register for both results. -/
  | signSameRegister
deriving DecidableEq, Repr

/-- The mnemonics of the opcode map. -/
inductive Opcode where
  | nop | modred | modadd | modsub | modmul | montmul | montr2 | modinv
  | padd | pdbl | pmul
  | keygen | pubkey
  | shainit | shablk | shahash
  | sign | verify
  | encrypt | decrypt
deriving DecidableEq, Repr

/-- The field kinds of one row of the opcode map. -/
structure Format where
  fd : FieldKind
  fa : FieldKind
  fb : FieldKind
  fc : FieldKind
  imm8 : FieldKind
deriving DecidableEq, Repr

/-- `OPC`, bits 7:0 (30_encoding.md R101). -/
def fieldOpc (c : Word) : BitVec 8 := c.extractLsb' 0 8
/-- `FD`, bits 11:8. -/
def fieldFd (c : Word) : BitVec 4 := c.extractLsb' 8 4
/-- `FA`, bits 15:12. -/
def fieldFa (c : Word) : BitVec 4 := c.extractLsb' 12 4
/-- `FB`, bits 19:16. -/
def fieldFb (c : Word) : BitVec 4 := c.extractLsb' 16 4
/-- `FC`, bits 23:20. -/
def fieldFc (c : Word) : BitVec 4 := c.extractLsb' 20 4
/-- `IMM8`, bits 31:24. -/
def fieldImm8 (c : Word) : BitVec 8 := c.extractLsb' 24 8

/-- The column `OPC` of the opcode map (30_encoding.md R105). -/
def opcodeValue : Opcode → BitVec 8
  | .nop => 0x00#8
  | .modred => 0x01#8
  | .modadd => 0x02#8
  | .modsub => 0x03#8
  | .modmul => 0x04#8
  | .montmul => 0x05#8
  | .montr2 => 0x06#8
  | .modinv => 0x07#8
  | .padd => 0x10#8
  | .pdbl => 0x11#8
  | .pmul => 0x12#8
  | .keygen => 0x20#8
  | .pubkey => 0x21#8
  | .shainit => 0x30#8
  | .shablk => 0x31#8
  | .shahash => 0x32#8
  | .sign => 0x40#8
  | .verify => 0x41#8
  | .encrypt => 0x50#8
  | .decrypt => 0x51#8

/-- The row of the opcode map an opcode value selects; none for the unassigned values (30_encoding.md
R106). -/
def opcodeOf (v : BitVec 8) : Option Opcode :=
  match v.toNat with
  | 0x00 => some .nop
  | 0x01 => some .modred
  | 0x02 => some .modadd
  | 0x03 => some .modsub
  | 0x04 => some .modmul
  | 0x05 => some .montmul
  | 0x06 => some .montr2
  | 0x07 => some .modinv
  | 0x10 => some .padd
  | 0x11 => some .pdbl
  | 0x12 => some .pmul
  | 0x20 => some .keygen
  | 0x21 => some .pubkey
  | 0x30 => some .shainit
  | 0x31 => some .shablk
  | 0x32 => some .shahash
  | 0x40 => some .sign
  | 0x41 => some .verify
  | 0x50 => some .encrypt
  | 0x51 => some .decrypt
  | _ => none

/-- The columns `FD`, `FA`, `FB`, `FC`, `IMM8` of the opcode map (30_encoding.md R105). -/
def formatOf : Opcode → Format
  | .nop => ⟨.sbz, .sbz, .sbz, .sbz, .sbz⟩
  | .modred => ⟨.big, .big, .sbz, .big, .sbz⟩
  | .modadd => ⟨.big, .big, .big, .big, .sbz⟩
  | .modsub => ⟨.big, .big, .big, .big, .sbz⟩
  | .modmul => ⟨.big, .big, .big, .big, .sbz⟩
  | .montmul => ⟨.big, .big, .big, .big, .sbz⟩
  | .montr2 => ⟨.big, .sbz, .sbz, .big, .sbz⟩
  | .modinv => ⟨.big, .big, .sbz, .big, .sbz⟩
  | .padd => ⟨.point, .point, .point, .sbz, .sbz⟩
  | .pdbl => ⟨.point, .point, .sbz, .sbz, .sbz⟩
  | .pmul => ⟨.point, .point, .big, .sbz, .sbz⟩
  | .keygen => ⟨.big, .sbz, .sbz, .sbz, .sbz⟩
  | .pubkey => ⟨.point, .big, .sbz, .sbz, .sbz⟩
  | .shainit => ⟨.sbz, .sbz, .sbz, .sbz, .sbz⟩
  | .shablk => ⟨.sbz, .sbz, .sbz, .sbz, .imm⟩
  | .shahash => ⟨.big, .sbz, .sbz, .sbz, .sbz⟩
  | .sign => ⟨.big, .big, .big, .sbz, .sbz⟩
  | .verify => ⟨.sbz, .big, .big, .point, .sbz⟩
  | .encrypt => ⟨.point, .point, .sbz, .sbz, .sbz⟩
  | .decrypt => ⟨.sbz, .big, .point, .sbz, .sbz⟩

/-- The check `decode` makes of one field of value `v` (30_encoding.md R108). -/
def checkField (f : CmdField) (k : FieldKind) (v : Nat) : Except Reject Unit :=
  match k with
  | .sbz => if v = 0 then .ok () else .error (.sbzNotZero f)
  | .point => if v < 8 then .ok () else .error (.pointOutOfRange f)
  | .big => .ok ()
  | .imm => .ok ()

/-- The checks of all five fields, in the order `FD`, `FA`, `FB`, `FC`, `IMM8` (30_encoding.md R108). -/
def checkFields (fmt : Format) (c : Word) : Except Reject Unit :=
  match checkField .fd fmt.fd (fieldFd c).toNat with
  | .error r => .error r
  | .ok _ =>
  match checkField .fa fmt.fa (fieldFa c).toNat with
  | .error r => .error r
  | .ok _ =>
  match checkField .fb fmt.fb (fieldFb c).toNat with
  | .error r => .error r
  | .ok _ =>
  match checkField .fc fmt.fc (fieldFc c).toNat with
  | .error r => .error r
  | .ok _ => checkField .imm8 fmt.imm8 (fieldImm8 c).toNat

/-- A field of kind `b` as a register index (30_encoding.md R102). -/
def asBig (v : BitVec 4) : BReg := v.toFin

/-- A field of kind `p` as a register index; used on values below 8 only (30_encoding.md R102). -/
def asPoint (v : BitVec 4) : PReg := Fin.ofNat 8 v.toNat

/-- The command a row of the opcode map and the fields of a word name (30_encoding.md R105). -/
def assemble (op : Opcode) (c : Word) : Instr :=
  let dB := asBig (fieldFd c)
  let aB := asBig (fieldFa c)
  let bB := asBig (fieldFb c)
  let cB := asBig (fieldFc c)
  let dP := asPoint (fieldFd c)
  let aP := asPoint (fieldFa c)
  let bP := asPoint (fieldFb c)
  let cP := asPoint (fieldFc c)
  match op with
  | .nop => .nop
  | .modred => .modred dB aB cB
  | .modadd => .modadd dB aB bB cB
  | .modsub => .modsub dB aB bB cB
  | .modmul => .modmul dB aB bB cB
  | .montmul => .montmul dB aB bB cB
  | .montr2 => .montr2 dB cB
  | .modinv => .modinv dB aB cB
  | .padd => .padd dP aP bP
  | .pdbl => .pdbl dP aP
  | .pmul => .pmul dP aP bB
  | .keygen => .keygen dB
  | .pubkey => .pubkey dP aB
  | .shainit => .shainit
  | .shablk => .shablk (fieldImm8 c)
  | .shahash => .shahash dB
  | .sign => .sign dB aB bB
  | .verify => .verify aB bB cP
  | .encrypt => .encrypt dP aP
  | .decrypt => .decrypt aB bP

/-- The decoder of 30_encoding.md R108: opcode, then the five fields, then `SIGN`'s two results. -/
def decode (c : Word) : Except Reject Instr :=
  match opcodeOf (fieldOpc c) with
  | none => .error .unassignedOpcode
  | some op =>
    match checkFields (formatOf op) c with
    | .error r => .error r
    | .ok _ =>
      if op = .sign ∧ fieldFd c = fieldFb c then .error .signSameRegister
      else .ok (assemble op c)

/-- The instruction the decoder reads from an instruction of `nbits` bits whose value is `w`.  A command is
one 32-bit word (30_encoding.md R100) with bit 0 its least significant bit (R101), so the word is `w`
itself; a value that does not fit in a command word is none. -/
def decodeTableWord (nbits w : Nat) : Option Instr :=
  if w % 2 ^ nbits < 2 ^ 32 then (decode (BitVec.ofNat 32 (w % 2 ^ nbits))).toOption else none

/-- The row of the opcode map a command stands in (30_encoding.md R105). -/
def opcodeOfInstr : Instr → Opcode
  | .nop => .nop
  | .modred _ _ _ => .modred
  | .modadd _ _ _ _ => .modadd
  | .modsub _ _ _ _ => .modsub
  | .modmul _ _ _ _ => .modmul
  | .montmul _ _ _ _ => .montmul
  | .montr2 _ _ => .montr2
  | .modinv _ _ _ => .modinv
  | .padd _ _ _ => .padd
  | .pdbl _ _ => .pdbl
  | .pmul _ _ _ => .pmul
  | .keygen _ => .keygen
  | .pubkey _ _ => .pubkey
  | .shainit => .shainit
  | .shablk _ => .shablk
  | .shahash _ => .shahash
  | .sign _ _ _ => .sign
  | .verify _ _ _ => .verify
  | .encrypt _ _ => .encrypt
  | .decrypt _ _ => .decrypt

/-- A command word from its fields (30_encoding.md R101). -/
def pack (imm8 : BitVec 8) (fc fb fa fd : BitVec 4) (op : Opcode) : Word :=
  imm8 ++ fc ++ fb ++ fa ++ fd ++ opcodeValue op

/-- A big-register index as a field. -/
def ofBig (r : BReg) : BitVec 4 := BitVec.ofFin r

/-- A point-register index as a field. -/
def ofPoint (r : PReg) : BitVec 4 := BitVec.ofNat 4 r.val

/-- The word of a command (30_encoding.md R105); every field the command does not use is zero (R104). -/
def encode : Instr → Word
  | .nop => pack 0 0 0 0 0 .nop
  | .modred fd fa fc => pack 0 (ofBig fc) 0 (ofBig fa) (ofBig fd) .modred
  | .modadd fd fa fb fc => pack 0 (ofBig fc) (ofBig fb) (ofBig fa) (ofBig fd) .modadd
  | .modsub fd fa fb fc => pack 0 (ofBig fc) (ofBig fb) (ofBig fa) (ofBig fd) .modsub
  | .modmul fd fa fb fc => pack 0 (ofBig fc) (ofBig fb) (ofBig fa) (ofBig fd) .modmul
  | .montmul fd fa fb fc => pack 0 (ofBig fc) (ofBig fb) (ofBig fa) (ofBig fd) .montmul
  | .montr2 fd fc => pack 0 (ofBig fc) 0 0 (ofBig fd) .montr2
  | .modinv fd fa fc => pack 0 (ofBig fc) 0 (ofBig fa) (ofBig fd) .modinv
  | .padd fd fa fb => pack 0 0 (ofPoint fb) (ofPoint fa) (ofPoint fd) .padd
  | .pdbl fd fa => pack 0 0 0 (ofPoint fa) (ofPoint fd) .pdbl
  | .pmul fd fa fb => pack 0 0 (ofBig fb) (ofPoint fa) (ofPoint fd) .pmul
  | .keygen fd => pack 0 0 0 0 (ofBig fd) .keygen
  | .pubkey fd fa => pack 0 0 0 (ofBig fa) (ofPoint fd) .pubkey
  | .shainit => pack 0 0 0 0 0 .shainit
  | .shablk imm8 => pack imm8 0 0 0 0 .shablk
  | .shahash fd => pack 0 0 0 0 (ofBig fd) .shahash
  | .sign fd fa fb => pack 0 0 (ofBig fb) (ofBig fa) (ofBig fd) .sign
  | .verify fa fb fc => pack 0 (ofPoint fc) (ofBig fb) (ofBig fa) 0 .verify
  | .encrypt fd fa => pack 0 0 0 (ofPoint fa) (ofPoint fd) .encrypt
  | .decrypt fa fb => pack 0 0 (ofPoint fb) (ofBig fa) 0 .decrypt

/-- The assembler text of a big register (30_encoding.md R109). -/
def asmBig (r : BReg) : String := "b" ++ toString r.val

/-- The assembler text of a point register (30_encoding.md R109). -/
def asmPoint (r : PReg) : String := "p" ++ toString r.val

/-- A mnemonic and its operands, separated by a comma and a space (30_encoding.md R109). -/
def asmLine (mnemonic : String) (operands : List String) : String :=
  match operands with
  | [] => mnemonic
  | _ :: _ => mnemonic ++ " " ++ String.intercalate ", " operands

/-- The assembler text of a command, destinations first (30_encoding.md R109). -/
def asm : Instr → String
  | .nop => asmLine "NOP" []
  | .modred fd fa fc => asmLine "MODRED" [asmBig fd, asmBig fa, asmBig fc]
  | .modadd fd fa fb fc => asmLine "MODADD" [asmBig fd, asmBig fa, asmBig fb, asmBig fc]
  | .modsub fd fa fb fc => asmLine "MODSUB" [asmBig fd, asmBig fa, asmBig fb, asmBig fc]
  | .modmul fd fa fb fc => asmLine "MODMUL" [asmBig fd, asmBig fa, asmBig fb, asmBig fc]
  | .montmul fd fa fb fc => asmLine "MONTMUL" [asmBig fd, asmBig fa, asmBig fb, asmBig fc]
  | .montr2 fd fc => asmLine "MONTR2" [asmBig fd, asmBig fc]
  | .modinv fd fa fc => asmLine "MODINV" [asmBig fd, asmBig fa, asmBig fc]
  | .padd fd fa fb => asmLine "PADD" [asmPoint fd, asmPoint fa, asmPoint fb]
  | .pdbl fd fa => asmLine "PDBL" [asmPoint fd, asmPoint fa]
  | .pmul fd fa fb => asmLine "PMUL" [asmPoint fd, asmPoint fa, asmBig fb]
  | .keygen fd => asmLine "KEYGEN" [asmBig fd]
  | .pubkey fd fa => asmLine "PUBKEY" [asmPoint fd, asmBig fa]
  | .shainit => asmLine "SHAINIT" []
  | .shablk imm8 => asmLine "SHABLK" ["#" ++ toString imm8.toNat]
  | .shahash fd => asmLine "SHAHASH" [asmBig fd]
  | .sign fd fa fb => asmLine "SIGN" [asmBig fd, asmBig fb, asmBig fa]
  | .verify fa fb fc => asmLine "VERIFY" [asmBig fa, asmBig fb, asmPoint fc]
  | .encrypt fd fa => asmLine "ENCRYPT" [asmPoint fd, asmPoint fa]
  | .decrypt fa fb => asmLine "DECRYPT" [asmBig fa, asmPoint fb]

end Sys2Proof
end

