-- ==== Sys2Proof/Machine/State.lean ====
section
/-! DEFINITION. The state of the block as plain data (10_state.md R20), the two ways a step can stop, and the
state after reset (70_reset_and_hazards.md R301). -/

namespace Sys2Proof.Machine

/-- A byte buffer: the (index, byte) pairs whose byte differs from `Memory.unlisted`, the indices strictly
rising. -/
abbrev Memory := List Host.Cell

/-- What a byte of `MSG` or `OUT` that is not listed reads as: the reset value of every byte of both buffers
(10_state.md R32, R33). -/
def Memory.unlisted : Byte := 0#8

/-- A point (00_scope.md R11): the tagged type of the group identity and the finite points. -/
inductive Point where
  /-- The group identity. -/
  | infinity
  /-- A finite point; `Finite(0, 0)` is an ordinary point (41_curve.md R162). -/
  | finite (x y : Nat)
deriving DecidableEq, Repr

/-- The error codes that `STATUS.ERRCODE` can hold (60_exceptions.md R272).  Codes 6 to 15 are reserved and
never written, so they are no value of this type. -/
inductive ErrCode where
  | none
  | uninvertible
  | malformedInput
  | degenerateSignature
  | illegalCommand
  | infinityPoint
deriving DecidableEq, Repr

/-- The fields of `STATUS` that are stored (10_state.md R36).  `BUSY` is not among them: it is the engine's
state seen by the host (R42).  The reserved bits read 0 and ignore writes, so nothing stores them. -/
structure Status where
  done : Bool
  valid : Bool
  overrun : Bool
  errcode : ErrCode
deriving DecidableEq, Repr

/-- The field of `CTRL` that is stored (10_state.md R35): `SOFT_RESET` reads 0, the other bits are reserved. -/
structure Ctrl where
  ie : Bool
deriving DecidableEq, Repr

/-- The engine (10_state.md R42): idle, or busy with an accepted command word it has not yet performed. -/
inductive Engine where
  | idle
  | busy (c : Word)
deriving DecidableEq, Repr

/-- The two coordinate fields of a point register (10_state.md R24); its tag is a bit of `PINF` (R41). -/
structure PointReg where
  x : BigWord
  y : BigWord
deriving DecidableEq, Repr

/-- The six curve registers (10_state.md R27). -/
structure CurveRegs where
  p : BigWord
  a : BigWord
  b : BigWord
  n : BigWord
  gx : BigWord
  gy : BigWord
deriving DecidableEq, Repr

/-- One thing that reaches the block from outside, or the engine's turn (00_scope.md R5). -/
inductive BusEvent where
  /-- The host's `MemRead(BASE + off, width)`, `width` in bytes. -/
  | read (off width : Nat)
  /-- The host's `MemWrite(BASE + off, width, v)`, `width` in bytes. -/
  | write (off width : Nat) (v : Word)
  /-- The engine takes its step now (60_exceptions.md R274). -/
  | engine
  /-- The platform asserts the reset input `RST` (70_reset_and_hazards.md R300). -/
  | rst
deriving DecidableEq, Repr

/-- The state of the block (10_state.md R20), then three fields of the model's own. -/
structure State where
  /-- `B0..B15` (R22). -/
  big : Vector BigWord 16
  /-- `P0..P7`: the fields `X` and `Y` (R24). -/
  point : Vector PointReg 8
  /-- `PINF`: bit `j` is the tag of `Pj` (R41). -/
  pinf : BitVec 8
  /-- `CURVE_P`, `CURVE_A`, `CURVE_B`, `CURVE_N`, `CURVE_GX`, `CURVE_GY` (R27). -/
  curve : CurveRegs
  /-- `SHA_H0..SHA_H7` (R31). -/
  shaH : Vector Word 8
  /-- `MSG` (R32). -/
  msg : Memory
  /-- `OUT` (R33). -/
  out : Memory
  /-- `MSG_LEN` (R34). -/
  msgLen : Word
  /-- `CTRL` (R35). -/
  ctrl : Ctrl
  /-- `STATUS` but for `BUSY` (R36). -/
  status : Status
  /-- `SEED` (R37). -/
  seed : BitVec 64
  /-- `RNG_CTR` (R37). -/
  rngCtr : BitVec 64
  /-- `CMD`: the last accepted command word (R38). -/
  cmd : Word
  /-- The engine's state (R42), which the host sees as `STATUS.BUSY`. -/
  engine : Engine
  /-- The model's own: the events still to come, the next one first (log entry 7). -/
  bus : List BusEvent
  /-- The model's own: the words the host's reads have returned, the latest first (log entry 8). -/
  reads : List Word
  /-- The model's own: how many free values have been handed out (log entry 6). -/
  freeCtr : Nat
deriving DecidableEq, Repr

/-- Why a step stops with a fault. -/
inductive Fault where
  /-- Raised by a host access whose byte offset is not in the window `[0, 0x3FFF]` of 20_memory.md R60: no
  such address belongs to the block.  Safe: the model stops where the bus would go elsewhere (log entry
  10). -/
  | outsideWindow
deriving DecidableEq, Repr

/-- Why a step is refused. -/
inductive Refusal where
  /-- Raised by an arm of `exec` that has no meaning yet; there is none.  Safe. -/
  | notModelled (mnemonic : String)
  /-- Raised by a host access of another width than 32 bits, or at an offset that is not a multiple of 4,
  which 20_memory.md R66 does not define and tells a model to refuse.  Safe (log entry 9). -/
  | undefinedAccess
deriving DecidableEq, Repr

/-- What a command or a step answers. -/
abbrev Result := Host.Outcome State Fault Refusal

/-- The state after reset: every state of 10_state.md R20 at its reset value, which is 0 throughout, and the
engine idle (70_reset_and_hazards.md R301, R303); no event to come and no read made. -/
def State.reset : State where
  big := Vector.replicate 16 0#Config.W
  point := Vector.replicate 8 ⟨0#Config.W, 0#Config.W⟩
  pinf := 0#8
  curve := ⟨0#Config.W, 0#Config.W, 0#Config.W, 0#Config.W, 0#Config.W, 0#Config.W⟩
  shaH := Vector.replicate 8 0#32
  msg := []
  out := []
  msgLen := 0#32
  ctrl := ⟨false⟩
  status := ⟨false, false, false, .none⟩
  seed := 0#64
  rngCtr := 0#64
  cmd := 0#32
  engine := .idle
  bus := []
  reads := []
  freeCtr := 0

end Sys2Proof.Machine
end

