-- ==== Sys2Proof/Machine/Flags.lean ====
section
/-! DEFINITION. Every flag computation of the block: the words the host sees of `STATUS` and `CTRL`, the error
codes, what acceptance, overrun, completion and a host write do to the flags, and the interrupt level. -/

namespace Sys2Proof.Machine

/-- The code of an error (60_exceptions.md R272). -/
def ErrCode.code : ErrCode → BitVec 4
  | .none => 0#4
  | .uninvertible => 1#4
  | .malformedInput => 2#4
  | .degenerateSignature => 3#4
  | .illegalCommand => 4#4
  | .infinityPoint => 5#4

/-- `STATUS.BUSY`: 1 from the acceptance of a command until its completion (10_state.md R36, R42). -/
def State.isBusy (s : State) : Bool :=
  match s.engine with
  | .idle => false
  | .busy _ => true

/-- The word a host read of `STATUS` returns: `ERRCODE` in bits 11:8, `OVERRUN`, `VALID`, `DONE`, `BUSY` in
bits 3:0, the reserved bits 0 (10_state.md R36). -/
def State.statusWord (s : State) : Word :=
  0#20 ++ s.status.errcode.code ++ 0#4 ++ BitVec.ofBool s.status.overrun ++ BitVec.ofBool s.status.valid ++
    BitVec.ofBool s.status.done ++ BitVec.ofBool s.isBusy

/-- The word a host read of `CTRL` returns: `IE` in bit 0, all other bits 0 (10_state.md R35). -/
def Ctrl.word (c : Ctrl) : Word := 0#31 ++ BitVec.ofBool c.ie

/-- Bit 0 of a written `CTRL` is `IE` (10_state.md R35). -/
def ctrlIeBit (v : Word) : Bool := v[0]

/-- Bit 1 of a written `CTRL` is `SOFT_RESET` (10_state.md R35). -/
def ctrlResetBit (v : Word) : Bool := v[1]

/-- A host write of `v` to `STATUS`: clears `DONE` where bit 1 of `v` is 1 and `OVERRUN` where bit 3 is 1;
every other bit is ignored (10_state.md R36). -/
def Status.clearWritten (st : Status) (v : Word) : Status :=
  { st with
    done := if v[1] then false else st.done
    overrun := if v[3] then false else st.overrun }

/-- The flags on acceptance: `DONE`, `VALID` and `ERRCODE` cleared, `OVERRUN` kept (60_exceptions.md R270). -/
def Status.accepted (st : Status) : Status :=
  { st with done := false, valid := false, errcode := .none }

/-- The flags at the completion of a command without error: `ERRCODE` 0 and `DONE` set; `VALID` as the
command left it (60_exceptions.md R274, R275). -/
def Status.succeeded (st : Status) : Status :=
  { st with done := true, errcode := .none }

/-- The flags at the completion of a command with an error: `ERRCODE` the code, `DONE` set, `VALID` 0
(60_exceptions.md R274, R276). -/
def Status.failed (st : Status) (e : ErrCode) : Status :=
  { st with done := true, valid := false, errcode := e }

/-- The interrupt output `IRQ = STATUS.DONE and CTRL.IE` (60_exceptions.md R280). -/
def State.irq (s : State) : Bool := s.status.done && s.ctrl.ie

/-- Bit `j` of a tag word set to `b`: the tag of `Pj` (10_state.md R41). -/
def setTag (v : BitVec 8) (j : PReg) (b : Bool) : BitVec 8 :=
  if b then v ||| (1#8 <<< j.val) else v &&& ~~~(1#8 <<< j.val)

end Sys2Proof.Machine
end

