-- ==== Sys2Proof/Machine/Ops.lean ====
section
/-! DEFINITION. The named operations the meanings share: bytes of a buffer, integer arithmetic with the floor
modulo, the random source, acceptance, completion, the one way a command ends in an error, and reset. -/

namespace Sys2Proof.Machine

/-- One byte of a buffer. -/
def Memory.read : Memory → Nat → Byte
  | [], _ => Memory.unlisted
  | (k, v) :: rest, i => if k = i then v else Memory.read rest i

/-- A cell in front of a buffer, unless it holds what an unlisted byte reads as. -/
def Memory.consCell (i : Nat) (v : Byte) (rest : Memory) : Memory :=
  if v = Memory.unlisted then rest else (i, v) :: rest

/-- A buffer with byte `i` set to `v`, in canonical form again. -/
def Memory.write : Memory → Nat → Byte → Memory
  | [], i, v => Memory.consCell i v []
  | (k, w) :: rest, i, v =>
    if i < k then Memory.consCell i v ((k, w) :: rest)
    else if i = k then Memory.consCell i v rest
    else (k, w) :: Memory.write rest i v

/-- A buffer with the bytes `bs` written from index `i` up. -/
def Memory.writeBytes : Memory → Nat → List Byte → Memory
  | m, _, [] => m
  | m, i, b :: bs => Memory.writeBytes (Memory.write m i b) (i + 1) bs

/-- The `n` bytes of a buffer from index `i` up. -/
def Memory.bytes (m : Memory) : Nat → Nat → List Byte
  | _, 0 => []
  | i, n + 1 => Memory.read m i :: Memory.bytes m (i + 1) n

/-- Every index is at least `lo` and rising, below `MSG_BYTES`, and no cell holds the unlisted byte. -/
def Memory.wfFrom : Nat → Memory → Bool
  | _, [] => true
  | lo, (k, v) :: rest =>
    decide (lo ≤ k) && decide (k < Config.msgBytes) && decide (v ≠ Memory.unlisted) && Memory.wfFrom (k + 1) rest

/-- The canonical form of a buffer: indices strictly rising and inside the buffer, no cell equal to what an
unlisted byte reads as; so that equal contents are equal data. -/
def Memory.wf (m : Memory) : Bool := Memory.wfFrom 0 m

/-- `x mod m`, the floor modulo on integers, for `m >= 1` (00_scope.md R9). -/
def floorMod (x : Int) (m : Nat) : Nat := (x % (m : Int)).toNat

/-- `bitlen(k)`: the number of bits of `k` without leading zeros, 0 for 0 (00_scope.md R8). -/
def bitlen (k : Nat) : Nat := if k = 0 then 0 else k.log2 + 1

/-- `draw(lo, hi)`: the value the random source returns and the state with `RNG_CTR` advanced by one, modulo
`2^64` (00_scope.md R10, 10_state.md R37). -/
def draw (lo hi : Nat) (s : State) : Nat × State :=
  (Config.rng s.seed s.rngCtr lo hi, { s with rngCtr := s.rngCtr + 1#64 })

/-- Acceptance of the command word `c` (60_exceptions.md R270): `CMD` and the engine take it, `BUSY` is 1,
`DONE`, `VALID` and `ERRCODE` are cleared. -/
def accept (c : Word) (s : State) : State :=
  { s with cmd := c, engine := .busy c, status := s.status.accepted }

/-- A `CMD` write while busy (60_exceptions.md R271): `OVERRUN` set, nothing else. -/
def overrun (s : State) : State := { s with status := { s.status with overrun := true } }

/-- The completion of a command that succeeded (60_exceptions.md R274): `ERRCODE` 0, `BUSY` 0, `DONE` 1, the
engine idle.  The command's own writes are in `s` already. -/
def complete (s : State) : State := { s with engine := .idle, status := s.status.succeeded }

/-- A command ends with an error: this is how the block takes an exception (60_exceptions.md R274, R276,
R282).  `ERRCODE` is the code, `VALID` 0, `BUSY` 0, `DONE` 1, the engine idle; nothing else is written.  `s` is
the state before the command but for the draws it made, which stay made. -/
def takeError (e : ErrCode) (s : State) : State := { s with engine := .idle, status := s.status.failed e }

/-- The engine's commit of a command whose outcome is `r` (60_exceptions.md R274 to R276): on success the
command's writes `commit` on `s` and completion, on an error `takeError` on `s`. -/
def conclude {α : Type} (r : Except ErrCode α) (commit : α → State → State) (s : State) : Result :=
  match r with
  | .ok v => .next (complete (commit v s))
  | .error e => .next (takeError e s)

/-- Reset of every state of the block (70_reset_and_hazards.md R301), from either source (R300).  The
events still to come, the reads made and the count of free values are not the block's and stay. -/
def resetBlock (s : State) : State :=
  { State.reset with bus := s.bus, reads := s.reads, freeCtr := s.freeCtr }

end Sys2Proof.Machine
end

