-- ==== Sys2Proof/Machine/Operands.lean ====
section
/-! DEFINITION. Every operand form: big registers, point registers with their tags, the curve, the hash state,
the message and the output, and the 32-bit words in which the host sees them. -/

namespace Sys2Proof.Machine

/-- `B[r]`, an unsigned integer below `2^W` (00_scope.md R10). -/
def State.readBig (s : State) (r : BReg) : Nat := (s.big[r.val]).toNat

/-- `B[r] <- v` (00_scope.md R10); every rule writes a `v` below `2^W`. -/
def State.writeBig (s : State) (r : BReg) (v : Nat) : State :=
  { s with big := s.big.set r.val (BitVec.ofNat Config.W v) r.isLt }

/-- `P[j]` as a point: the tag decides, and the coordinates of an `Infinity` are ignored (10_state.md R25). -/
def State.readPoint (s : State) (j : PReg) : Point :=
  if s.pinf[j.val] then .infinity else .finite (s.point[j.val]).x.toNat (s.point[j.val]).y.toNat

/-- `P[j] <- q`: an `Infinity` sets the tag and zeroes the coordinates, a finite point clears it
(10_state.md R26). -/
def State.writePoint (s : State) (j : PReg) (q : Point) : State :=
  match q with
  | .infinity =>
    { s with pinf := setTag s.pinf j true
             point := s.point.set j.val ⟨0#Config.W, 0#Config.W⟩ j.isLt }
  | .finite x y =>
    { s with pinf := setTag s.pinf j false
             point := s.point.set j.val ⟨BitVec.ofNat Config.W x, BitVec.ofNat Config.W y⟩ j.isLt }

/-- `CURVE.p` (10_state.md R28). -/
def State.curveP (s : State) : Nat := s.curve.p.toNat

/-- `CURVE.a` (10_state.md R28). -/
def State.curveA (s : State) : Nat := s.curve.a.toNat

/-- `CURVE.n` (10_state.md R28). -/
def State.curveN (s : State) : Nat := s.curve.n.toNat

/-- `CURVE.G`, always a finite point (10_state.md R28). -/
def State.curveG (s : State) : Point := .finite s.curve.gx.toNat s.curve.gy.toNat

/-- The message `MSG[0 .. MSG_LEN - 1]` (20_memory.md R77). -/
def State.message (s : State) : List Byte := Memory.bytes s.msg 0 s.msgLen.toNat

/-- The 64 bytes of block `i` of `MSG` (43_hash.md R200). -/
def State.messageBlock (s : State) (i : Nat) : List Byte := Memory.bytes s.msg (64 * i) 64

/-- `SHA_H[0..7] <- h` (43_hash.md R199 to R201). -/
def State.writeHash (s : State) (h : Vector Word 8) : State := { s with shaH := h }

/-- `OUT[0 ..] <- bs`; the bytes above keep their value (10_state.md R33). -/
def State.writeOut (s : State) (bs : List Byte) : State := { s with out := Memory.writeBytes s.out 0 bs }

/-- `STATUS.VALID <- v`, by `VERIFY` alone (44_signature.md R225). -/
def State.writeValid (s : State) (v : Bool) : State := { s with status := { s.status with valid := v } }

/-- Word `j` of a `W`-bit register: bits `32j+31` to `32j`, and 0 for `j >= W/32` (10_state.md R23). -/
def getWord (v : BigWord) (j : Fin 16) : Word := v.extractLsb' (32 * j.val) 32

/-- A `W`-bit register with word `j` replaced by `w`; ignored for `j >= W/32` (10_state.md R23). -/
def putWord (v : BigWord) (j : Fin 16) (w : Word) : BigWord :=
  if 32 * j.val < Config.W then
    (v &&& ~~~((0xFFFFFFFF#32).setWidth Config.W <<< (32 * j.val))) ||| (w.setWidth Config.W <<< (32 * j.val))
  else v

/-- The word at index `i` of a buffer, the byte of lowest index in bits 7:0 (20_memory.md R65). -/
def Memory.readWord (m : Memory) (i : Nat) : Word :=
  Memory.read m (i + 3) ++ Memory.read m (i + 2) ++ Memory.read m (i + 1) ++ Memory.read m i

/-- The four bytes of a word, the byte of lowest index first (20_memory.md R65). -/
def wordBytes (w : Word) : List Byte :=
  [w.extractLsb' 0 8, w.extractLsb' 8 8, w.extractLsb' 16 8, w.extractLsb' 24 8]

/-- A buffer with the word `w` written at index `i`: all four bytes (20_memory.md R65). -/
def Memory.writeWord (m : Memory) (i : Nat) (w : Word) : Memory := Memory.writeBytes m i (wordBytes w)

end Sys2Proof.Machine
end

