-- ==== Sys2Proof/Machine/Field.lean ====
section
/-! DEFINITION. Field arithmetic (40_field.md): the extended-GCD inverse, and the seven field commands over pure
functions of their operand values. -/

namespace Sys2Proof.Machine

/-- The loop of `extended_gcd` (40_field.md R142).  `fuel` bounds the iterations; `inv` gives it more than
the remainder `r1`, which strictly decreases, can use. -/
def egcdLoop : Nat → Nat → Nat → Int → Int → Nat × Int
  | 0, r0, _, s0, _ => (r0, s0)
  | fuel + 1, r0, r1, s0, s1 =>
    if r1 = 0 then (r0, s0)
    else egcdLoop fuel r1 (r0 - (r0 / r1) * r1) s1 (s0 - ((r0 / r1 : Nat) : Int) * s1)

/-- `extended_gcd(a, b)` (40_field.md R142): the gcd of `a` and `b`, and the coefficient of `a`. -/
def extendedGcd (a b : Nat) : Nat × Int := egcdLoop (b + 1) a b 1 0

/-- `inv(x, m)` for `m >= 2` (40_field.md R142): the inverse of `x` modulo `m`, or `UNINVERTIBLE`. -/
def inv (x : Int) (m : Nat) : Except ErrCode Nat :=
  let gu := extendedGcd (floorMod x m) m
  if gu.1 = 1 then .ok (floorMod gu.2 m) else .error .uninvertible

/-- `MODRED` on values (40_field.md R133). -/
def modRed (x m : Nat) : Except ErrCode Nat :=
  if m < 2 then .error .malformedInput else .ok (x % m)

/-- `MODADD` on values (40_field.md R134). -/
def modAdd (x y m : Nat) : Except ErrCode Nat :=
  if m < 2 then .error .malformedInput else .ok ((x % m + y % m) % m)

/-- `MODSUB` on values (40_field.md R135): the difference is an integer, reduced by the floor modulo. -/
def modSub (x y m : Nat) : Except ErrCode Nat :=
  if m < 2 then .error .malformedInput else .ok (floorMod (((x % m : Nat) : Int) - ((y % m : Nat) : Int)) m)

/-- `MODMUL` on values (40_field.md R136): the exact product, then reduced. -/
def modMul (x y m : Nat) : Except ErrCode Nat :=
  if m < 2 then .error .malformedInput else .ok ((x % m) * (y % m) % m)

/-- `MONTMUL` on values, with radix `R = 2^w` (40_field.md R137, R138).  For the odd moduli that pass the
checks `R` has an inverse, so the last error is never raised (Laws/Field.lean). -/
def montMul (w x y m : Nat) : Except ErrCode Nat :=
  if m < 2 then .error .malformedInput
  else if m % 2 = 0 then .error .malformedInput
  else
    match inv ((2 ^ w : Nat) : Int) m with
    | .error e => .error e
    | .ok rinv => .ok ((x % m) * (y % m) * rinv % m)

/-- `MONTR2` on values, with radix `R = 2^w` (40_field.md R139). -/
def montR2 (w m : Nat) : Except ErrCode Nat :=
  if m < 2 then .error .malformedInput
  else if m % 2 = 0 then .error .malformedInput
  else .ok (2 ^ (2 * w) % m)

/-- `MODINV` on values (40_field.md R143). -/
def modInv (x m : Nat) : Except ErrCode Nat :=
  if m < 2 then .error .malformedInput else inv (x : Int) m

/-- `MODRED bD, bA, bC` (40_field.md R133). -/
def execModred (fd fa fc : BReg) (s : State) : Result :=
  conclude (modRed (s.readBig fa) (s.readBig fc)) (fun v t => t.writeBig fd v) s

/-- `MODADD bD, bA, bB, bC` (40_field.md R134). -/
def execModadd (fd fa fb fc : BReg) (s : State) : Result :=
  conclude (modAdd (s.readBig fa) (s.readBig fb) (s.readBig fc)) (fun v t => t.writeBig fd v) s

/-- `MODSUB bD, bA, bB, bC` (40_field.md R135). -/
def execModsub (fd fa fb fc : BReg) (s : State) : Result :=
  conclude (modSub (s.readBig fa) (s.readBig fb) (s.readBig fc)) (fun v t => t.writeBig fd v) s

/-- `MODMUL bD, bA, bB, bC` (40_field.md R136). -/
def execModmul (fd fa fb fc : BReg) (s : State) : Result :=
  conclude (modMul (s.readBig fa) (s.readBig fb) (s.readBig fc)) (fun v t => t.writeBig fd v) s

/-- `MONTMUL bD, bA, bB, bC` (40_field.md R138). -/
def execMontmul (fd fa fb fc : BReg) (s : State) : Result :=
  conclude (montMul Config.W (s.readBig fa) (s.readBig fb) (s.readBig fc)) (fun v t => t.writeBig fd v) s

/-- `MONTR2 bD, bC` (40_field.md R139). -/
def execMontr2 (fd fc : BReg) (s : State) : Result :=
  conclude (montR2 Config.W (s.readBig fc)) (fun v t => t.writeBig fd v) s

/-- `MODINV bD, bA, bC` (40_field.md R143). -/
def execModinv (fd fa fc : BReg) (s : State) : Result :=
  conclude (modInv (s.readBig fa) (s.readBig fc)) (fun v t => t.writeBig fd v) s

end Sys2Proof.Machine
end

