-- ==== Sys2Proof/Machine/Curve.lean ====
section
/-! DEFINITION. The point adder and doubler and the scalar multiplier (41_curve.md), and their three
commands. -/

namespace Sys2Proof.Machine

/-- A point operand as the curve rules use it: coordinates reduced modulo `p` (41_curve.md R160). -/
def normalise (p : Nat) : Point → Point
  | .infinity => .infinity
  | .finite x y => .finite (x % p) (y % p)

/-- The third point of the line of slope `sl` through `(x1, y1)` and a point of abscissa `x2`, negated
(41_curve.md R166). -/
def lineResult (p sl x1 y1 x2 : Nat) : Point :=
  let x3 := floorMod ((sl : Int) ^ 2 - (x1 : Int) - (x2 : Int)) p
  .finite x3 (floorMod ((sl : Int) * ((x1 : Int) - (x3 : Int)) - (y1 : Int)) p)

/-- The doubling of `(x1, y1)` (41_curve.md R163): `Infinity` when `2·y1` is 0 modulo `p`. -/
def tangent (p a x1 y1 : Nat) : Except ErrCode Point :=
  if (2 * y1) % p = 0 then .ok .infinity
  else
    match inv ((2 * y1 : Nat) : Int) p with
    | .error e => .error e
    | .ok i => .ok (lineResult p ((3 * x1 ^ 2 + a) * i % p) x1 y1 x1)

/-- The sum of two finite points of different abscissas (41_curve.md R165). -/
def chord (p x1 y1 x2 y2 : Nat) : Except ErrCode Point :=
  match inv ((x2 : Int) - (x1 : Int)) p with
  | .error e => .error e
  | .ok i => .ok (lineResult p (floorMod (((y2 : Int) - (y1 : Int)) * (i : Int)) p) x1 y1 x2)

/-- The sum of two normalised points (41_curve.md R161, R162, R164). -/
def addNormalised (p a : Nat) : Point → Point → Except ErrCode Point
  | .infinity, q => .ok q
  | .finite x1 y1, .infinity => .ok (.finite x1 y1)
  | .finite x1 y1, .finite x2 y2 =>
    if x1 = x2 ∧ y1 = y2 then tangent p a x1 y1
    else if x1 = x2 then .ok .infinity
    else chord p x1 y1 x2 y2

/-- `padd(P, Q)` over the prime `p` and the coefficient `a` (41_curve.md R161). -/
def padd (p a : Nat) (P Q : Point) : Except ErrCode Point := addNormalised p a (normalise p P) (normalise p Q)

/-- The loop of `pmul` (41_curve.md R169): `i` iterations are left, `k` holds the bits not yet used, the
lowest next; the doubling is made in every iteration, the last included. -/
def pmulLoop (p a : Nat) : Nat → Nat → Point → Point → Except ErrCode Point
  | 0, _, racc, _ => .ok racc
  | i + 1, k, racc, t =>
    match (if k % 2 = 1 then padd p a racc t else .ok racc) with
    | .error e => .error e
    | .ok racc' =>
      match padd p a t t with
      | .error e => .error e
      | .ok t' => pmulLoop p a i (k / 2) racc' t'

/-- `pmul(P, k)` (41_curve.md R169). -/
def pmul (p a : Nat) (P : Point) (k : Nat) : Except ErrCode Point :=
  pmulLoop p a (bitlen k) k .infinity (normalise p P)

/-- `PADD` on values, its check first (41_curve.md R167). -/
def pointAdd (p a : Nat) (P Q : Point) : Except ErrCode Point :=
  if p < 2 then .error .malformedInput else padd p a P Q

/-- `PMUL` and `PUBKEY` on values, their check first (41_curve.md R170, 42_key.md R182). -/
def pointMul (p a : Nat) (P : Point) (k : Nat) : Except ErrCode Point :=
  if p < 2 then .error .malformedInput else pmul p a P k

/-- `PADD pD, pA, pB` (41_curve.md R167). -/
def execPadd (fd fa fb : PReg) (s : State) : Result :=
  conclude (pointAdd s.curveP s.curveA (s.readPoint fa) (s.readPoint fb)) (fun q t => t.writePoint fd q) s

/-- `PDBL pD, pA` (41_curve.md R168). -/
def execPdbl (fd fa : PReg) (s : State) : Result :=
  conclude (pointAdd s.curveP s.curveA (s.readPoint fa) (s.readPoint fa)) (fun q t => t.writePoint fd q) s

/-- `PMUL pD, pA, bB` (41_curve.md R170). -/
def execPmul (fd fa : PReg) (fb : BReg) (s : State) : Result :=
  conclude (pointMul s.curveP s.curveA (s.readPoint fa) (s.readBig fb)) (fun q t => t.writePoint fd q) s

end Sys2Proof.Machine
end

