-- ==== Sys2Proof/Machine/Key.lean ====
section
/-! DEFINITION. The key service (42_key.md): the draw of a private key and the two key commands. -/

namespace Sys2Proof.Machine

/-- `keydraw(n)`, for `n >= 2`: `draw(1, n - 1)` (42_key.md R180). -/
def keydraw (n : Nat) (s : State) : Nat × State := draw 1 (n - 1) s

/-- `KEYGEN bD` (42_key.md R181). -/
def execKeygen (fd : BReg) (s : State) : Result :=
  if s.curveN < 2 then .next (takeError .malformedInput s)
  else
    let ks := keydraw s.curveN s
    .next (complete (ks.2.writeBig fd ks.1))

/-- `PUBKEY pD, bA` (42_key.md R182). -/
def execPubkey (fd : PReg) (fa : BReg) (s : State) : Result :=
  conclude (pointMul s.curveP s.curveA s.curveG (s.readBig fa)) (fun q t => t.writePoint fd q) s

end Sys2Proof.Machine
end

