-- ==== Sys2Proof/Machine/Hash.lean ====
section
/-! DEFINITION. SHA-256 (43_hash.md): constants, functions, schedule, rounds, padding, and the three hash
commands. -/

namespace Sys2Proof.Machine

/-- The initial hash value (43_hash.md R190). -/
def shaIV : Vector Word 8 :=
  #v[0x6a09e667#32, 0xbb67ae85#32, 0x3c6ef372#32, 0xa54ff53a#32,
     0x510e527f#32, 0x9b05688c#32, 0x1f83d9ab#32, 0x5be0cd19#32]

/-- `K[0..31]` (43_hash.md R191). -/
def shaKLow : List Word :=
  [0x428a2f98#32, 0x71374491#32, 0xb5c0fbcf#32, 0xe9b5dba5#32, 0x3956c25b#32, 0x59f111f1#32, 0x923f82a4#32, 0xab1c5ed5#32] ++
  [0xd807aa98#32, 0x12835b01#32, 0x243185be#32, 0x550c7dc3#32, 0x72be5d74#32, 0x80deb1fe#32, 0x9bdc06a7#32, 0xc19bf174#32] ++
  [0xe49b69c1#32, 0xefbe4786#32, 0x0fc19dc6#32, 0x240ca1cc#32, 0x2de92c6f#32, 0x4a7484aa#32, 0x5cb0a9dc#32, 0x76f988da#32] ++
  [0x983e5152#32, 0xa831c66d#32, 0xb00327c8#32, 0xbf597fc7#32, 0xc6e00bf3#32, 0xd5a79147#32, 0x06ca6351#32, 0x14292967#32]

/-- `K[32..63]` (43_hash.md R191). -/
def shaKHigh : List Word :=
  [0x27b70a85#32, 0x2e1b2138#32, 0x4d2c6dfc#32, 0x53380d13#32, 0x650a7354#32, 0x766a0abb#32, 0x81c2c92e#32, 0x92722c85#32] ++
  [0xa2bfe8a1#32, 0xa81a664b#32, 0xc24b8b70#32, 0xc76c51a3#32, 0xd192e819#32, 0xd6990624#32, 0xf40e3585#32, 0x106aa070#32] ++
  [0x19a4c116#32, 0x1e376c08#32, 0x2748774c#32, 0x34b0bcb5#32, 0x391c0cb3#32, 0x4ed8aa4a#32, 0x5b9cca4f#32, 0x682e6ff3#32] ++
  [0x748f82ee#32, 0x78a5636f#32, 0x84c87814#32, 0x8cc70208#32, 0x90befffa#32, 0xa4506ceb#32, 0xbef9a3f7#32, 0xc67178f2#32]

/-- The round constants `K[0..63]` (43_hash.md R191). -/
def shaK : List Word := shaKLow ++ shaKHigh

/-- `Ch` (43_hash.md R192). -/
def shaCh (e f g : Word) : Word := (e &&& f) ^^^ (~~~e &&& g)
/-- `Maj` (43_hash.md R192). -/
def shaMaj (a b c : Word) : Word := (a &&& b) ^^^ (a &&& c) ^^^ (b &&& c)
/-- `Σ0` (43_hash.md R192). -/
def shaBigSigma0 (a : Word) : Word := a.rotateRight 2 ^^^ a.rotateRight 13 ^^^ a.rotateRight 22
/-- `Σ1` (43_hash.md R192). -/
def shaBigSigma1 (e : Word) : Word := e.rotateRight 6 ^^^ e.rotateRight 11 ^^^ e.rotateRight 25
/-- `σ0` (43_hash.md R192). -/
def shaSmallSigma0 (w : Word) : Word := w.rotateRight 7 ^^^ w.rotateRight 18 ^^^ (w >>> 3)
/-- `σ1` (43_hash.md R192). -/
def shaSmallSigma1 (w : Word) : Word := w.rotateRight 17 ^^^ w.rotateRight 19 ^^^ (w >>> 10)

/-- Byte `i` of a block. -/
def byteAt (bs : List Byte) (i : Nat) : Byte := bs.getD i 0#8

/-- Word `t` of a block, `t < 16`: four bytes, the first most significant (43_hash.md R193). -/
def blockWord (bs : List Byte) (t : Nat) : Word :=
  byteAt bs (4 * t) ++ byteAt bs (4 * t + 1) ++ byteAt bs (4 * t + 2) ++ byteAt bs (4 * t + 3)

/-- Word `w[t]` of the schedule from the words before it, the latest first (43_hash.md R193). -/
def nextScheduleWord (ws : List Word) : Word :=
  shaSmallSigma1 (ws.getD 1 0#32) + ws.getD 6 0#32 + shaSmallSigma0 (ws.getD 14 0#32) + ws.getD 15 0#32

/-- The schedule words, the latest first, with `n` more appended. -/
def extendSchedule : Nat → List Word → List Word
  | 0, ws => ws
  | n + 1, ws => extendSchedule n (nextScheduleWord ws :: ws)

/-- The message schedule `w[0..63]` of a block (43_hash.md R193). -/
def schedule (bs : List Byte) : List Word :=
  (extendSchedule 48 ((List.range 16).map (blockWord bs)).reverse).reverse

/-- The eight working variables (43_hash.md R194). -/
structure ShaWork where
  a : Word
  b : Word
  c : Word
  d : Word
  e : Word
  f : Word
  g : Word
  h : Word
deriving DecidableEq, Repr

/-- One round, with `K[t]` and `w[t]` (43_hash.md R194). -/
def shaRound (v : ShaWork) (kw : Word × Word) : ShaWork :=
  let t1 := v.h + shaBigSigma1 v.e + shaCh v.e v.f v.g + kw.1 + kw.2
  let t2 := shaBigSigma0 v.a + shaMaj v.a v.b v.c
  ⟨t1 + t2, v.a, v.b, v.c, v.d + t1, v.e, v.f, v.g⟩

/-- The working variables a compression starts from (43_hash.md R194). -/
def shaStart (h : Vector Word 8) : ShaWork := ⟨h[0], h[1], h[2], h[3], h[4], h[5], h[6], h[7]⟩

/-- The working variables after round 63 (43_hash.md R194). -/
def shaRounds (h : Vector Word 8) (bs : List Byte) : ShaWork :=
  (shaK.zip (schedule bs)).foldl shaRound (shaStart h)

/-- `compress(H, M)` (43_hash.md R195). -/
def compress (h : Vector Word 8) (bs : List Byte) : Vector Word 8 :=
  let v := shaRounds h bs
  #v[h[0] + v.a, h[1] + v.b, h[2] + v.c, h[3] + v.d, h[4] + v.e, h[5] + v.f, h[6] + v.g, h[7] + v.h]

/-- How many zero bytes the padding of an `n`-byte message has: the least number that makes the length
after `0x80` and the zeros `56 mod 64` (43_hash.md R196). -/
def padZeros (n : Nat) : Nat := (119 - n % 64) % 64

/-- `v` as 8 bytes, most significant byte first (43_hash.md R196). -/
def bytes64 (v : Nat) : List Byte :=
  [BitVec.ofNat 8 (v / 2 ^ 56), BitVec.ofNat 8 (v / 2 ^ 48), BitVec.ofNat 8 (v / 2 ^ 40), BitVec.ofNat 8 (v / 2 ^ 32),
   BitVec.ofNat 8 (v / 2 ^ 24), BitVec.ofNat 8 (v / 2 ^ 16), BitVec.ofNat 8 (v / 2 ^ 8), BitVec.ofNat 8 v]

/-- `pad(m)` (43_hash.md R196). -/
def pad (m : List Byte) : List Byte :=
  m ++ 0x80#8 :: (List.replicate (padZeros m.length) 0#8 ++ bytes64 (8 * m.length))

/-- The chaining state after `n` blocks of `bs`, in order (43_hash.md R197). -/
def hashBlocks : Nat → Vector Word 8 → List Byte → Vector Word 8
  | 0, h, _ => h
  | n + 1, h, bs => hashBlocks n (compress h (bs.take 64)) (bs.drop 64)

/-- `sha256(m)`, the final state words (43_hash.md R197). -/
def sha256 (m : List Byte) : Vector Word 8 := hashBlocks ((pad m).length / 64) shaIV (pad m)

/-- The four bytes of a word, most significant byte first (43_hash.md R197). -/
def bigEndianBytes (w : Word) : List Byte :=
  [w.extractLsb' 24 8, w.extractLsb' 16 8, w.extractLsb' 8 8, w.extractLsb' 0 8]

/-- `digest(H)`, 32 bytes (43_hash.md R197). -/
def digest (h : Vector Word 8) : List Byte := h.toList.flatMap bigEndianBytes

/-- `zint(H)`, the digest as a big-endian integer (43_hash.md R198). -/
def zint (h : Vector Word 8) : Nat := h.toList.foldl (fun z w => z * 2 ^ 32 + w.toNat) 0

/-- `SHAINIT` (43_hash.md R199). -/
def execShainit (s : State) : Result := .next (complete (s.writeHash shaIV))

/-- `SHABLK #i` (43_hash.md R200). -/
def execShablk (imm8 : BitVec 8) (s : State) : Result :=
  if 64 * imm8.toNat + 64 > Config.msgBytes then .next (takeError .malformedInput s)
  else .next (complete (s.writeHash (compress s.shaH (s.messageBlock imm8.toNat))))

/-- `SHAHASH bD` (43_hash.md R201). -/
def execShahash (fd : BReg) (s : State) : Result :=
  if s.msgLen.toNat > Config.msgBytes then .next (takeError .malformedInput s)
  else
    let h := sha256 s.message
    .next (complete ((s.writeHash h).writeBig fd (zint h)))

end Sys2Proof.Machine
end

