-- ==== Sys2Proof/Machine/Signature.lean ====
section
/-! DEFINITION. The ECDSA-style signer and verifier (44_signature.md). -/

namespace Sys2Proof.Machine

/-- What the signer and the verifier read of the curve registers (10_state.md R28). -/
structure CurveValues where
  p : Nat
  a : Nat
  n : Nat
  g : Point
deriving DecidableEq, Repr

/-- The curve of a state (10_state.md R28). -/
def State.curveValues (s : State) : CurveValues := ⟨s.curveP, s.curveA, s.curveN, s.curveG⟩

/-- The first error of the checks both commands make, in their order (44_signature.md R220). -/
def signatureCheck (s : State) : Option ErrCode :=
  if s.msgLen.toNat > Config.msgBytes then some .malformedInput
  else if s.curveP < 2 ∨ s.curveN < 2 then some .malformedInput
  else none

/-- `z`, the digest of the message as a full 256-bit integer (44_signature.md R220). -/
def State.messageZ (s : State) : Nat := zint (sha256 s.message)

/-- One attempt of `sign_loop` with the nonce `k` (44_signature.md R223): the signature, or nothing when the
attempt is degenerate (R224), or the error that ends the command. -/
def signAttempt (c : CurveValues) (z d k : Nat) : Except ErrCode (Option (Nat × Nat)) :=
  match pmul c.p c.a c.g k with
  | .error e => .error e
  | .ok .infinity => .ok none
  | .ok (.finite x _) =>
    let r := x % c.n
    if r = 0 then .ok none
    else
      match inv (k : Int) c.n with
      | .error e => .error e
      | .ok kinv =>
        let s := kinv * (z + r * d) % c.n
        if s = 0 then .ok none else .ok (some (r, s))

/-- `sign_loop` with `n` attempts left (44_signature.md R223): the outcome, and the state with the draws
made. -/
def signLoop (c : CurveValues) (z d : Nat) : Nat → State → Except ErrCode (Nat × Nat) × State
  | 0, s => (.error .degenerateSignature, s)
  | n + 1, s =>
    let ks := keydraw c.n s
    match signAttempt c z d ks.1 with
    | .error e => (.error e, ks.2)
    | .ok none => signLoop c z d n ks.2
    | .ok (some rs) => (.ok rs, ks.2)

/-- `SIGN bD, bB, bA` (44_signature.md R222).  `FD = FB` is no command and ends as the illegal word it would
be (30_encoding.md R107, R108). -/
def execSign (fd fa fb : BReg) (s : State) : Result :=
  if fd = fb then .next (takeError .illegalCommand s)
  else
    match signatureCheck s with
    | some e => .next (takeError e s)
    | none =>
      let rs := signLoop s.curveValues s.messageZ (s.readBig fa) Config.signMaxAttempts s
      conclude rs.1 (fun v t => (t.writeBig fd v.1).writeBig fb v.2) rs.2

/-- Step 5 of verification (44_signature.md R225): whether the combined point has `r` as its abscissa
modulo `n`. -/
def matchesR (n r : Nat) : Point → Bool
  | .infinity => false
  | .finite x _ => decide (x % n = r)

/-- `VERIFY` on values after its first checks (44_signature.md R225, R227). -/
def verifySignature (c : CurveValues) (z r s : Nat) (q : Point) : Except ErrCode Bool :=
  if r < 1 ∨ r > c.n - 1 ∨ s < 1 ∨ s > c.n - 1 then .error .degenerateSignature
  else
    match inv (s : Int) c.n with
    | .error e => .error e
    | .ok w =>
      match pmul c.p c.a c.g (z * w % c.n) with
      | .error e => .error e
      | .ok x1 =>
        match pmul c.p c.a q (r * w % c.n) with
        | .error e => .error e
        | .ok x2 =>
          match padd c.p c.a x1 x2 with
          | .error e => .error e
          | .ok x => .ok (matchesR c.n r x)

/-- `VERIFY bA, bB, pC` (44_signature.md R225). -/
def execVerify (fa fb : BReg) (fc : PReg) (s : State) : Result :=
  match signatureCheck s with
  | some e => .next (takeError e s)
  | none =>
    conclude (verifySignature s.curveValues s.messageZ (s.readBig fa) (s.readBig fb) (s.readPoint fc))
      (fun v t => t.writeValid v) s

end Sys2Proof.Machine
end

