-- ==== Sys2Proof/Machine/Cipher.lean ====
section
/-! DEFINITION. The ECIES-style keystream and XOR cipher (45_cipher.md). -/

namespace Sys2Proof.Machine

/-- The base-16 digits of `x`, most significant first, without leading zeros, in front of `ds`; `fuel`
bounds the digits. -/
def hexDigits : Nat → Nat → List Nat → List Nat
  | 0, _, ds => ds
  | fuel + 1, x, ds => if x < 16 then x :: ds else hexDigits fuel (x / 16) (x % 16 :: ds)

/-- The ASCII byte of a digit (45_cipher.md R240). -/
def hexByte (hc : Config.HexCase) (d : Nat) : Byte :=
  if d < 10 then BitVec.ofNat 8 (0x30 + d)
  else
    match hc with
    | .lower => BitVec.ofNat 8 (0x61 + (d - 10))
    | .upper => BitVec.ofNat 8 (0x41 + (d - 10))

/-- `hextext(x)` (45_cipher.md R240). -/
def hextext (hc : Config.HexCase) (x : Nat) : List Byte := (hexDigits (bitlen x + 1) x []).map (hexByte hc)

/-- `keystream(x, L)`, the text repeated or truncated to `L` bytes (45_cipher.md R240). -/
def keystream (hc : Config.HexCase) (x n : Nat) : List Byte :=
  (List.range n).map fun i => (hextext hc x).getD (i % (hextext hc x).length) 0#8

/-- The XOR step (45_cipher.md R241). -/
def xorBytes (ms ks : List Byte) : List Byte := List.zipWith (fun m k => m ^^^ k) ms ks

/-- The bytes `ENCRYPT` and `DECRYPT` write to `OUT` for the shared secret `x` (45_cipher.md R242, R243). -/
def cipherBytes (hc : Config.HexCase) (x : Nat) (ms : List Byte) : List Byte :=
  xorBytes ms (keystream hc x ms.length)

/-- The shared secret: the abscissa of `k` times `P`, or `INFINITY_POINT` (45_cipher.md R244). -/
def sharedSecret (p a : Nat) (P : Point) (k : Nat) : Except ErrCode Nat :=
  match pmul p a P k with
  | .error e => .error e
  | .ok .infinity => .error .infinityPoint
  | .ok (.finite x _) => .ok x

/-- The ephemeral point and the shared secret of `ENCRYPT` (45_cipher.md R242). -/
def encryptPoints (p a : Nat) (g q : Point) (k : Nat) : Except ErrCode (Point × Nat) :=
  match pmul p a g k with
  | .error e => .error e
  | .ok r =>
    match sharedSecret p a q k with
    | .error e => .error e
    | .ok x => .ok (r, x)

/-- `ENCRYPT pD, pA` (45_cipher.md R242). -/
def execEncrypt (fd fa : PReg) (s : State) : Result :=
  if s.msgLen.toNat > Config.msgBytes then .next (takeError .malformedInput s)
  else if s.curveP < 2 ∨ s.curveN < 2 then .next (takeError .malformedInput s)
  else
    let ks := keydraw s.curveN s
    conclude (encryptPoints s.curveP s.curveA s.curveG (s.readPoint fa) ks.1)
      (fun rx t => (t.writeOut (cipherBytes Config.ksHexCase rx.2 s.message)).writePoint fd rx.1) ks.2

/-- `DECRYPT bA, pB` (45_cipher.md R243). -/
def execDecrypt (fa : BReg) (fb : PReg) (s : State) : Result :=
  if s.msgLen.toNat > Config.msgBytes then .next (takeError .malformedInput s)
  else if s.curveP < 2 then .next (takeError .malformedInput s)
  else
    conclude (sharedSecret s.curveP s.curveA (s.readPoint fb) (s.readBig fa))
      (fun x t => t.writeOut (cipherBytes Config.ksHexCase x s.message)) s

end Sys2Proof.Machine
end

