-- ==== Sys2Proof/Machine/System.lean ====
section
/-! DEFINITION. The command with no operation (46_system.md). -/

namespace Sys2Proof.Machine

/-- `NOP` (46_system.md R260): completes like every command and does nothing else. -/
def execNop (s : State) : Result := .next (complete s)

end Sys2Proof.Machine
end

