-- ==== Sys2Proof/Machine/Dispatch.lean ====
section
/-! DEFINITION. The dispatch of a decoded command to its meaning, one arm per constructor of `Instr`. -/

namespace Sys2Proof.Machine

def exec (i : Instr) (s : State) : Host.Outcome State Fault Refusal :=
  match i with
  | .nop => Sys2Proof.Machine.execNop s
  | .modred fd fa fc => Sys2Proof.Machine.execModred fd fa fc s
  | .modadd fd fa fb fc => Sys2Proof.Machine.execModadd fd fa fb fc s
  | .modsub fd fa fb fc => Sys2Proof.Machine.execModsub fd fa fb fc s
  | .modmul fd fa fb fc => Sys2Proof.Machine.execModmul fd fa fb fc s
  | .montmul fd fa fb fc => Sys2Proof.Machine.execMontmul fd fa fb fc s
  | .montr2 fd fc => Sys2Proof.Machine.execMontr2 fd fc s
  | .modinv fd fa fc => Sys2Proof.Machine.execModinv fd fa fc s
  | .padd fd fa fb => Sys2Proof.Machine.execPadd fd fa fb s
  | .pdbl fd fa => Sys2Proof.Machine.execPdbl fd fa s
  | .pmul fd fa fb => Sys2Proof.Machine.execPmul fd fa fb s
  | .keygen fd => Sys2Proof.Machine.execKeygen fd s
  | .pubkey fd fa => Sys2Proof.Machine.execPubkey fd fa s
  | .shainit => Sys2Proof.Machine.execShainit s
  | .shablk imm8 => Sys2Proof.Machine.execShablk imm8 s
  | .shahash fd => Sys2Proof.Machine.execShahash fd s
  | .sign fd fa fb => Sys2Proof.Machine.execSign fd fa fb s
  | .verify fa fb fc => Sys2Proof.Machine.execVerify fa fb fc s
  | .encrypt fd fa => Sys2Proof.Machine.execEncrypt fd fa s
  | .decrypt fa fb => Sys2Proof.Machine.execDecrypt fa fb s

end Sys2Proof.Machine
end

