-- ==== Sys2Proof/Machine/HostAccess.lean ====
section
/-! DEFINITION. The host's side of the block (20_memory.md): the register map, what a 32-bit read returns and
what a 32-bit write does, idle and busy. -/

namespace Sys2Proof.Machine

/-- The six curve registers, in the order of the map (20_memory.md R64). -/
inductive CurveReg where
  | p | a | b | n | gx | gy
deriving DecidableEq, Repr

/-- The rows of the register map (20_memory.md R61), one constructor per name. -/
inductive Loc where
  | id
  | param
  | ctrl
  | status
  | cmd
  | msgLen
  | pinf
  | seedLo
  | seedHi
  | rngCtrLo
  | rngCtrHi
  | shaH (i : Fin 8)
  | bigWord (i : BReg) (j : Fin 16)
  | pointX (k : PReg) (j : Fin 16)
  | pointY (k : PReg) (j : Fin 16)
  | curveWord (c : CurveReg) (j : Fin 16)
  | msgWord (m : Fin 1024)
  | outWord (m : Fin 1024)
  | reserved
deriving DecidableEq, Repr

/-- The curve register of 64-byte slot `i` above `0x0C00` (20_memory.md R64). -/
def curveRegAt (i : Nat) : CurveReg :=
  match i with
  | 0 => .p
  | 1 => .a
  | 2 => .b
  | 3 => .n
  | 4 => .gx
  | _ => .gy

/-- The 64-byte slot of a curve register above `0x0C00` (20_memory.md R64). -/
def curveRegSlot : CurveReg → Nat
  | .p => 0
  | .a => 1
  | .b => 2
  | .n => 3
  | .gx => 4
  | .gy => 5

/-- The control registers, offsets `0x0000` to `0x003F` (20_memory.md R61). -/
def locateControl (off : Nat) : Loc :=
  match off with
  | 0x00 => .id
  | 0x04 => .param
  | 0x08 => .ctrl
  | 0x0C => .status
  | 0x10 => .cmd
  | 0x14 => .msgLen
  | 0x18 => .pinf
  | 0x20 => .seedLo
  | 0x24 => .seedHi
  | 0x28 => .rngCtrLo
  | 0x2C => .rngCtrHi
  | _ => .reserved

/-- What stands at a byte offset of the window that is a multiple of 4 (20_memory.md R61). -/
def locate (off : Nat) : Loc :=
  if off < 0x0040 then locateControl off
  else if off < 0x0060 then .shaH (Fin.ofNat 8 ((off - 0x0040) / 4))
  else if off < 0x0400 then .reserved
  else if off < 0x0800 then
    .bigWord (Fin.ofNat 16 ((off - 0x0400) / 0x40)) (Fin.ofNat 16 ((off - 0x0400) % 0x40 / 4))
  else if off < 0x0C00 then
    if (off - 0x0800) % 0x80 < 0x40 then
      .pointX (Fin.ofNat 8 ((off - 0x0800) / 0x80)) (Fin.ofNat 16 ((off - 0x0800) % 0x40 / 4))
    else .pointY (Fin.ofNat 8 ((off - 0x0800) / 0x80)) (Fin.ofNat 16 ((off - 0x0800) % 0x40 / 4))
  else if off < 0x0D80 then
    .curveWord (curveRegAt ((off - 0x0C00) / 0x40)) (Fin.ofNat 16 ((off - 0x0C00) % 0x40 / 4))
  else if off < 0x1000 then .reserved
  else if off < 0x2000 then .msgWord (Fin.ofNat 1024 ((off - 0x1000) / 4))
  else if off < 0x3000 then .outWord (Fin.ofNat 1024 ((off - 0x2000) / 4))
  else .reserved

/-- The byte offset of a row of the map (20_memory.md R61 to R65); for reserved space, the first reserved
offset. -/
def offsetOf : Loc → Nat
  | .id => 0x0000
  | .param => 0x0004
  | .ctrl => 0x0008
  | .status => 0x000C
  | .cmd => 0x0010
  | .msgLen => 0x0014
  | .pinf => 0x0018
  | .seedLo => 0x0020
  | .seedHi => 0x0024
  | .rngCtrLo => 0x0028
  | .rngCtrHi => 0x002C
  | .shaH i => 0x0040 + 4 * i.val
  | .bigWord i j => 0x0400 + 0x40 * i.val + 4 * j.val
  | .pointX k j => 0x0800 + 0x80 * k.val + 4 * j.val
  | .pointY k j => 0x0840 + 0x80 * k.val + 4 * j.val
  | .curveWord c j => 0x0C00 + 0x40 * curveRegSlot c + 4 * j.val
  | .msgWord m => 0x1000 + 4 * m.val
  | .outWord m => 0x2000 + 4 * m.val
  | .reserved => 0x001C

/-- A curve register (10_state.md R27). -/
def getCurveReg (cr : CurveRegs) : CurveReg → BigWord
  | .p => cr.p
  | .a => cr.a
  | .b => cr.b
  | .n => cr.n
  | .gx => cr.gx
  | .gy => cr.gy

/-- The curve registers with one replaced. -/
def setCurveReg (cr : CurveRegs) (c : CurveReg) (v : BigWord) : CurveRegs :=
  match c with
  | .p => { cr with p := v }
  | .a => { cr with a := v }
  | .b => { cr with b := v }
  | .n => { cr with n := v }
  | .gx => { cr with gx := v }
  | .gy => { cr with gy := v }

/-- The constant of `PARAM`: `W` in bits 15:0, `MSG_BYTES` in bits 31:16 (10_state.md R39). -/
def paramValue : Word := BitVec.ofNat 16 Config.msgBytes ++ BitVec.ofNat 16 Config.W

/-- The value of a location (20_memory.md R61 to R67); reserved space reads 0. -/
def readLoc (s : State) : Loc → Word
  | .id => Config.idValue
  | .param => paramValue
  | .ctrl => s.ctrl.word
  | .status => s.statusWord
  | .cmd => s.cmd
  | .msgLen => s.msgLen
  | .pinf => 0#24 ++ s.pinf
  | .seedLo => s.seed.extractLsb' 0 32
  | .seedHi => s.seed.extractLsb' 32 32
  | .rngCtrLo => s.rngCtr.extractLsb' 0 32
  | .rngCtrHi => s.rngCtr.extractLsb' 32 32
  | .shaH i => s.shaH[i.val]
  | .bigWord i j => getWord (s.big[i.val]) j
  | .pointX k j => getWord (s.point[k.val]).x j
  | .pointY k j => getWord (s.point[k.val]).y j
  | .curveWord c j => getWord (getCurveReg s.curve c) j
  | .msgWord m => Memory.readWord s.msg (4 * m.val)
  | .outWord m => Memory.readWord s.out (4 * m.val)
  | .reserved => 0#32

/-- State that a command can write: a read of it while busy returns any value (70_reset_and_hazards.md
R312). -/
def engineWritten : Loc → Bool
  | .id => false
  | .param => false
  | .ctrl => false
  | .status => false
  | .cmd => false
  | .msgLen => false
  | .pinf => true
  | .seedLo => false
  | .seedHi => false
  | .rngCtrLo => true
  | .rngCtrHi => true
  | .shaH _ => true
  | .bigWord _ _ => true
  | .pointX _ _ => true
  | .pointY _ _ => true
  | .curveWord _ _ => false
  | .msgWord _ => false
  | .outWord _ => true
  | .reserved => false

/-- The locations a host write reaches while busy (70_reset_and_hazards.md R311). -/
def writableWhileBusy : Loc → Bool
  | .ctrl => true
  | .status => true
  | .cmd => true
  | .id => false
  | .param => false
  | .msgLen => false
  | .pinf => false
  | .seedLo => false
  | .seedHi => false
  | .rngCtrLo => false
  | .rngCtrHi => false
  | .shaH _ => false
  | .bigWord _ _ => false
  | .pointX _ _ => false
  | .pointY _ _ => false
  | .curveWord _ _ => false
  | .msgWord _ => false
  | .outWord _ => false
  | .reserved => false

/-- A write of `c` to `CMD`: accepted when idle, an overrun when busy (60_exceptions.md R270, R271). -/
def offerCommand (c : Word) (s : State) : State :=
  match s.engine with
  | .idle => accept c s
  | .busy _ => overrun s

/-- A write of `v` to `CTRL`: with bit 1 set a soft reset, whatever bit 0 is, else `IE` (10_state.md R35,
70_reset_and_hazards.md R302). -/
def writeCtrl (v : Word) (s : State) : State :=
  if ctrlResetBit v then resetBlock s else { s with ctrl := ⟨ctrlIeBit v⟩ }

/-- `SEED <- v`, which sets `RNG_CTR` to 0 (10_state.md R37). -/
def writeSeed (v : BitVec 64) (s : State) : State := { s with seed := v, rngCtr := 0#64 }

/-- A write of `v` to a location (20_memory.md R61 to R67); read-only and reserved ones ignore it. -/
def writeLoc (v : Word) (s : State) : Loc → State
  | .id => s
  | .param => s
  | .ctrl => writeCtrl v s
  | .status => { s with status := s.status.clearWritten v }
  | .cmd => offerCommand v s
  | .msgLen => { s with msgLen := v }
  | .pinf => { s with pinf := v.extractLsb' 0 8 }
  | .seedLo => writeSeed (s.seed.extractLsb' 32 32 ++ v) s
  | .seedHi => writeSeed (v ++ s.seed.extractLsb' 0 32) s
  | .rngCtrLo => s
  | .rngCtrHi => s
  | .shaH i => { s with shaH := s.shaH.set i.val v i.isLt }
  | .bigWord i j => { s with big := s.big.set i.val (putWord (s.big[i.val]) j v) i.isLt }
  | .pointX k j =>
    { s with point := s.point.set k.val { s.point[k.val] with x := putWord (s.point[k.val]).x j v } k.isLt }
  | .pointY k j =>
    { s with point := s.point.set k.val { s.point[k.val] with y := putWord (s.point[k.val]).y j v } k.isLt }
  | .curveWord c j => { s with curve := setCurveReg s.curve c (putWord (getCurveReg s.curve c) j v) }
  | .msgWord m => { s with msg := Memory.writeWord s.msg (4 * m.val) v }
  | .outWord _ => s
  | .reserved => s

/-- An access of `width` bytes at `off` that answers `r` where it is defined: outside the window no such
address exists (20_memory.md R60), and another width or a misaligned offset is refused (R66). -/
def checkedAccess (off width : Nat) (r : Result) : Result :=
  if Config.windowBytes ≤ off then .fault .outsideWindow
  else if width ≠ 4 ∨ off % 4 ≠ 0 then .refused .undefinedAccess
  else r

/-- The state with `v` returned to the host. -/
def returnWord (v : Word) (s : State) : State := { s with reads := v :: s.reads }

/-- A host read of a location: its value, or a free value where R312 of 70_reset_and_hazards.md says any
value. -/
def readHost (l : Loc) (s : State) : State :=
  if s.isBusy && engineWritten l then
    { returnWord (Config.busyRead s.freeCtr) s with freeCtr := s.freeCtr + 1 }
  else returnWord (readLoc s l) s

/-- A host write to a location: ignored while busy but for `CTRL`, `STATUS` and `CMD`
(70_reset_and_hazards.md R311). -/
def writeHost (l : Loc) (v : Word) (s : State) : State :=
  if s.isBusy && !writableWhileBusy l then s else writeLoc v s l

/-- `MemRead(BASE + off, width)` (20_memory.md R69, R70). -/
def hostRead (off width : Nat) (s : State) : Result :=
  checkedAccess off width (.next (readHost (locate off) s))

/-- `MemWrite(BASE + off, width, v)` (20_memory.md R69 to R71). -/
def hostWrite (off width : Nat) (v : Word) (s : State) : Result :=
  checkedAccess off width (.next (writeHost (locate off) v s))

/-- The bus address of an offset of the window (20_memory.md R60). -/
def busAddress (off : Nat) : Nat := Config.base + off

/-- The offset a bus address has in the window; below `BASE` it is one outside the window (20_memory.md
R60). -/
def windowOffset (addr : Nat) : Nat := if Config.base ≤ addr then addr - Config.base else Config.windowBytes

/-- `MemRead(addr, width)` at a bus address (00_scope.md R10). -/
def memRead (addr width : Nat) : BusEvent := .read (windowOffset addr) width

/-- `MemWrite(addr, width, v)` at a bus address (00_scope.md R10). -/
def memWrite (addr width : Nat) (v : Word) : BusEvent := .write (windowOffset addr) width v

end Sys2Proof.Machine
end

