-- ==== Sys2Proof/Machine/Engine.lean ====
section
/-! DEFINITION. The engine's step and the effect of each event (60_exceptions.md R274, 00_scope.md R5). -/

namespace Sys2Proof.Machine

/-- The engine performs the command word `c`: decoding, then the command's rule; a word that is no command
ends in `ILLEGAL_COMMAND` (60_exceptions.md R273, R274; 30_encoding.md R108). -/
def performCommand (c : Word) (s : State) : Result :=
  match decode c with
  | .ok i => exec i s
  | .error _ => .next (takeError .illegalCommand s)

/-- The engine's turn: it performs the accepted command, and has nothing to do when idle (60_exceptions.md
R274). -/
def engineStep (s : State) : Result :=
  match s.engine with
  | .idle => .next s
  | .busy c => performCommand c s

/-- What one event does to the block. -/
def applyEvent (e : BusEvent) (s : State) : Result :=
  match e with
  | .read off width => hostRead off width s
  | .write off width v => hostWrite off width v s
  | .engine => engineStep s
  | .rst => .next (resetBlock s)

/-- The state with its next event taken from the list. -/
def dropEvent (s : State) : State := { s with bus := s.bus.tail }

/-- The command word of an instruction of `nbits` bits whose value is `w` (30_encoding.md R100). -/
def tableWord (nbits w : Nat) : Word := BitVec.ofNat 32 (w % 2 ^ nbits)

/-- The state in which the command word `c` has just been accepted and the engine's turn is the next event:
what a host's write of `c` to `CMD` while idle brings about (60_exceptions.md R270). -/
def placeCommand (c : Word) (s : State) : State := { accept c s with bus := .engine :: s.bus }

end Sys2Proof.Machine
end

