-- ==== Sys2Proof/Machine/Step.lean ====
section
/-! DEFINITION. The step of the block, and the state in which a given instruction is the next to run. -/

namespace Sys2Proof.Machine

/-- One step: the next event of the list takes effect; when no event is left, the engine takes its turn, so
that an accepted command is always performed (70_reset_and_hazards.md R317). -/
def step (s : State) : Host.Outcome State Fault Refusal :=
  match s.bus with
  | [] => engineStep s
  | e :: _ => applyEvent e (dropEvent s)

/-- `s` with the instruction of `nbits` bits and value `w` as the command the next step performs.  The block
fetches nothing (10_state.md R21): the command word is the accepted one the engine holds (R42). -/
def State.withFetchWord (s : State) (nbits w : Nat) : State := placeCommand (tableWord nbits w) s

end Sys2Proof.Machine
end

