-- ==== Sys2Proof/Machine/HostProgram.lean ====
section
/-! DEFINITION. The host operations in which the spec writes its programs (30_encoding.md R111), as lists of
events. -/

namespace Sys2Proof.Machine

/-- `WR name, value`: one word write. -/
def hostWr (l : Loc) (v : Word) : List BusEvent := [.write (offsetOf l) 4 v]

/-- `RD name`: one word read. -/
def hostRd (l : Loc) : List BusEvent := [.read (offsetOf l) 4]

/-- Word `j` of a value. -/
def valueWord (v j : Nat) : Word := BitVec.ofNat 32 (v / 2 ^ (32 * j))

/-- The sixteen word writes that load a `W`-bit register whose words are at `l`; those above `W` are
ignored (10_state.md R23). -/
def hostWrWide (l : Fin 16 → Loc) (v : Nat) : List BusEvent :=
  (List.finRange 16).flatMap fun j => hostWr (l j) (valueWord v j.val)

/-- `WRB bi, value`. -/
def hostWrB (i : BReg) (v : Nat) : List BusEvent := hostWrWide (.bigWord i) v

/-- `WRP pk, (x, y) | INF`; `tags` is what `PINF` holds before, since one write replaces all eight tags
(log entry 14).  DESIGN CHOICE: `WRP pk, INF` writes `PINF` alone and leaves `X` and `Y`, for which 30_encoding.md R111 and
20_memory.md R63 give no values and which an `Infinity` ignores (10_state.md R25; log entry 14). -/
def hostWrP (k : PReg) (q : Point) (tags : BitVec 8) : List BusEvent :=
  match q with
  | .infinity => hostWr .pinf (0#24 ++ setTag tags k true)
  | .finite x y => hostWrWide (.pointX k) x ++ hostWrWide (.pointY k) y ++ hostWr .pinf (0#24 ++ setTag tags k false)

/-- `WRCURVE p, a, b, n, gx, gy`. -/
def hostWrCurve (p a b n gx gy : Nat) : List BusEvent :=
  hostWrWide (.curveWord .p) p ++ hostWrWide (.curveWord .a) a ++ hostWrWide (.curveWord .b) b ++
    hostWrWide (.curveWord .n) n ++ hostWrWide (.curveWord .gx) gx ++ hostWrWide (.curveWord .gy) gy

/-- The word writes of a byte string from word `m` up; the last word is filled with zero bytes (log entry
14).  DESIGN CHOICE: 30_encoding.md R111 says nothing of a string longer than the `MSG_BYTES = 4096` bytes of `MSG`; the
word index is taken modulo 1024, so that its bytes from 4096 up are written over `MSG` from byte 0 again (log entry 14). -/
def hostWrBytes : Nat → List Byte → List BusEvent
  | _, [] => []
  | m, [b0] => hostWr (.msgWord (Fin.ofNat 1024 m)) (0#24 ++ b0)
  | m, [b0, b1] => hostWr (.msgWord (Fin.ofNat 1024 m)) (0#16 ++ b1 ++ b0)
  | m, [b0, b1, b2] => hostWr (.msgWord (Fin.ofNat 1024 m)) (0#8 ++ b2 ++ b1 ++ b0)
  | m, b0 :: b1 :: b2 :: b3 :: rest => hostWr (.msgWord (Fin.ofNat 1024 m)) (b3 ++ b2 ++ b1 ++ b0) ++ hostWrBytes (m + 1) rest

/-- `WRMSG "bytes"`: `MSG` from byte 0, then `MSG_LEN`, which is the length of the whole string also where that is more
than `MSG_BYTES` (log entry 14). -/
def hostWrMsg (bs : List Byte) : List BusEvent :=
  hostWrBytes 0 bs ++ hostWr .msgLen (BitVec.ofNat 32 bs.length)

/-- `RUN command`: the word to `CMD`, the engine's turn, the read of `STATUS` that finds `BUSY = 0`, and
`0x2` to `STATUS` to clear `DONE`. -/
def hostRun (i : Instr) : List BusEvent :=
  hostWr .cmd (encode i) ++ [.engine] ++ hostRd .status ++ hostWr .status 0x2#32

end Sys2Proof.Machine
end

