-- ==== Sys2Proof/Safety.lean ====
section
/-! DEFINITION. The terms the statements use: the invariant of the block, what a command leaves unchanged, how a
command ends, and the match and mask columns of the opcode table. -/

namespace Sys2Proof.Machine

/-- The invariant of the block.  Both buffers are in canonical form; while a command is in progress `CMD` holds
it and `DONE`, `VALID` and `ERRCODE` are clear (60_exceptions.md R270); `VALID` and an error code never stand
together (R276). -/
def StateInv (s : State) : Prop :=
  s.msg.wf = true ∧ s.out.wf = true ∧
    (∀ c, s.engine = .busy c →
      s.cmd = c ∧ s.status.done = false ∧ s.status.valid = false ∧ s.status.errcode = .none) ∧
    (s.status.valid = true → s.status.errcode = .none)

/-- The frame of a command: from `s` to `t` every big register but those of `bigs`, every point register with
its tag but those of `points`, the hash state unless `hash`, every byte of `OUT` from `outLen` up, every byte of
`MSG`, the curve, `MSG_LEN`, `CTRL`, `SEED` and `CMD` are unchanged, and so is what the model itself adds.
`STATUS`, the engine and `RNG_CTR` are not spoken of. -/
def Frame (bigs : List BReg) (points : List PReg) (hash : Bool) (outLen : Nat) (s t : State) : Prop :=
  (∀ r, r ∉ bigs → t.readBig r = s.readBig r) ∧
    (∀ j, j ∉ points → t.point[j.val] = s.point[j.val] ∧ t.pinf[j.val] = s.pinf[j.val]) ∧
    (hash = false → t.shaH = s.shaH) ∧
    (∀ i, outLen ≤ i → t.out.read i = s.out.read i) ∧
    (∀ i, t.msg.read i = s.msg.read i) ∧
    t.curve = s.curve ∧ t.msgLen = s.msgLen ∧ t.ctrl = s.ctrl ∧ t.seed = s.seed ∧ t.cmd = s.cmd ∧
    t.bus = s.bus ∧ t.reads = s.reads ∧ t.freeCtr = s.freeCtr

/-- A command that is not `VERIFY` has completed without error: `BUSY` 0, `DONE` 1, `ERRCODE` 0, `VALID` and
`OVERRUN` as before (60_exceptions.md R274, R275). -/
def Succeeded (s t : State) : Prop :=
  t.engine = .idle ∧ t.status = ⟨true, s.status.valid, s.status.overrun, .none⟩

/-- The state a command that ends in the error `e` leaves: of all the state only `BUSY`, `DONE`, `VALID` and
`ERRCODE` change, and `RNG_CTR` by the `draws` made (60_exceptions.md R274, R276). -/
def failedState (e : ErrCode) (draws : Nat) (s : State) : State :=
  { s with engine := .idle
           status := ⟨true, false, s.status.overrun, e⟩
           rngCtr := s.rngCtr + BitVec.ofNat 64 draws }

/-- The value of the draw of index `RNG_CTR + i` in `[1, n - 1]` (42_key.md R180, 10_state.md R37). -/
def nonceAt (s : State) (i : Nat) : Nat := Config.rng s.seed (s.rngCtr + BitVec.ofNat 64 i) 1 (s.curveN - 1)

/-- A point satisfies the curve equation modulo `p` (10_state.md R27). -/
def OnCurve (p a b : Nat) : Point → Prop
  | .infinity => True
  | .finite x y => (y : Int) ^ 2 ≡ (x : Int) ^ 3 + a * x + b [ZMOD p]

/-- The coordinates of a point are normalised into `[0, p-1]` (41_curve.md R166). -/
def Normalised (p : Nat) : Point → Prop
  | .infinity => True
  | .finite x y => x < p ∧ y < p

/-- The column `match` of the opcode table (95_test_vectors.md section 9.1, opcode_table.json). -/
def rowMatch : Opcode → Word
  | .nop => 0x00000000#32
  | .modred => 0x00000001#32
  | .modadd => 0x00000002#32
  | .modsub => 0x00000003#32
  | .modmul => 0x00000004#32
  | .montmul => 0x00000005#32
  | .montr2 => 0x00000006#32
  | .modinv => 0x00000007#32
  | .padd => 0x00000010#32
  | .pdbl => 0x00000011#32
  | .pmul => 0x00000012#32
  | .keygen => 0x00000020#32
  | .pubkey => 0x00000021#32
  | .shainit => 0x00000030#32
  | .shablk => 0x00000031#32
  | .shahash => 0x00000032#32
  | .sign => 0x00000040#32
  | .verify => 0x00000041#32
  | .encrypt => 0x00000050#32
  | .decrypt => 0x00000051#32

/-- The column `mask` of the opcode table (95_test_vectors.md section 9.1, opcode_table.json). -/
def rowMask : Opcode → Word
  | .nop => 0xFFFFFFFF#32
  | .modred => 0xFF0F00FF#32
  | .modadd => 0xFF0000FF#32
  | .modsub => 0xFF0000FF#32
  | .modmul => 0xFF0000FF#32
  | .montmul => 0xFF0000FF#32
  | .montr2 => 0xFF0FF0FF#32
  | .modinv => 0xFF0F00FF#32
  | .padd => 0xFFF000FF#32
  | .pdbl => 0xFFFF00FF#32
  | .pmul => 0xFFF000FF#32
  | .keygen => 0xFFFFF0FF#32
  | .pubkey => 0xFFFF00FF#32
  | .shainit => 0xFFFFFFFF#32
  | .shablk => 0x00FFFFFF#32
  | .shahash => 0xFFFFF0FF#32
  | .sign => 0xFFF000FF#32
  | .verify => 0xFF000FFF#32
  | .encrypt => 0xFFFF00FF#32
  | .decrypt => 0xFFF00FFF#32

/-- Every point-register field of a word of the row `op` is below 8 (30_encoding.md R102, R105). -/
def PointFieldsLegal (op : Opcode) (c : Word) : Prop :=
  match op with
  | .padd => (fieldFd c).toNat < 8 ∧ (fieldFa c).toNat < 8 ∧ (fieldFb c).toNat < 8
  | .pdbl => (fieldFd c).toNat < 8 ∧ (fieldFa c).toNat < 8
  | .pmul => (fieldFd c).toNat < 8 ∧ (fieldFa c).toNat < 8
  | .pubkey => (fieldFd c).toNat < 8
  | .verify => (fieldFc c).toNat < 8
  | .encrypt => (fieldFd c).toNat < 8 ∧ (fieldFa c).toNat < 8
  | .decrypt => (fieldFb c).toNat < 8
  | .nop | .modred | .modadd | .modsub | .modmul | .montmul | .montr2 | .modinv | .keygen | .shainit | .shablk
  | .shahash | .sign => True

/-- The opcode values that 30_encoding.md R106 lists as unassigned. -/
def UnassignedOpcode (v : Nat) : Prop :=
  (0x08 ≤ v ∧ v ≤ 0x0F) ∨ (0x13 ≤ v ∧ v ≤ 0x1F) ∨ (0x22 ≤ v ∧ v ≤ 0x2F) ∨ (0x33 ≤ v ∧ v ≤ 0x3F) ∨
    (0x42 ≤ v ∧ v ≤ 0x4F) ∨ (0x52 ≤ v ∧ v ≤ 0xFF)

/-- An event that is an access the spec defines: of 32 bits, aligned, inside the window (20_memory.md R60,
R66).  The engine's turn and the platform's reset are always defined. -/
def DefinedEvent : BusEvent → Prop
  | .read off width => off < 0x4000 ∧ width = 4 ∧ off % 4 = 0
  | .write off width _ => off < 0x4000 ∧ width = 4 ∧ off % 4 = 0
  | .engine => True
  | .rst => True

/-- An event that resets the block: the platform's `RST`, or a write of `CTRL` with bit 1 set
(70_reset_and_hazards.md R300). -/
def ResetEvent : BusEvent → Prop
  | .read _ _ => False
  | .write off _ v => off = 0x0008 ∧ v[1] = true
  | .engine => False
  | .rst => True

/-- The registers of `W` bits: the big registers, the coordinates of the point registers and the curve registers
(10_state.md R22, R24, R27). -/
inductive WideReg where
  | big (i : BReg)
  | pointX (k : PReg)
  | pointY (k : PReg)
  | curve (c : CurveReg)
deriving DecidableEq, Repr

/-- Word `j` of a register of `W` bits, as a location (20_memory.md R62 to R64). -/
def WideReg.word : WideReg → Fin 16 → Loc
  | .big i, j => .bigWord i j
  | .pointX k, j => .pointX k j
  | .pointY k, j => .pointY k j
  | .curve c, j => .curveWord c j

/-- What a register of `W` bits holds. -/
def WideReg.value : WideReg → State → Nat
  | .big i, s => s.readBig i
  | .pointX k, s => (s.point[k.val]).x.toNat
  | .pointY k, s => (s.point[k.val]).y.toNat
  | .curve .p, s => s.curve.p.toNat
  | .curve .a, s => s.curve.a.toNat
  | .curve .b, s => s.curve.b.toNat
  | .curve .n, s => s.curve.n.toNat
  | .curve .gx, s => s.curve.gx.toNat
  | .curve .gy, s => s.curve.gy.toNat

/-- Point register `d` of `t` has been written with `q`: it reads as `q`; an `Infinity` has set the tag and zeroed both
coordinates, a finite point has cleared the tag and stored its coordinates (10_state.md R26). -/
def PointWritten (t : State) (d : PReg) (q : Point) : Prop :=
  t.readPoint d = q ∧
    match q with
    | .infinity => t.pinf[d.val] = true ∧ t.point[d.val] = ⟨0#Config.W, 0#Config.W⟩
    | .finite x y => t.pinf[d.val] = false ∧ (t.point[d.val]).x.toNat = x ∧ (t.point[d.val]).y.toNat = y

/-- The table of 43_hash.md R191, `K[0]` first. -/
def roundConstants : List Word :=
  [0x428a2f98#32, 0x71374491#32, 0xb5c0fbcf#32, 0xe9b5dba5#32, 0x3956c25b#32, 0x59f111f1#32, 0x923f82a4#32, 0xab1c5ed5#32] ++
  [0xd807aa98#32, 0x12835b01#32, 0x243185be#32, 0x550c7dc3#32, 0x72be5d74#32, 0x80deb1fe#32, 0x9bdc06a7#32, 0xc19bf174#32] ++
  [0xe49b69c1#32, 0xefbe4786#32, 0x0fc19dc6#32, 0x240ca1cc#32, 0x2de92c6f#32, 0x4a7484aa#32, 0x5cb0a9dc#32, 0x76f988da#32] ++
  [0x983e5152#32, 0xa831c66d#32, 0xb00327c8#32, 0xbf597fc7#32, 0xc6e00bf3#32, 0xd5a79147#32, 0x06ca6351#32, 0x14292967#32] ++
  [0x27b70a85#32, 0x2e1b2138#32, 0x4d2c6dfc#32, 0x53380d13#32, 0x650a7354#32, 0x766a0abb#32, 0x81c2c92e#32, 0x92722c85#32] ++
  [0xa2bfe8a1#32, 0xa81a664b#32, 0xc24b8b70#32, 0xc76c51a3#32, 0xd192e819#32, 0xd6990624#32, 0xf40e3585#32, 0x106aa070#32] ++
  [0x19a4c116#32, 0x1e376c08#32, 0x2748774c#32, 0x34b0bcb5#32, 0x391c0cb3#32, 0x4ed8aa4a#32, 0x5b9cca4f#32, 0x682e6ff3#32] ++
  [0x748f82ee#32, 0x78a5636f#32, 0x84c87814#32, 0x8cc70208#32, 0x90befffa#32, 0xa4506ceb#32, 0xbef9a3f7#32, 0xc67178f2#32]

/-- `w[0..63]` is the message schedule of the block `bs` (43_hash.md R193, with the functions of R192 written out). -/
def IsSchedule (bs : List Byte) (w : Nat → Word) : Prop :=
  (∀ t, t < 16 →
      w t = bs.getD (4 * t) 0#8 ++ bs.getD (4 * t + 1) 0#8 ++ bs.getD (4 * t + 2) 0#8 ++ bs.getD (4 * t + 3) 0#8) ∧
    ∀ t, 16 ≤ t → t < 64 →
      w t = ((w (t - 2)).rotateRight 17 ^^^ (w (t - 2)).rotateRight 19 ^^^ w (t - 2) >>> 10) + w (t - 7) +
        ((w (t - 15)).rotateRight 7 ^^^ (w (t - 15)).rotateRight 18 ^^^ w (t - 15) >>> 3) + w (t - 16)

/-- From the working variables `u` the round of constant `k` and schedule word `w` makes `v` (43_hash.md R194, with the
functions of R192 written out). -/
def IsRound (k w : Word) (u v : ShaWork) : Prop :=
  ∃ t1 t2 : Word,
    t1 = u.h + (u.e.rotateRight 6 ^^^ u.e.rotateRight 11 ^^^ u.e.rotateRight 25) + ((u.e &&& u.f) ^^^ (~~~u.e &&& u.g)) +
      k + w ∧
    t2 = (u.a.rotateRight 2 ^^^ u.a.rotateRight 13 ^^^ u.a.rotateRight 22) +
      ((u.a &&& u.b) ^^^ (u.a &&& u.c) ^^^ (u.b &&& u.c)) ∧
    v.h = u.g ∧ v.g = u.f ∧ v.f = u.e ∧ v.e = u.d + t1 ∧ v.d = u.c ∧ v.c = u.b ∧ v.b = u.a ∧ v.a = t1 + t2

/-- The compression of the block `bs` from the chaining state `h` exists and gives `h'`: a schedule, the working
variables `v t` before round `t`, and the final addition (43_hash.md R193 to R195). -/
def Compression (h : Vector Word 8) (bs : List Byte) (h' : Vector Word 8) : Prop :=
  ∃ (w : Nat → Word) (v : Nat → ShaWork), IsSchedule bs w ∧ v 0 = ⟨h[0], h[1], h[2], h[3], h[4], h[5], h[6], h[7]⟩ ∧
    (∀ t, t < 64 → IsRound (roundConstants.getD t 0#32) (w t) (v t) (v (t + 1))) ∧
    h' = #v[h[0] + (v 64).a, h[1] + (v 64).b, h[2] + (v 64).c, h[3] + (v 64).d, h[4] + (v 64).e, h[5] + (v 64).f,
      h[6] + (v 64).g, h[7] + (v 64).h]

/-- The `n` blocks of 64 bytes of `bs`, compressed in order from the chaining state `h`, give `h'` (43_hash.md R197). -/
def HashChain (n : Nat) (h : Vector Word 8) (bs : List Byte) (h' : Vector Word 8) : Prop :=
  ∃ c : Nat → Vector Word 8, c 0 = h ∧
    (∀ i, i < n → Compression (c i) ((List.range 64).map fun j => bs.getD (64 * i + j) 0#8) (c (i + 1))) ∧ c n = h'

/-- `z` is the digest, as a big-endian integer, of the message: the `MSG_LEN` first bytes of `MSG`, padded and hashed from
the initial value (44_signature.md R220; 43_hash.md R196 to R198). -/
def MessageInteger (s : State) (z : Nat) : Prop :=
  ∃ bs : List Byte, bs.length = s.msgLen.toNat ∧ (∀ j, j < s.msgLen.toNat → bs.getD j 0#8 = s.msg.read j) ∧
    z = zint (hashBlocks ((s.msgLen.toNat + 8) / 64 + 1) shaIV (pad bs))

/-- The run of double-and-add (41_curve.md R169) over the bits of `k`, the least significant first, exists and ends in
`R`: `racc i` and `t i` are the running result and the doubling term before bit `i`, and the term is doubled after every
bit, the last included.  `Nat.size k` is the number of bits of `k` without leading zeros (00_scope.md R8). -/
def DoubleAndAdd (p a : Nat) (P : Point) (k : Nat) (R : Point) : Prop :=
  ∃ racc t : Nat → Point, racc 0 = .infinity ∧ t 0 = normalise p P ∧
    (∀ i, i < Nat.size k →
      (if k.testBit i then padd p a (racc i) (t i) else .ok (racc i)) = .ok (racc (i + 1)) ∧
        padd p a (t i) (t i) = .ok (t (i + 1))) ∧
    racc (Nat.size k) = R

end Sys2Proof.Machine
end

