-- ==== Sys2Proof/Certificates/Slice0/Obligations.lean ====
section
/-! DEFINITION. The statements about the block, each formalising rules of the spec.  `Frame`, `Succeeded` and
`failedState` are in Sys2Proof/Safety.lean.  The host's accesses, the engine's turns and the platform's reset reach
`step` as the events of `State.bus`, the model's own field (log entry 7); the words that reads return go to
`State.reads` (log entry 8). -/

open Sys2Proof Sys2Proof.Machine

/-! ### Encoding -/

/-- One word for each command decodes as the spec reads it, and the words of 95_test_vectors.md section 9.2 are
rejected for the reason it gives.  The words are those of 95_test_vectors.md, but for the three of `PADD`, `PDBL` and
`PMUL`, which stand nowhere in the spec and are written out from 30_encoding.md R101 and R105. -/
def Obligations.SpecWordsDecode : Prop :=
  decode 0x00000000#32 = .ok .nop ∧
    decode 0x00200301#32 = .ok (.modred 3 0 2) ∧
    decode 0x00210302#32 = .ok (.modadd 3 0 1 2) ∧
    decode 0x00210b03#32 = .ok (.modsub 11 0 1 2) ∧
    decode 0x00210904#32 = .ok (.modmul 9 0 1 2) ∧
    decode 0x00265705#32 = .ok (.montmul 7 5 6 2) ∧
    decode 0x00200406#32 = .ok (.montr2 4 2) ∧
    decode 0x00202c07#32 = .ok (.modinv 12 2 2) ∧
    decode 0x00032110#32 = .ok (.padd 1 2 3) ∧
    decode 0x00002111#32 = .ok (.pdbl 1 2) ∧
    decode 0x000f7612#32 = .ok (.pmul 6 7 15) ∧
    decode 0x00000020#32 = .ok (.keygen 0) ∧
    decode 0x00001021#32 = .ok (.pubkey 0 1) ∧
    decode 0x00000030#32 = .ok .shainit ∧
    decode 0x3f000031#32 = .ok (.shablk 63#8) ∧
    decode 0x00000532#32 = .ok (.shahash 5) ∧
    decode 0x00020140#32 = .ok (.sign 1 0 2) ∧
    decode 0x00041041#32 = .ok (.verify 1 4 0) ∧
    decode 0x00002350#32 = .ok (.encrypt 3 2) ∧
    decode 0x00010051#32 = .ok (.decrypt 0 1) ∧
    decode 0x00000100#32 = .error (.sbzNotZero .fd) ∧
    decode 0x00000008#32 = .error .unassignedOpcode ∧
    decode 0x01000005#32 = .error (.sbzNotZero .imm8) ∧
    decode 0x00000810#32 = .error (.pointOutOfRange .fd) ∧
    decode 0x00008350#32 = .error (.pointOutOfRange .fa) ∧
    decode 0x00010140#32 = .error .signSameRegister ∧
    decode 0x00F0F0FF#32 = .error .unassignedOpcode ∧
    decode 0xFF000031#32 = .ok (.shablk 255#8)

/-- Decoding the word of a command gives the command back, for every command and every operand. -/
def Obligations.DecodeOfEncode : Prop :=
  ∀ i : Instr, i.wellFormed = true → decode (encode i) = .ok i

/-- 30_encoding.md R106: an unassigned opcode makes the command illegal; every word is either the word of
exactly one command, or illegal. -/
def Obligations.EveryWordOneCommandOrIllegal : Prop :=
  (∀ c : Word, UnassignedOpcode (fieldOpc c).toNat → ∀ s, performCommand c s = .next (failedState .illegalCommand 0 s)) ∧
    ∀ c : Word,
      (∃ i, i.wellFormed = true ∧ encode i = c ∧ decode c = .ok i ∧
          ∀ j : Instr, j.wellFormed = true → encode j = c → j = i) ∨
        ((∀ i : Instr, i.wellFormed = true → encode i ≠ c) ∧
          ∀ s, performCommand c s = .next (failedState .illegalCommand 0 s))

/-- 30_encoding.md R105: the value of a command word,
`(IMM8 << 24) | (FC << 20) | (FB << 16) | (FA << 12) | (FD << 8) | OPC`, for each command. -/
def Obligations.CommandWordValue : Prop :=
  (encode .nop).toNat = 0 ∧
    (∀ d a m : BReg, (encode (.modred d a m)).toNat = m.val * 2 ^ 20 + a.val * 2 ^ 12 + d.val * 2 ^ 8 + 0x01) ∧
    (∀ d a b m : BReg, (encode (.modadd d a b m)).toNat =
      m.val * 2 ^ 20 + b.val * 2 ^ 16 + a.val * 2 ^ 12 + d.val * 2 ^ 8 + 0x02) ∧
    (∀ d a b m : BReg, (encode (.modsub d a b m)).toNat =
      m.val * 2 ^ 20 + b.val * 2 ^ 16 + a.val * 2 ^ 12 + d.val * 2 ^ 8 + 0x03) ∧
    (∀ d a b m : BReg, (encode (.modmul d a b m)).toNat =
      m.val * 2 ^ 20 + b.val * 2 ^ 16 + a.val * 2 ^ 12 + d.val * 2 ^ 8 + 0x04) ∧
    (∀ d a b m : BReg, (encode (.montmul d a b m)).toNat =
      m.val * 2 ^ 20 + b.val * 2 ^ 16 + a.val * 2 ^ 12 + d.val * 2 ^ 8 + 0x05) ∧
    (∀ d m : BReg, (encode (.montr2 d m)).toNat = m.val * 2 ^ 20 + d.val * 2 ^ 8 + 0x06) ∧
    (∀ d a m : BReg, (encode (.modinv d a m)).toNat = m.val * 2 ^ 20 + a.val * 2 ^ 12 + d.val * 2 ^ 8 + 0x07) ∧
    (∀ d a b : PReg, (encode (.padd d a b)).toNat = b.val * 2 ^ 16 + a.val * 2 ^ 12 + d.val * 2 ^ 8 + 0x10) ∧
    (∀ d a : PReg, (encode (.pdbl d a)).toNat = a.val * 2 ^ 12 + d.val * 2 ^ 8 + 0x11) ∧
    (∀ (d a : PReg) (b : BReg), (encode (.pmul d a b)).toNat =
      b.val * 2 ^ 16 + a.val * 2 ^ 12 + d.val * 2 ^ 8 + 0x12) ∧
    (∀ d : BReg, (encode (.keygen d)).toNat = d.val * 2 ^ 8 + 0x20) ∧
    (∀ (d : PReg) (a : BReg), (encode (.pubkey d a)).toNat = a.val * 2 ^ 12 + d.val * 2 ^ 8 + 0x21) ∧
    (encode .shainit).toNat = 0x30 ∧
    (∀ i : BitVec 8, (encode (.shablk i)).toNat = i.toNat * 2 ^ 24 + 0x31) ∧
    (∀ d : BReg, (encode (.shahash d)).toNat = d.val * 2 ^ 8 + 0x32) ∧
    (∀ d a b : BReg, (encode (.sign d a b)).toNat = b.val * 2 ^ 16 + a.val * 2 ^ 12 + d.val * 2 ^ 8 + 0x40) ∧
    (∀ (a b : BReg) (q : PReg), (encode (.verify a b q)).toNat =
      q.val * 2 ^ 20 + b.val * 2 ^ 16 + a.val * 2 ^ 12 + 0x41) ∧
    (∀ d a : PReg, (encode (.encrypt d a)).toNat = a.val * 2 ^ 12 + d.val * 2 ^ 8 + 0x50) ∧
    (∀ (a : BReg) (b : PReg), (encode (.decrypt a b)).toNat = b.val * 2 ^ 16 + a.val * 2 ^ 12 + 0x51)

/-- The decoder accepts a word as a command of the row `op` exactly when the word agrees with the row's `match`
under its `mask`, every point field is below 8, and the word is not `SIGN` with `FD = FB` (30_encoding.md R104,
R108; opcode_table.json). -/
def Obligations.DecodeByMatchAndMask : Prop :=
  ∀ (c : Word) (op : Opcode),
    (∃ i, decode c = .ok i ∧ opcodeOfInstr i = op) ↔
      c &&& rowMask op = rowMatch op ∧ PointFieldsLegal op c ∧ (op = .sign → fieldFd c ≠ fieldFb c)

/-! ### The engine's step, acceptance and completion -/

/-- A step runs the decoded command: with the command word `c` accepted and the engine's turn next (or no
event left: the model's schedule, log entry 7), the step is the meaning of the command `c` decodes to, on the state without that event; a word that
is no command ends with `ILLEGAL_COMMAND` and changes nothing but `STATUS`; and `withFetchWord` places a word so that
the very next step performs it, on the state as acceptance leaves it (log entry 11). -/
def Obligations.StepRunsDecodedCommand : Prop :=
  (∀ (s : State) (c : Word) (i : Instr), s.engine = .busy c → decode c = .ok i →
      (∀ rest, s.bus = .engine :: rest → step s = exec i { s with bus := rest }) ∧
        (s.bus = [] → step s = exec i s)) ∧
    (∀ (s : State) (c : Word) (r : Reject), s.engine = .busy c → decode c = .error r →
      (∀ rest, s.bus = .engine :: rest → step s = .next (failedState .illegalCommand 0 { s with bus := rest })) ∧
        (s.bus = [] → step s = .next (failedState .illegalCommand 0 s))) ∧
    ∀ (s : State) (w : Nat) (i : Instr), w < 2 ^ 32 → decodeTableWord 32 w = some i →
      step (s.withFetchWord 32 w) =
        exec i { s with cmd := BitVec.ofNat 32 w
                        engine := .busy (BitVec.ofNat 32 w)
                        status := ⟨false, false, s.status.overrun, .none⟩ }

/-- 60_exceptions.md R270: a host write of any word `c` to `CMD` while the engine is idle accepts it. -/
def Obligations.Acceptance : Prop :=
  ∀ (s : State) (c : Word) (rest : List BusEvent), s.engine = .idle → s.bus = .write 0x0010 4 c :: rest →
    step s = .next { s with bus := rest
                            cmd := c
                            engine := .busy c
                            status := ⟨false, false, s.status.overrun, .none⟩ }

/-- 60_exceptions.md R271: a host write to `CMD` while the engine is busy sets `OVERRUN` and changes nothing
else; and `OVERRUN` stays 1 until a write of `STATUS` with bit 3 set, or a reset. -/
def Obligations.Overrun : Prop :=
  (∀ (s : State) (c c2 : Word) (rest : List BusEvent), s.engine = .busy c → s.bus = .write 0x0010 4 c2 :: rest →
      step s = .next { s with bus := rest, status := { s.status with overrun := true } }) ∧
    ∀ s t : State, step s = .next t → s.status.overrun = true →
      t.status.overrun = true ∨
        (∃ v rest, s.bus = .write 0x000C 4 v :: rest ∧ v[3] = true) ∨
        (∃ v rest, s.bus = .write 0x0008 4 v :: rest ∧ v[1] = true) ∨
        (∃ rest, s.bus = .rst :: rest)

/-- Every command completes, whatever the state: the engine is idle and `DONE` is set afterwards
(60_exceptions.md R274, 70_reset_and_hazards.md R317). -/
def Obligations.EveryCommandCompletes : Prop :=
  ∀ (c : Word) (s : State), ∃ t, performCommand c s = .next t ∧ t.engine = .idle ∧ t.status.done = true ∧
    t.isBusy = false ∧ t.status.overrun = s.status.overrun

/-- 60_exceptions.md R276: a command that ends with an error leaves every state as it was but for `STATUS`
(`ERRCODE` the code, `VALID` 0, `DONE` 1), the engine, and `RNG_CTR`, which has advanced by the number of draws
made: none for a command that draws nothing, at most one for `ENCRYPT`, at most `SIGN_MAX_ATTEMPTS` for
`SIGN`. -/
def Obligations.ErrorWritesNothing : Prop :=
  ∀ (i : Instr) (s t : State), exec i s = .next t → t.status.errcode ≠ .none →
    ∃ n, t = failedState t.status.errcode n s ∧ n ≤ Config.signMaxAttempts ∧
      ((∀ fd fa, i ≠ .encrypt fd fa) → (∀ fd fa fb, i ≠ .sign fd fa fb) → n = 0) ∧
      (∀ fd fa, i = .encrypt fd fa → n ≤ 1)

/-- What commands write, by kind of state: no command writes the curve, `MSG`, `MSG_LEN`, `CTRL`, `SEED` or
`CMD`; only `SHAINIT`, `SHABLK` and `SHAHASH` write the hash state; only `ENCRYPT` and `DECRYPT` write `OUT`, and
only its bytes below `MSG_LEN`; only `KEYGEN`, `SIGN` and `ENCRYPT` draw; only `VERIFY` sets `VALID` (10_state.md
R27, R31 to R37). -/
def Obligations.WhoWritesWhat : Prop :=
  ∀ (i : Instr) (s t : State), exec i s = .next t →
    (t.curve = s.curve ∧ t.msg = s.msg ∧ t.msgLen = s.msgLen ∧ t.ctrl = s.ctrl ∧ t.seed = s.seed ∧ t.cmd = s.cmd) ∧
      (t.shaH ≠ s.shaH → i = .shainit ∨ (∃ n, i = .shablk n) ∨ ∃ fd, i = .shahash fd) ∧
      (t.out ≠ s.out → (∃ fd fa, i = .encrypt fd fa) ∨ ∃ fa fb, i = .decrypt fa fb) ∧
      (∀ a, s.msgLen.toNat ≤ a → t.out.read a = s.out.read a) ∧
      (t.rngCtr ≠ s.rngCtr → (∃ fd, i = .keygen fd) ∨ (∃ fd fa fb, i = .sign fd fa fb) ∨ ∃ fd fa, i = .encrypt fd fa) ∧
      (s.status.valid = false → t.status.valid = true → ∃ fa fb fc, i = .verify fa fb fc)

/-- Which commands can report which error (60_exceptions.md R272): `UNINVERTIBLE` only those that compute an
inverse, `DEGENERATE_SIGNATURE` only `SIGN` and `VERIFY`, `INFINITY_POINT` only `ENCRYPT` and `DECRYPT`,
`MALFORMED_INPUT` never `NOP` or `SHAINIT`, and `ILLEGAL_COMMAND` no well-formed command (that the ill-formed term
ends so is the model's choice, log entry 16). -/
def Obligations.WhoReportsWhat : Prop :=
  ∀ (i : Instr) (s t : State), exec i s = .next t →
    (t.status.errcode = .uninvertible → opcodeOfInstr i ∈
      [Opcode.modinv, .padd, .pdbl, .pmul, .pubkey, .sign, .verify, .encrypt, .decrypt]) ∧
      (t.status.errcode = .degenerateSignature → opcodeOfInstr i ∈ [Opcode.sign, .verify]) ∧
      (t.status.errcode = .infinityPoint → opcodeOfInstr i ∈ [Opcode.encrypt, .decrypt]) ∧
      (t.status.errcode = .malformedInput → opcodeOfInstr i ∉ [Opcode.nop, .shainit]) ∧
      (t.status.errcode = .illegalCommand → i.wellFormed = false)

/-- `CURVE_B` is read by no command (10_state.md R30): with another `CURVE_B` every command does the same, and the
state it leaves differs in `CURVE_B` alone. -/
def Obligations.CurveBReadByNoCommand : Prop :=
  ∀ (i : Instr) (s t : State) (v : BigWord), exec i s = .next t →
    exec i { s with curve := { s.curve with b := v } } = .next { t with curve := { t.curve with b := v } }

/-- 20_memory.md R77: of `MSG` the commands that take a message (`SHAHASH`, `SIGN`, `VERIFY`, `ENCRYPT`, `DECRYPT`) read
the bytes below `MSG_LEN`, `SHABLK` reads the 64 bytes of its block, and no command reads others, so that the
remaining commands read none: with any other bytes elsewhere every command does the same, and the state it leaves
differs in those bytes alone. -/
def Obligations.OtherMessageBytesNotRead : Prop :=
  ∀ (i : Instr) (s t : State) (m : Memory), exec i s = .next t →
    (∀ k, (opcodeOfInstr i ∈ [Opcode.shahash, .sign, .verify, .encrypt, .decrypt] ∧ k < s.msgLen.toNat) ∨
        (∃ n : BitVec 8, i = .shablk n ∧ 64 * n.toNat ≤ k ∧ k < 64 * n.toNat + 64) → m.read k = s.msg.read k) →
      exec i { s with msg := m } = .next { t with msg := m }

/-- An accepted command is performed after finitely many events (70_reset_and_hazards.md R317).  If every event to
come is an access the spec defines and none is a reset, then after at most as many steps as there are events the next
step performs the command, on the state as it stood when the command was accepted (20_memory.md R72): what the events
before it can have changed is `CTRL` and `STATUS` alone, beside the model's own fields.  With resets among the events,
which abandon the command, the block is idle again after at most one step more than there are events.  That an empty
list is the engine's turn is the model's form of weak fairness (log entry 7). -/
def Obligations.CommandIsPerformedInTime : Prop :=
  ∀ (s : State) (c : Word), s.engine = .busy c → (∀ e ∈ s.bus, DefinedEvent e) →
    ((∀ e ∈ s.bus, ¬ ResetEvent e) →
      ∃ k t u, k ≤ s.bus.length ∧ Sys2Proof.core.run k s = .next t ∧ step t = performCommand c (dropEvent t) ∧
        step t = .next u ∧ u.engine = .idle ∧ u.status.done = true ∧
        dropEvent t = { s with ctrl := t.ctrl, status := t.status, bus := t.bus.tail, reads := t.reads
                               freeCtr := t.freeCtr }) ∧
      ∃ k t, k ≤ s.bus.length + 1 ∧ Sys2Proof.core.run k s = .next t ∧ t.engine = .idle

/-! ### Reset and the invariant -/

/-- 70_reset_and_hazards.md R301: reset sets every state to 0 and the engine to idle; `ID` and `PARAM` are
constants; every point register holds `Finite(0, 0)`, every command that reads the curve then raises
`MALFORMED_INPUT`, and `IRQ` is low. -/
def Obligations.ResetValues : Prop :=
  ∀ (s t : State) (rest : List BusEvent), s.bus = .rst :: rest → step s = .next t →
    (∀ l : Loc, readLoc t l = if l = .id then 0x45430007#32 else if l = .param then readLoc s .param else 0#32) ∧
      (∀ r, t.readBig r = 0) ∧ (∀ j, t.readPoint j = .finite 0 0) ∧
      (t.curveP = 0 ∧ t.curveA = 0 ∧ t.curve.b = 0#Config.W ∧ t.curveN = 0 ∧ t.curveG = .finite 0 0) ∧
      (∀ i, t.msg.read i = 0#8) ∧ (∀ i, t.out.read i = 0#8) ∧
      t.seed = 0#64 ∧ t.rngCtr = 0#64 ∧ t.engine = .idle ∧ t.irq = false ∧
      ∀ (d a b : PReg) (k k2 k3 : BReg), k ≠ k3 →
        ∀ i ∈ [Instr.padd d a b, .pdbl d a, .pmul d a k, .keygen k, .pubkey d k, .sign k k2 k3, .verify k k2 d,
            .encrypt d a, .decrypt k a],
          exec i t = .next (failedState .malformedInput 0 t)

/-- 70_reset_and_hazards.md R302, and R300: a host write of `CTRL` with bit 1 set and the platform's `RST` have one
effect, whether the engine is idle or busy: the reset state (the events to come and what the model keeps for the
host apart), `IE` included, so that an abandoned command sets no `DONE` and raises no `IRQ`; a write with bit 1 clear
only sets `IE` to bit 0. -/
def Obligations.CtrlWriteAndReset : Prop :=
  (∀ (s : State) (v : Word) (rest : List BusEvent), s.bus = .write 0x0008 4 v :: rest →
      (v[1] = true →
        step s = .next { State.reset with bus := rest, reads := s.reads, freeCtr := s.freeCtr }) ∧
      (v[1] = false → step s = .next { s with bus := rest, ctrl := ⟨v[0]⟩ })) ∧
    ∀ (s : State) (rest : List BusEvent), s.bus = .rst :: rest →
      step s = .next { State.reset with bus := rest, reads := s.reads, freeCtr := s.freeCtr }

/-- The invariant, whose canonical form of buffers is the model's (log entry 13), holds of the reset state. -/
def Obligations.ResetHasInvariant : Prop := StateInv State.reset

/-- Every step keeps the invariant: the buffers stay canonical (the model's form, log entry 13); `CMD` is the command in progress, with `DONE`,
`VALID` and `ERRCODE` clear while it is; `VALID` never stands beside an error code. -/
def Obligations.StepKeepsInvariant : Prop :=
  ∀ s t : State, StateInv s → step s = .next t → StateInv t

/-- Two buffers in canonical form (the model's, log entry 13) with the same bytes are the same data. -/
def Obligations.CanonicalBuffersAreEqual : Prop :=
  ∀ m m' : Memory, m.wf = true → m'.wf = true → (∀ i, m.read i = m'.read i) → m = m'

/-! ### The host's accesses -/

/-- The register map (20_memory.md R61 to R65): the offset of every row of the table; every named location has that one
aligned offset of the window, which is located as it; every other aligned offset is reserved. -/
def Obligations.RegisterMap : Prop :=
  (offsetOf .id = 0x0000 ∧ offsetOf .param = 0x0004 ∧ offsetOf .ctrl = 0x0008 ∧ offsetOf .status = 0x000C ∧
      offsetOf .cmd = 0x0010 ∧ offsetOf .msgLen = 0x0014 ∧ offsetOf .pinf = 0x0018 ∧ offsetOf .seedLo = 0x0020 ∧
      offsetOf .seedHi = 0x0024 ∧ offsetOf .rngCtrLo = 0x0028 ∧ offsetOf .rngCtrHi = 0x002C ∧
      (∀ i : Fin 8, offsetOf (.shaH i) = 0x0040 + 4 * i.val) ∧
      (∀ (i : BReg) (j : Fin 16), offsetOf (.bigWord i j) = 0x0400 + 0x40 * i.val + 4 * j.val) ∧
      (∀ (k : PReg) (j : Fin 16), offsetOf (.pointX k j) = 0x0800 + 0x80 * k.val + 4 * j.val ∧
        offsetOf (.pointY k j) = 0x0840 + 0x80 * k.val + 4 * j.val) ∧
      (∀ j : Fin 16, offsetOf (.curveWord .p j) = 0x0C00 + 4 * j.val ∧ offsetOf (.curveWord .a j) = 0x0C40 + 4 * j.val ∧
        offsetOf (.curveWord .b j) = 0x0C80 + 4 * j.val ∧ offsetOf (.curveWord .n j) = 0x0CC0 + 4 * j.val ∧
        offsetOf (.curveWord .gx j) = 0x0D00 + 4 * j.val ∧ offsetOf (.curveWord .gy j) = 0x0D40 + 4 * j.val) ∧
      ∀ m : Fin 1024, offsetOf (.msgWord m) = 0x1000 + 4 * m.val ∧ offsetOf (.outWord m) = 0x2000 + 4 * m.val) ∧
  (∀ l : Loc, l ≠ .reserved → offsetOf l < 0x3000 ∧ offsetOf l % 4 = 0 ∧ locate (offsetOf l) = l) ∧
    (∀ off, off < 0x4000 → off % 4 = 0 → locate off ≠ .reserved → offsetOf (locate off) = off) ∧
    ∀ off, off < 0x4000 → off % 4 = 0 →
      (locate off = .reserved ↔ off = 0x001C ∨ (0x0030 ≤ off ∧ off ≤ 0x003F) ∨ (0x0060 ≤ off ∧ off ≤ 0x03FF) ∨
        (0x0D80 ≤ off ∧ off ≤ 0x0FFF) ∨ 0x3000 ≤ off)

/-- 20_memory.md R66: an access of another width than 32 bits, or at an offset that is not a multiple of 4, is
refused (log entry 9). -/
def Obligations.UndefinedAccessRefused : Prop :=
  ∀ (s : State) (off width : Nat) (v : Word) (rest : List BusEvent), off < 0x4000 → width ≠ 4 ∨ off % 4 ≠ 0 →
    (s.bus = .read off width :: rest → step s = .refused .undefinedAccess) ∧
      (s.bus = .write off width v :: rest → step s = .refused .undefinedAccess)

/-- Host reads (20_memory.md R61, R67, R70, 70_reset_and_hazards.md R312), at every aligned offset of the window: no
read changes any state of the block; while busy, a read of state that a command can write returns any value (that it is
`Config.busyRead` of the count of free values, which it advances, is the model's choice, log entry 6), and a read of any other location, or of any location while idle, returns its value,
which is 0 for reserved space.  The value of `CMD` is the last accepted word, those of `MSG_LEN` and `SHA_Hi` are the
registers, those of `SEED` and `RNG_CTR` their low and high halves, and that of `PINF` has the tag of `Pj` as bit `j` and
0 above (10_state.md R31, R34, R37, R38, R41); what the other locations read is in BigRegisterWords,
BufferWordsLittleEndian, StatusAndCtrlWords and IdentityRegisters. -/
def Obligations.HostReads : Prop :=
  (∀ s : State, readLoc s .reserved = 0#32 ∧ readLoc s .cmd = s.cmd ∧ readLoc s .msgLen = s.msgLen ∧
      (∀ i : Fin 8, readLoc s (.shaH i) = s.shaH[i.val]) ∧
      readLoc s .seedHi ++ readLoc s .seedLo = s.seed ∧ readLoc s .rngCtrHi ++ readLoc s .rngCtrLo = s.rngCtr ∧
      (∀ j : PReg, (readLoc s .pinf)[j.val] = s.pinf[j.val]) ∧ (readLoc s .pinf).toNat < 2 ^ 8) ∧
    ∀ (s : State) (off : Nat) (l : Loc) (rest : List BusEvent), off < 0x4000 → off % 4 = 0 → locate off = l →
      s.bus = .read off 4 :: rest →
      (∃ v n, step s = .next { s with bus := rest, reads := v :: s.reads, freeCtr := n }) ∧
        (s.engine = .idle → step s = .next { s with bus := rest, reads := readLoc s l :: s.reads }) ∧
        ∀ c : Word, s.engine = .busy c →
          ((l = .pinf ∨ l = .rngCtrLo ∨ l = .rngCtrHi ∨ (∃ i, l = .shaH i) ∨ (∃ i j, l = .bigWord i j) ∨
              (∃ k j, l = .pointX k j) ∨ (∃ k j, l = .pointY k j) ∨ ∃ m, l = .outWord m) →
            step s = .next { s with
              bus := rest, reads := Config.busyRead s.freeCtr :: s.reads, freeCtr := s.freeCtr + 1 }) ∧
          ((l = .id ∨ l = .param ∨ l = .ctrl ∨ l = .status ∨ l = .cmd ∨ l = .msgLen ∨ l = .seedLo ∨ l = .seedHi ∨
              (∃ m, l = .msgWord m) ∨ (∃ r j, l = .curveWord r j) ∨ l = .reserved) →
            step s = .next { s with bus := rest, reads := readLoc s l :: s.reads })

/-- 70_reset_and_hazards.md R311: while busy, a host write to any offset but those of `CTRL`, `STATUS` and `CMD`
changes no state and raises no error; `CTRL` takes effect, `STATUS` clears `OVERRUN` where bit 3 is 1, and `CMD`
sets `OVERRUN`. -/
def Obligations.WriteWhileBusy : Prop :=
  ∀ (s : State) (c v : Word) (off : Nat) (rest : List BusEvent), s.engine = .busy c → s.status.done = false →
    off < 0x4000 → off % 4 = 0 → s.bus = .write off 4 v :: rest →
      (off ≠ 0x0008 → off ≠ 0x000C → off ≠ 0x0010 → step s = .next { s with bus := rest }) ∧
      (off = 0x0008 → step s = .next (if v[1] then resetBlock { s with bus := rest }
        else { s with bus := rest, ctrl := ⟨v[0]⟩ })) ∧
      (off = 0x000C → step s = .next { s with
        bus := rest, status := { s.status with overrun := s.status.overrun && !v[3] } }) ∧
      (off = 0x0010 → step s = .next { s with bus := rest, status := { s.status with overrun := true } })

/-- The words of `STATUS` and `CTRL` (10_state.md R35, R36): `BUSY`, `DONE`, `VALID`, `OVERRUN` in bits 0 to 3,
`ERRCODE` in bits 11:8, `IE` in bit 0, every other bit 0; the error codes of 60_exceptions.md R272; and a host write
of `STATUS` clears `DONE` where bit 1 is 1 and `OVERRUN` where bit 3 is 1, every other bit of it ignored. -/
def Obligations.StatusAndCtrlWords : Prop :=
  (∀ s : State, (readLoc s .status).toNat =
      (s.isBusy.toNat + 2 * s.status.done.toNat + 4 * s.status.valid.toNat + 8 * s.status.overrun.toNat) +
        256 * s.status.errcode.code.toNat) ∧
    (∀ s : State, (readLoc s .ctrl).toNat = s.ctrl.ie.toNat) ∧
    (∀ s : State, s.isBusy = true ↔ ∃ c, s.engine = .busy c) ∧
    [ErrCode.none, .uninvertible, .malformedInput, .degenerateSignature, .illegalCommand, .infinityPoint].map
      (fun e => e.code.toNat) = [0, 1, 2, 3, 4, 5] ∧
    ∀ (s : State) (v : Word) (rest : List BusEvent), s.bus = .write 0x000C 4 v :: rest →
      step s = .next { s with
        bus := rest
        status := ⟨s.status.done && !v[1], s.status.valid, s.status.overrun && !v[3], s.status.errcode⟩ }

/-- 60_exceptions.md R280: `IRQ` is `DONE` and `IE`: after a completion it is `IE`, it rises when the host sets
`IE` while `DONE = 1`, and it is low after the host clears `DONE` or `IE`, after an acceptance and after a
reset. -/
def Obligations.InterruptLevel : Prop :=
  (∀ s : State, s.irq = true ↔ s.status.done = true ∧ s.ctrl.ie = true) ∧
    (∀ (c : Word) (s t : State), performCommand c s = .next t → t.irq = s.ctrl.ie) ∧
    (∀ (s t : State) (v : Word) (rest : List BusEvent), s.bus = .write 0x0008 4 v :: rest → step s = .next t →
      v[1] = false → t.irq = (s.status.done && v[0])) ∧
    (∀ (s t : State) (v : Word) (rest : List BusEvent), s.bus = .write 0x000C 4 v :: rest → step s = .next t →
      v[1] = true → t.irq = false) ∧
    (∀ (c : Word) (s : State), (accept c s).irq = false) ∧ ∀ s : State, (resetBlock s).irq = false

/-- The host's view of the registers of `W` bits (10_state.md R22 to R24, R27; 20_memory.md R62 to R64): the big registers,
the coordinates of the point registers and the six curve registers.  Word `j` holds bits `32j+31` to `32j`; a word
with `j >= W/32` reads 0; a write of word `j` replaces only those 32 bits, of that register alone, and is ignored for
`j >= W/32`; no such write sets or clears a tag.  And these are the registers the commands read: the tag of a point register
decides between `Infinity`, whose coordinates are ignored, and the coordinates (R25), and `CURVE.p`, `a`, `n` and `G` are
the curve registers (R28). -/
def Obligations.BigRegisterWords : Prop :=
  (∀ (s : State) (k : PReg),
      (s.pinf[k.val] = true → s.readPoint k = .infinity) ∧
        (s.pinf[k.val] = false →
          s.readPoint k = .finite ((WideReg.pointX k).value s) ((WideReg.pointY k).value s)) ∧
        s.curveP = (WideReg.curve .p).value s ∧ s.curveA = (WideReg.curve .a).value s ∧
        s.curveN = (WideReg.curve .n).value s ∧
        s.curveG = .finite ((WideReg.curve .gx).value s) ((WideReg.curve .gy).value s)) ∧
  ∀ (s : State) (r : WideReg) (j : Fin 16) (v : Word), s.engine = .idle →
    (readLoc s (r.word j)).toNat = r.value s / 2 ^ (32 * j.val) % 2 ^ 32 ∧
      (Config.W / 32 ≤ j.val → readLoc s (r.word j) = 0#32 ∧ writeHost (r.word j) v s = s) ∧
      (j.val < Config.W / 32 → readLoc (writeHost (r.word j) v s) (r.word j) = v) ∧
      (writeHost (r.word j) v s).pinf = s.pinf ∧
      ∀ (r' : WideReg) (j' : Fin 16), (r', j') ≠ (r, j) →
        readLoc (writeHost (r.word j) v s) (r'.word j') = readLoc s (r'.word j')

/-- 20_memory.md R65: the word of `MSG` at `0x1000 + 4m` is `MSG[4m+3] || MSG[4m+2] || MSG[4m+1] || MSG[4m]`, `OUT`
at `0x2000 + 4m` likewise, and a host write to a `MSG` word replaces all four bytes and no other. -/
def Obligations.BufferWordsLittleEndian : Prop :=
  ∀ (s : State) (m : Fin 1024) (v : Word),
    (offsetOf (.msgWord m) = 0x1000 + 4 * m.val ∧ offsetOf (.outWord m) = 0x2000 + 4 * m.val) ∧
      readLoc s (.msgWord m) = s.msg.read (4 * m.val + 3) ++ s.msg.read (4 * m.val + 2) ++
        s.msg.read (4 * m.val + 1) ++ s.msg.read (4 * m.val) ∧
      readLoc s (.outWord m) = s.out.read (4 * m.val + 3) ++ s.out.read (4 * m.val + 2) ++
        s.out.read (4 * m.val + 1) ++ s.out.read (4 * m.val) ∧
      (s.engine = .idle → s.msg.wf = true → ∀ t, t = writeHost (.msgWord m) v s →
        readLoc t (.msgWord m) = v ∧
          ∀ a, a / 4 ≠ m.val → t.msg.read a = s.msg.read a)

/-- Host writes (20_memory.md R61, R67, R70).  A write at any aligned offset of the window is one of the location
there, whether the engine is idle or busy.  While idle: a read/write register of 32 bits reads back the word
written; no write changes what any other location reads, but for `CTRL`, `STATUS`, `CMD` and `SEED`; writes to
read-only and reserved locations are ignored; and a write to either word of `SEED` replaces those 32 bits, sets
`RNG_CTR` to 0 and changes nothing else (10_state.md R37). -/
def Obligations.WriteChangesOneLocation : Prop :=
  (∀ (s : State) (off : Nat) (v : Word) (rest : List BusEvent), off < 0x4000 → off % 4 = 0 →
      s.bus = .write off 4 v :: rest → step s = .next (writeHost (locate off) v { s with bus := rest })) ∧
    ∀ (s : State) (l l' : Loc) (v : Word), s.engine = .idle → s.msg.wf = true →
      (l ∉ [Loc.ctrl, .status, .cmd, .seedLo, .seedHi] →
        (l ≠ l' → readLoc (writeHost l v s) l' = readLoc s l') ∧
          ((l = .msgLen ∨ (∃ i, l = .shaH i) ∨ ∃ m, l = .msgWord m) → readLoc (writeHost l v s) l = v) ∧
          (l = .pinf → readLoc (writeHost l v s) l = v &&& 0x000000FF#32) ∧
          ((l = .id ∨ l = .param ∨ l = .rngCtrLo ∨ l = .rngCtrHi ∨ (∃ m, l = .outWord m) ∨ l = .reserved) →
            writeHost l v s = s)) ∧
        writeHost .seedLo v s = { s with seed := s.seed.extractLsb' 32 32 ++ v, rngCtr := 0#64 } ∧
        writeHost .seedHi v s = { s with seed := v ++ s.seed.extractLsb' 0 32, rngCtr := 0#64 } ∧
        readLoc (writeHost .seedLo v s) .seedLo = v ∧ readLoc (writeHost .seedHi v s) .seedHi = v

/-- 10_state.md R39, R40: `PARAM` holds `W` in bits 15:0 and `MSG_BYTES` in bits 31:16, `ID` is `0x45430007`, and
writes to both are ignored. -/
def Obligations.IdentityRegisters : Prop :=
  ∀ (s : State) (v : Word),
    (readLoc s .param).toNat % 2 ^ 16 = Config.W ∧ (readLoc s .param).toNat / 2 ^ 16 = 4096 ∧
      (Config.W % 32 = 0 ∧ 256 ≤ Config.W ∧ Config.W ≤ 512) ∧ readLoc s .id = 0x45430007#32 ∧
      writeHost .param v s = s ∧ writeHost .id v s = s

/-- 10_state.md R25, R26: a point register written with a point reads as that point, an `Infinity` sets the tag
and zeroes the coordinates, a finite point clears the tag and stores the coordinates, and no other point
register changes. -/
def Obligations.PointRegisterWrite : Prop :=
  ∀ (s : State) (j : PReg) (q : Point), (∀ x y, q = .finite x y → x < 2 ^ Config.W ∧ y < 2 ^ Config.W) →
    ∀ t, t = s.writePoint j q →
      t.readPoint j = q ∧
        (q = .infinity → t.pinf[j.val] = true ∧ t.point[j.val] = ⟨0#Config.W, 0#Config.W⟩) ∧
        (∀ x y, q = .finite x y →
          t.pinf[j.val] = false ∧ (t.point[j.val]).x.toNat = x ∧ (t.point[j.val]).y.toNat = y) ∧
        ∀ k, k ≠ j → t.point[k.val] = s.point[k.val] ∧ t.pinf[k.val] = s.pinf[k.val]

/-! ### The system command -/

/-- `NOP` completes and changes nothing but the completion fields of `STATUS` (46_system.md R260); the only `NOP`
word is `0x00000000`, and `0x00000100` ends with `ILLEGAL_COMMAND`; performed from reset it leaves
`STATUS = 0x00000002`. -/
def Obligations.NopCompletes : Prop :=
  (∀ s : State, ∃ t, exec .nop s = .next t ∧ Succeeded s t ∧ Frame [] [] false 0 s t ∧ t.rngCtr = s.rngCtr ∧
      t = { s with engine := .idle, status := t.status }) ∧
    (∀ c : Word, decode c = .ok .nop ↔ c = 0x00000000#32) ∧
    (∀ s : State, performCommand 0x00000100#32 s = .next (failedState .illegalCommand 0 s)) ∧
    ∃ t, step (State.reset.withFetchWord 32 0x00000000) = .next t ∧ readLoc t .status = 0x00000002#32

/-! ### Field arithmetic -/

/-- 40_field.md R133, R134, R136: `MODRED`, `MODADD` and `MODMUL` write `x`, `x + y` and `x·y` modulo `m` to `B[FD]`,
computed exactly, and nothing else; with `m < 2` they end with `MALFORMED_INPUT`. -/
def Obligations.ModredModaddModmulResult : Prop :=
  ∀ (s : State) (d a b m : BReg),
    (2 ≤ s.readBig m →
      (∃ t, exec (.modred d a m) s = .next t ∧ t.readBig d = s.readBig a % s.readBig m ∧
          Succeeded s t ∧ Frame [d] [] false 0 s t ∧ t.rngCtr = s.rngCtr) ∧
        (∃ t, exec (.modadd d a b m) s = .next t ∧ t.readBig d = (s.readBig a + s.readBig b) % s.readBig m ∧
          Succeeded s t ∧ Frame [d] [] false 0 s t ∧ t.rngCtr = s.rngCtr) ∧
        ∃ t, exec (.modmul d a b m) s = .next t ∧ t.readBig d = (s.readBig a * s.readBig b) % s.readBig m ∧
          Succeeded s t ∧ Frame [d] [] false 0 s t ∧ t.rngCtr = s.rngCtr) ∧
      (s.readBig m < 2 →
        ∀ i ∈ [Instr.modred d a m, .modadd d a b m, .modmul d a b m],
          exec i s = .next (failedState .malformedInput 0 s))

/-- 40_field.md R135: `MODSUB` writes the difference of the residues in `[0, m-1]`, never a two's-complement
word: the one residue that added to `y` gives `x`; with `m < 2` it ends with `MALFORMED_INPUT`. -/
def Obligations.ModsubResult : Prop :=
  ∀ (s : State) (d a b m : BReg),
    (2 ≤ s.readBig m →
      ∃ t, exec (.modsub d a b m) s = .next t ∧ t.readBig d < s.readBig m ∧
        (t.readBig d : Int) = ((s.readBig a : Int) - (s.readBig b : Int)) % (s.readBig m : Int) ∧
        (t.readBig d + s.readBig b) % s.readBig m = s.readBig a % s.readBig m ∧
        Succeeded s t ∧ Frame [d] [] false 0 s t ∧ t.rngCtr = s.rngCtr) ∧
      (s.readBig m < 2 → exec (.modsub d a b m) s = .next (failedState .malformedInput 0 s))

/-- 40_field.md R137, R138: `MONTMUL` with an odd modulus writes the Montgomery product, the canonical residue that
multiplied by `R = 2^W` gives `x·y` modulo `m`; with `m < 2` or `m` even it ends with `MALFORMED_INPUT`. -/
def Obligations.MontmulResult : Prop :=
  ∀ (s : State) (d a b m : BReg),
    (2 ≤ s.readBig m → s.readBig m % 2 = 1 →
      ∃ t, exec (.montmul d a b m) s = .next t ∧ t.readBig d < s.readBig m ∧
        (t.readBig d * 2 ^ Config.W) % s.readBig m = (s.readBig a * s.readBig b) % s.readBig m ∧
        Succeeded s t ∧ Frame [d] [] false 0 s t ∧ t.rngCtr = s.rngCtr) ∧
      (s.readBig m < 2 ∨ s.readBig m % 2 = 0 →
        exec (.montmul d a b m) s = .next (failedState .malformedInput 0 s))

/-- 40_field.md R137, R139: `MONTR2` with an odd modulus writes `2^(2W) mod m`; with `m < 2` or `m` even it ends with
`MALFORMED_INPUT`. -/
def Obligations.Montr2Result : Prop :=
  ∀ (s : State) (d m : BReg),
    (2 ≤ s.readBig m → s.readBig m % 2 = 1 →
      ∃ t, exec (.montr2 d m) s = .next t ∧ t.readBig d = 2 ^ (2 * Config.W) % s.readBig m ∧
        Succeeded s t ∧ Frame [d] [] false 0 s t ∧ t.rngCtr = s.rngCtr) ∧
      (s.readBig m < 2 ∨ s.readBig m % 2 = 0 →
        exec (.montr2 d m) s = .next (failedState .malformedInput 0 s))

/-- 40_field.md R140: the Montgomery domain laws, for odd `m >= 3` and residues `x`, `y`, and for every radix
exponent `w`. -/
def Obligations.MontgomeryDomainLaws : Prop :=
  ∀ w m x y : Nat, 3 ≤ m → m % 2 = 1 → x < m → y < m →
    ∃ r2, montR2 w m = .ok r2 ∧
      montMul w x r2 m = .ok (x * 2 ^ w % m) ∧
      montMul w (x * 2 ^ w % m) (y * 2 ^ w % m) m = .ok (x * y * 2 ^ w % m) ∧
      montMul w (x * 2 ^ w % m) 1 m = .ok x ∧
      ∃ z, montMul w x y m = .ok z ∧ montMul w z r2 m = .ok (x * y % m) ∧ modMul x y m = .ok (x * y % m)

/-- 40_field.md R142, R143: `MODINV` with `m >= 2` and coprime operands writes the unique `y` in `[1, m-1]` with
`x·y ≡ 1 (mod m)`; it ends with `UNINVERTIBLE` when they are not coprime, and with `MALFORMED_INPUT` when `m < 2`. -/
def Obligations.ModinvResult : Prop :=
  ∀ (s : State) (d a m : BReg),
    (2 ≤ s.readBig m → Nat.gcd (s.readBig a) (s.readBig m) = 1 →
      ∃ t, exec (.modinv d a m) s = .next t ∧ 1 ≤ t.readBig d ∧ t.readBig d < s.readBig m ∧
        (s.readBig a * t.readBig d) % s.readBig m = 1 ∧
        (∀ y, y < s.readBig m → (s.readBig a * y) % s.readBig m = 1 → y = t.readBig d) ∧
        Succeeded s t ∧ Frame [d] [] false 0 s t ∧ t.rngCtr = s.rngCtr) ∧
      (2 ≤ s.readBig m → Nat.gcd (s.readBig a) (s.readBig m) ≠ 1 →
        exec (.modinv d a m) s = .next (failedState .uninvertible 0 s)) ∧
      (s.readBig m < 2 → exec (.modinv d a m) s = .next (failedState .malformedInput 0 s))

/-! ### Curve points -/

/-- `PDBL pD, pA` has the same result and errors as `PADD pD, pA, pA` (41_curve.md R168); and a curve prime below 2
ends the point commands and `PUBKEY` with `MALFORMED_INPUT` (41_curve.md R160, 42_key.md R182). -/
def Obligations.PdblIsPaddAndPrimeBelowTwo : Prop :=
  (∀ (d a : PReg) (s : State), exec (.pdbl d a) s = exec (.padd d a a) s) ∧
    ∀ (s : State) (d a b : PReg) (k : BReg), s.curveP < 2 →
      ∀ i ∈ [Instr.padd d a b, .pdbl d a, .pmul d a k, .pubkey d k], exec i s = .next (failedState .malformedInput 0 s)

/-- The point adder (41_curve.md R160 to R166), over any `p >= 2`: operands are normalised; the identity is neutral and
`Finite(0, 0)` is an ordinary point; points of one abscissa and different ordinates add to `Infinity`, and a point with
`2·y ≡ 0` doubles to `Infinity`; a chord or tangent whose denominator is not coprime to `p` is `UNINVERTIBLE`
(40_field.md R144), which a prime `p` excludes; otherwise the slope `sl` is that of the chord or of the tangent, and
the result has `x ≡ sl² - x1 - x2`, `y ≡ sl·(x1 - x) - y1`, normalised. -/
def Obligations.PointAdder : Prop :=
  (∀ (p a : Nat) (Q : Point), padd p a .infinity Q = .ok (normalise p Q) ∧ padd p a Q .infinity = .ok (normalise p Q) ∧
      padd p a .infinity .infinity = .ok .infinity ∧ padd p a .infinity (.finite 0 0) = .ok (.finite 0 0)) ∧
    (∀ (p a x y : Nat) (P Q : Point), padd p a P Q = padd p a (normalise p P) (normalise p Q) ∧
      normalise p (.finite x y) = .finite (x % p) (y % p) ∧ normalise p .infinity = .infinity) ∧
    ∀ (p a x1 y1 x2 y2 : Nat), 2 ≤ p → x1 < p → y1 < p → x2 < p → y2 < p →
      (x1 = x2 → y1 ≠ y2 → padd p a (.finite x1 y1) (.finite x2 y2) = .ok .infinity) ∧
        ((2 * y1) % p = 0 → padd p a (.finite x1 y1) (.finite x1 y1) = .ok .infinity) ∧
        (x1 ≠ x2 → Int.gcd ((x2 : Int) - x1) p ≠ 1 →
          padd p a (.finite x1 y1) (.finite x2 y2) = .error .uninvertible) ∧
        ((2 * y1) % p ≠ 0 → Nat.gcd (2 * y1) p ≠ 1 →
          padd p a (.finite x1 y1) (.finite x1 y1) = .error .uninvertible) ∧
        (p.Prime → (x1 ≠ x2 → Int.gcd ((x2 : Int) - x1) p = 1) ∧ ((2 * y1) % p ≠ 0 → Nat.gcd (2 * y1) p = 1)) ∧
        ((x1 ≠ x2 ∧ Int.gcd ((x2 : Int) - x1) p = 1) ∨
            (x1 = x2 ∧ y1 = y2 ∧ (2 * y1) % p ≠ 0 ∧ Nat.gcd (2 * y1) p = 1) →
          ∃ sl x3 y3 : Nat, padd p a (.finite x1 y1) (.finite x2 y2) = .ok (.finite x3 y3) ∧ x3 < p ∧ y3 < p ∧
            (x1 ≠ x2 → (sl : Int) * ((x2 : Int) - x1) ≡ (y2 : Int) - y1 [ZMOD p]) ∧
            (x1 = x2 → (sl : Int) * (2 * y1) ≡ 3 * (x1 : Int) ^ 2 + a [ZMOD p]) ∧
            (x3 : Int) ≡ (sl : Int) ^ 2 - x1 - x2 [ZMOD p] ∧
            (y3 : Int) ≡ (sl : Int) * ((x1 : Int) - x3) - y1 [ZMOD p])

/-- `PADD` and `PDBL` (41_curve.md R167, R168).  On any `p >= 2`, prime or not, a sum that exists is written, normalised,
to `P[FD]` and nothing else (`PointWritten`: an `Infinity` sets the tag and zeroes both coordinates), and one that needs an inverse that does not exist ends the command with `UNINVERTIBLE`
(40_field.md R144); on a prime `p` the commands always succeed. -/
def Obligations.PaddPdblOnPrime : Prop :=
  ∀ (s : State) (d a b : PReg),
    (2 ≤ s.curveP → ∀ i b', (i = Instr.padd d a b ∧ b' = b) ∨ (i = Instr.pdbl d a ∧ b' = a) →
      (∀ q, padd s.curveP s.curveA (s.readPoint a) (s.readPoint b') = .ok q →
        ∃ t, exec i s = .next t ∧ PointWritten t d q ∧ Normalised s.curveP q ∧
          Succeeded s t ∧ Frame [] [d] false 0 s t ∧ t.rngCtr = s.rngCtr) ∧
        ∀ e, padd s.curveP s.curveA (s.readPoint a) (s.readPoint b') = .error e →
          e = .uninvertible ∧ exec i s = .next (failedState .uninvertible 0 s)) ∧
    (s.curveP.Prime →
      (∃ q t, padd s.curveP s.curveA (s.readPoint a) (s.readPoint b) = .ok q ∧ exec (.padd d a b) s = .next t ∧
          PointWritten t d q ∧ Normalised s.curveP q ∧
          Succeeded s t ∧ Frame [] [d] false 0 s t ∧ t.rngCtr = s.rngCtr) ∧
        ∃ q t, padd s.curveP s.curveA (s.readPoint a) (s.readPoint a) = .ok q ∧ exec (.pdbl d a) s = .next t ∧
          PointWritten t d q ∧ Normalised s.curveP q ∧
          Succeeded s t ∧ Frame [] [d] false 0 s t ∧ t.rngCtr = s.rngCtr)

/-- The scalar multiplier, `PMUL` and `PUBKEY` (41_curve.md R169, R170, 42_key.md R182).  `pmul` is double-and-add from the
least significant bit (`DoubleAndAdd`): it answers `R` exactly when every addition and every doubling of that run, the
last doubling included, exists and `R` is what they add up to, and is `UNINVERTIBLE` otherwise.  On any `p >= 2`, prime
or not, a multiple of `P[FA]`, or of `G`, that exists is written to `P[FD]` and nothing else (`PointWritten`), and one that does not ends
the command with `UNINVERTIBLE` (40_field.md R144); on a prime `p` the commands always succeed.  `k = 0` gives
`Infinity` and, on a prime, `k = 1` the point, normalised. -/
def Obligations.PmulPubkeyOnPrime : Prop :=
  (∀ (p a k : Nat) (P R : Point), pmul p a P k = .ok R ↔ DoubleAndAdd p a P k R) ∧
    (∀ (p a k : Nat) (P : Point), 2 ≤ p → (∀ R, ¬ DoubleAndAdd p a P k R) → pmul p a P k = .error .uninvertible) ∧
    ∀ (s : State) (d a : PReg) (k : BReg),
      (2 ≤ s.curveP → ∀ i P, (i = Instr.pmul d a k ∧ P = s.readPoint a) ∨ (i = Instr.pubkey d k ∧ P = s.curveG) →
        (∀ q, pmul s.curveP s.curveA P (s.readBig k) = .ok q →
          ∃ t, exec i s = .next t ∧ PointWritten t d q ∧ Normalised s.curveP q ∧
            Succeeded s t ∧ Frame [] [d] false 0 s t ∧ t.rngCtr = s.rngCtr) ∧
          ∀ e, pmul s.curveP s.curveA P (s.readBig k) = .error e →
            e = .uninvertible ∧ exec i s = .next (failedState .uninvertible 0 s)) ∧
      (s.curveP.Prime →
        (∃ q t, pmul s.curveP s.curveA (s.readPoint a) (s.readBig k) = .ok q ∧ exec (.pmul d a k) s = .next t ∧
            PointWritten t d q ∧ Normalised s.curveP q ∧ (s.readBig k = 0 → q = .infinity) ∧
            (s.readBig k = 1 → q = normalise s.curveP (s.readPoint a)) ∧
            Succeeded s t ∧ Frame [] [d] false 0 s t ∧ t.rngCtr = s.rngCtr) ∧
          ∃ q t, pmul s.curveP s.curveA s.curveG (s.readBig k) = .ok q ∧ exec (.pubkey d k) s = .next t ∧
            PointWritten t d q ∧ Normalised s.curveP q ∧ (s.readBig k = 0 → q = .infinity) ∧
            (s.readBig k = 1 → q = normalise s.curveP s.curveG) ∧
            Succeeded s t ∧ Frame [] [d] false 0 s t ∧ t.rngCtr = s.rngCtr)

/-- The point arithmetic never leaves the curve (41_curve.md R160, R172): over a prime `p`, sums and multiples of
points that satisfy the curve equation modulo `p` satisfy it. -/
def Obligations.PointsStayOnCurve : Prop :=
  ∀ (p a b : Nat), p.Prime →
    (∀ P Q R : Point, OnCurve p a b P → OnCurve p a b Q → padd p a P Q = .ok R → OnCurve p a b R) ∧
      ∀ (P R : Point) (k : Nat), OnCurve p a b P → pmul p a P k = .ok R → OnCurve p a b R

/-! ### Keys -/

/-- 42_key.md R181: `KEYGEN` writes the draw of index `RNG_CTR` in `[1, n-1]` and advances `RNG_CTR` by one; with
`n < 2` it ends with `MALFORMED_INPUT` and draws nothing. -/
def Obligations.KeygenResult : Prop :=
  ∀ (s : State) (d : BReg),
    (2 ≤ s.curveN →
      ∃ t, exec (.keygen d) s = .next t ∧ t.readBig d = Config.rng s.seed s.rngCtr 1 (s.curveN - 1) ∧
        1 ≤ t.readBig d ∧ t.readBig d ≤ s.curveN - 1 ∧ t.rngCtr = s.rngCtr + 1#64 ∧
        Succeeded s t ∧ Frame [d] [] false 0 s t) ∧
      (s.curveN < 2 → exec (.keygen d) s = .next (failedState .malformedInput 0 s))

/-! ### Hash -/

/-- 43_hash.md R199: `SHAINIT` loads the initial hash value and changes nothing else. -/
def Obligations.ShainitResult : Prop :=
  ∀ s : State, ∃ t, exec .shainit s = .next t ∧
    t.shaH = #v[0x6a09e667#32, 0xbb67ae85#32, 0x3c6ef372#32, 0xa54ff53a#32, 0x510e527f#32, 0x9b05688c#32,
      0x1f83d9ab#32, 0x5be0cd19#32] ∧
    readLoc t (.shaH 0) = 0x6a09e667#32 ∧ Succeeded s t ∧ Frame [] [] true 0 s t ∧ t.rngCtr = s.rngCtr

/-- 43_hash.md R200: `SHABLK #i` with `i < 64` compresses `MSG[64·i .. 64·i + 63]` into the hash state, whatever
`MSG_LEN` is; `i >= 64` ends with `MALFORMED_INPUT`.  The compression is that of R191 to R195 (`Compression`: the
schedule, the 64 rounds and the final addition, with every function written out), for every chaining state and block; the
spec marks R191, R192, the recurrence of R193 and the round of R194 as "from general knowledge, not in source". -/
def Obligations.ShablkResult : Prop :=
  (∀ (h h' : Vector Word 8) (bs : List Byte), compress h bs = h' ↔ Compression h bs h') ∧
  ∀ (s : State) (i : BitVec 8),
    (i.toNat < 64 →
      ∃ t bs, exec (.shablk i) s = .next t ∧ bs.length = 64 ∧
        (∀ j, j < 64 → bs.getD j 0#8 = s.msg.read (64 * i.toNat + j)) ∧ t.shaH = compress s.shaH bs ∧
        Succeeded s t ∧ Frame [] [] true 0 s t ∧ t.rngCtr = s.rngCtr) ∧
      (64 ≤ i.toNat → exec (.shablk i) s = .next (failedState .malformedInput 0 s))

/-- 43_hash.md R201: `SHAHASH` hashes `MSG[0 .. MSG_LEN - 1]` from the initial value, writes the words to the hash
state and the integer of the digest to `B[FD]`, compressing `floor((L + 8) / 64) + 1` blocks; `MSG_LEN > 4096` ends
with `MALFORMED_INPUT`.  The blocks are compressed in order, each from the result of the one before (R197, `HashChain`),
the first from the initial value of R190, which the spec marks as "from general knowledge, not in source". -/
def Obligations.ShahashResult : Prop :=
  shaIV = #v[0x6a09e667#32, 0xbb67ae85#32, 0x3c6ef372#32, 0xa54ff53a#32, 0x510e527f#32, 0x9b05688c#32, 0x1f83d9ab#32,
    0x5be0cd19#32] ∧
  (∀ (n : Nat) (h h' : Vector Word 8) (bs : List Byte), bs.length = 64 * n →
    (hashBlocks n h bs = h' ↔ HashChain n h bs h')) ∧
  ∀ (s : State) (d : BReg),
    (s.msgLen.toNat ≤ 4096 →
      ∃ t bs, exec (.shahash d) s = .next t ∧ bs.length = s.msgLen.toNat ∧
        (∀ j, j < s.msgLen.toNat → bs.getD j 0#8 = s.msg.read j) ∧
        t.shaH = hashBlocks ((s.msgLen.toNat + 8) / 64 + 1) shaIV (pad bs) ∧
        t.readBig d = zint t.shaH ∧
        Succeeded s t ∧ Frame [d] [] true 0 s t ∧ t.rngCtr = s.rngCtr) ∧
      (4096 < s.msgLen.toNat → exec (.shahash d) s = .next (failedState .malformedInput 0 s))

/-- 43_hash.md R196: padding appends `0x80`, then the fewest zero bytes that make the length `56 mod 64`, then the
bit length as 8 bytes, most significant first. -/
def Obligations.PaddingOfMessage : Prop :=
  ∀ m : List Byte, m.length ≤ 4096 →
    ∃ z, pad m = m ++ [0x80#8] ++ List.replicate z 0#8 ++
        ((List.range 8).map fun i => BitVec.ofNat 8 (8 * m.length / 2 ^ (8 * (7 - i)))) ∧
      (m.length + 1 + z) % 64 = 56 ∧ (∀ z', (m.length + 1 + z') % 64 = 56 → z ≤ z') ∧
      (pad m).length = 64 * ((m.length + 8) / 64 + 1)

/-- 43_hash.md R198: `zint(H)` is the integer whose big-endian bytes are the 32 bytes of `digest(H)`, below
`2^256`. -/
def Obligations.DigestInteger : Prop :=
  ∀ h : Vector Word 8, (digest h).length = 32 ∧
    zint h = (digest h).foldl (fun z b => z * 256 + b.toNat) 0 ∧ zint h < 2 ^ 256 ∧
    zint h = h[0].toNat * 2 ^ 224 + h[1].toNat * 2 ^ 192 + h[2].toNat * 2 ^ 160 + h[3].toNat * 2 ^ 128 +
      h[4].toNat * 2 ^ 96 + h[5].toNat * 2 ^ 64 + h[6].toNat * 2 ^ 32 + h[7].toNat

/-! ### Signatures -/

/-- The checks of the commands that read a message (44_signature.md R220, 45_cipher.md R242, R243, 60_exceptions.md
R277): `MSG_LEN > MSG_BYTES`, `p < 2` or, but for `DECRYPT`, `n < 2` end `SIGN`, `VERIFY`, `ENCRYPT` and `DECRYPT` with
`MALFORMED_INPUT`, with nothing drawn; the term `SIGN` with `FD = FB` ends with `ILLEGAL_COMMAND` before that, as its
word does (log entry 16). -/
def Obligations.MessageAndCurveChecks : Prop :=
  ∀ (s : State) (d a b : BReg) (p q : PReg),
    exec (.sign d a d) s = .next (failedState .illegalCommand 0 s) ∧
      (4096 < s.msgLen.toNat ∨ s.curveP < 2 ∨ s.curveN < 2 →
        (d ≠ b → exec (.sign d a b) s = .next (failedState .malformedInput 0 s)) ∧
          exec (.verify a b q) s = .next (failedState .malformedInput 0 s) ∧
          exec (.encrypt p q) s = .next (failedState .malformedInput 0 s)) ∧
      (4096 < s.msgLen.toNat ∨ s.curveP < 2 → exec (.decrypt a q) s = .next (failedState .malformedInput 0 s))

/-- 44_signature.md R220, R222, R223: `SIGN` whose attempts before the `j`-th are degenerate and whose `j`-th is not
writes `r` and `s` of that attempt, advances `RNG_CTR` by `j + 1`, and writes nothing else; where the `j`-th attempt
needs an inverse that does not exist, in its multiple of `G` or of its nonce modulo `n`, the command ends with
`UNINVERTIBLE` after those draws (40_field.md R144).  `z` is the digest of the message as an integer
(`MessageInteger`).  An attempt with nonce `k` is degenerate when `k·G` is `Infinity` or `r` or `s` is 0 (R224). -/
def Obligations.SignResult : Prop :=
  ∀ (s : State) (d a b : BReg) (z j : Nat), d ≠ b → MessageInteger s z → s.msgLen.toNat ≤ 4096 → 2 ≤ s.curveP →
    2 ≤ s.curveN → j < Config.signMaxAttempts →
    (∀ i, i < j → pmul s.curveP s.curveA s.curveG (nonceAt s i) = .ok .infinity ∨
      ∃ xi yi, pmul s.curveP s.curveA s.curveG (nonceAt s i) = .ok (.finite xi yi) ∧
        (xi % s.curveN = 0 ∨ ∃ ki, ki < s.curveN ∧ nonceAt s i * ki % s.curveN = 1 ∧
          ki * (z + xi % s.curveN * s.readBig a) % s.curveN = 0)) →
      (∀ x y kinv : Nat, pmul s.curveP s.curveA s.curveG (nonceAt s j) = .ok (.finite x y) → x % s.curveN ≠ 0 →
        kinv < s.curveN → nonceAt s j * kinv % s.curveN = 1 → kinv * (z + x % s.curveN * s.readBig a) % s.curveN ≠ 0 →
          ∃ t, exec (.sign d a b) s = .next t ∧ t.readBig d = x % s.curveN ∧
            t.readBig b = kinv * (z + x % s.curveN * s.readBig a) % s.curveN ∧
            t.rngCtr = s.rngCtr + BitVec.ofNat 64 (j + 1) ∧ Succeeded s t ∧ Frame [d, b] [] false 0 s t) ∧
        (((∃ e, pmul s.curveP s.curveA s.curveG (nonceAt s j) = .error e) ∨
            (∃ x y, pmul s.curveP s.curveA s.curveG (nonceAt s j) = .ok (.finite x y) ∧ x % s.curveN ≠ 0 ∧
              Nat.gcd (nonceAt s j) s.curveN ≠ 1)) →
          exec (.sign d a b) s = .next (failedState .uninvertible (j + 1) s))

/-- 44_signature.md R224, 60_exceptions.md R279: when every attempt is degenerate, `SIGN` ends with
`DEGENERATE_SIGNATURE` after `SIGN_MAX_ATTEMPTS` draws.  `z` is the digest of the message as an integer
(`MessageInteger`). -/
def Obligations.SignExhausted : Prop :=
  ∀ (s : State) (d a b : BReg) (z : Nat), d ≠ b → MessageInteger s z → s.msgLen.toNat ≤ 4096 → 2 ≤ s.curveP →
    2 ≤ s.curveN →
    (∀ i, i < Config.signMaxAttempts → pmul s.curveP s.curveA s.curveG (nonceAt s i) = .ok .infinity ∨
      ∃ xi yi, pmul s.curveP s.curveA s.curveG (nonceAt s i) = .ok (.finite xi yi) ∧
        (xi % s.curveN = 0 ∨ ∃ ki, ki < s.curveN ∧ nonceAt s i * ki % s.curveN = 1 ∧
          ki * (z + xi % s.curveN * s.readBig a) % s.curveN = 0)) →
      exec (.sign d a b) s = .next (failedState .degenerateSignature Config.signMaxAttempts s)

/-- On a curve with `p` and `n` prime, `SIGN` either writes a signature with `r` and `s` in `[1, n-1]` or ends with
`DEGENERATE_SIGNATURE`; it never reports `UNINVERTIBLE` (44_signature.md R222). -/
def Obligations.SignOnPrimes : Prop :=
  ∀ (s : State) (d a b : BReg), d ≠ b → s.msgLen.toNat ≤ 4096 → s.curveP.Prime → s.curveN.Prime →
    (∃ t n, exec (.sign d a b) s = .next t ∧ 1 ≤ t.readBig d ∧ t.readBig d ≤ s.curveN - 1 ∧ 1 ≤ t.readBig b ∧
        t.readBig b ≤ s.curveN - 1 ∧ 1 ≤ n ∧ n ≤ Config.signMaxAttempts ∧ t.rngCtr = s.rngCtr + BitVec.ofNat 64 n ∧
        Succeeded s t ∧ Frame [d, b] [] false 0 s t) ∨
      exec (.sign d a b) s = .next (failedState .degenerateSignature Config.signMaxAttempts s)

/-- 44_signature.md R227: `VERIFY` with `r` or `s` outside `[1, n-1]` ends with `VALID = 0` and
`DEGENERATE_SIGNATURE` before any arithmetic. -/
def Obligations.VerifyRange : Prop :=
  ∀ (s : State) (a b : BReg) (q : PReg), s.msgLen.toNat ≤ 4096 → 2 ≤ s.curveP → 2 ≤ s.curveN →
    (s.readBig a < 1 ∨ s.curveN - 1 < s.readBig a ∨ s.readBig b < 1 ∨ s.curveN - 1 < s.readBig b) →
      exec (.verify a b q) s = .next (failedState .degenerateSignature 0 s)

/-- 44_signature.md R220, R225, R226: `VERIFY` of an `r` and `s` in range.  With `s·w ≡ 1`, `u1 = z·w` and `u2 = r·w`
modulo `n`, it succeeds when `X = u1·G + u2·Q` exists, and sets `VALID` to whether `X` is finite with `X.x mod n = r`; an
invalid signature is no error, and nothing but `STATUS` is written.  It ends with `UNINVERTIBLE` when `s` has no inverse
modulo `n`, or when either multiple or the sum needs an inverse that does not exist (40_field.md R144).  On a curve
with `p` and `n` prime it always succeeds.  `z` is the digest of the message as an integer (`MessageInteger`). -/
def Obligations.VerifyResult : Prop :=
  ∀ (s : State) (a b : BReg) (q : PReg) (z : Nat), MessageInteger s z → s.msgLen.toNat ≤ 4096 → 2 ≤ s.curveP →
    2 ≤ s.curveN → 1 ≤ s.readBig a → s.readBig a ≤ s.curveN - 1 → 1 ≤ s.readBig b → s.readBig b ≤ s.curveN - 1 →
      (Nat.gcd (s.readBig b) s.curveN ≠ 1 → exec (.verify a b q) s = .next (failedState .uninvertible 0 s)) ∧
        (∀ w, w < s.curveN → (s.readBig b * w) % s.curveN = 1 →
          (∀ e, (pmul s.curveP s.curveA s.curveG (z * w % s.curveN) = .error e ∨
              ∃ x1, pmul s.curveP s.curveA s.curveG (z * w % s.curveN) = .ok x1 ∧
                (pmul s.curveP s.curveA (s.readPoint q) (s.readBig a * w % s.curveN) = .error e ∨
                  ∃ x2, pmul s.curveP s.curveA (s.readPoint q) (s.readBig a * w % s.curveN) = .ok x2 ∧
                    padd s.curveP s.curveA x1 x2 = .error e)) →
            exec (.verify a b q) s = .next (failedState .uninvertible 0 s)) ∧
          ∀ x1 x2 x, pmul s.curveP s.curveA s.curveG (z * w % s.curveN) = .ok x1 →
            pmul s.curveP s.curveA (s.readPoint q) (s.readBig a * w % s.curveN) = .ok x2 →
            padd s.curveP s.curveA x1 x2 = .ok x →
              ∃ v : Bool, (v = true ↔ ∃ xx xy, x = .finite xx xy ∧ xx % s.curveN = s.readBig a) ∧
                exec (.verify a b q) s =
                  .next { s with engine := .idle, status := ⟨true, v, s.status.overrun, .none⟩ }) ∧
        (s.curveP.Prime → s.curveN.Prime →
          ∃ (w : Nat) (x1 x2 x : Point) (v : Bool), w < s.curveN ∧ (s.readBig b * w) % s.curveN = 1 ∧
            pmul s.curveP s.curveA s.curveG (z * w % s.curveN) = .ok x1 ∧
            pmul s.curveP s.curveA (s.readPoint q) (s.readBig a * w % s.curveN) = .ok x2 ∧
            padd s.curveP s.curveA x1 x2 = .ok x ∧
            (v = true ↔ ∃ xx xy, x = .finite xx xy ∧ xx % s.curveN = s.readBig a) ∧
            exec (.verify a b q) s =
              .next { s with engine := .idle, status := ⟨true, v, s.status.overrun, .none⟩ })

/-! ### Cipher -/

/-- The keystream text (45_cipher.md R240): `hextext(x)` is the ASCII of the base-16 digits of `x`, most significant
first and without leading zeros, `"0"` for 0, in the case `KS_HEX_CASE`; byte `i` of the keystream is byte
`i mod len` of the text. -/
def Obligations.KeystreamText : Prop :=
  ∀ (hc : Config.HexCase) (x n i : Nat),
    (∃ ds : List Nat, ds ≠ [] ∧ hextext hc x = ds.map (hexByte hc) ∧ (∀ e ∈ ds, e < 16) ∧
        ds.foldl (fun v e => v * 16 + e) 0 = x ∧ (ds.head? = some 0 → ds = [0])) ∧
      (keystream hc x n).length = n ∧
      (i < n → (keystream hc x n).getD i 0#8 = (hextext hc x).getD (i % (hextext hc x).length) 0#8) ∧
      ((List.range 10).map (fun e => (hexByte hc e).toNat) = (List.range 10).map (fun e => 0x30 + e)) ∧
      ((List.range 6).map (fun e => (hexByte .lower (10 + e)).toNat) = (List.range 6).map (fun e => 0x61 + e)) ∧
      (List.range 6).map (fun e => (hexByte .upper (10 + e)).toNat) = (List.range 6).map (fun e => 0x41 + e)

/-- 45_cipher.md R242: `ENCRYPT` draws `k`, writes `R = k·G` to `P[FD]` (`PointWritten`) and `MSG[i] ^ keystream(S.x, L)[i]` to `OUT[i]` for
`i < L`, where `S = k·Q`, and writes nothing else; where `k·G` or `k·Q` needs an inverse that does not exist, it ends with
`UNINVERTIBLE` and keeps the draw (40_field.md R144). -/
def Obligations.EncryptResult : Prop :=
  ∀ (s : State) (d a : PReg), s.msgLen.toNat ≤ 4096 → 2 ≤ s.curveP → 2 ≤ s.curveN →
    (∀ (r : Point) (x y : Nat), s.out.wf = true → pmul s.curveP s.curveA s.curveG (nonceAt s 0) = .ok r →
      pmul s.curveP s.curveA (s.readPoint a) (nonceAt s 0) = .ok (.finite x y) →
        ∃ t, exec (.encrypt d a) s = .next t ∧ PointWritten t d r ∧
          (∀ i, i < s.msgLen.toNat → t.out.read i =
            s.msg.read i ^^^ (keystream Config.ksHexCase x s.msgLen.toNat).getD i 0#8) ∧
          t.rngCtr = s.rngCtr + 1#64 ∧ Succeeded s t ∧ Frame [] [d] false s.msgLen.toNat s t) ∧
      ∀ e, (pmul s.curveP s.curveA s.curveG (nonceAt s 0) = .error e ∨
          pmul s.curveP s.curveA (s.readPoint a) (nonceAt s 0) = .error e) →
        exec (.encrypt d a) s = .next (failedState .uninvertible 1 s)

/-- 45_cipher.md R243: `DECRYPT` writes `MSG[i] ^ keystream(S.x, L)[i]` to `OUT[i]` for `i < L`, where `S = d·R`, and
writes and draws nothing else; where `d·R` needs an inverse that does not exist, it ends with `UNINVERTIBLE`
(40_field.md R144). -/
def Obligations.DecryptResult : Prop :=
  ∀ (s : State) (a : BReg) (b : PReg), s.msgLen.toNat ≤ 4096 → 2 ≤ s.curveP →
    (∀ x y : Nat, s.out.wf = true → pmul s.curveP s.curveA (s.readPoint b) (s.readBig a) = .ok (.finite x y) →
      ∃ t, exec (.decrypt a b) s = .next t ∧
        (∀ i, i < s.msgLen.toNat → t.out.read i =
          s.msg.read i ^^^ (keystream Config.ksHexCase x s.msgLen.toNat).getD i 0#8) ∧
        t.rngCtr = s.rngCtr ∧ Succeeded s t ∧ Frame [] [] false s.msgLen.toNat s t) ∧
      ∀ e, pmul s.curveP s.curveA (s.readPoint b) (s.readBig a) = .error e →
        exec (.decrypt a b) s = .next (failedState .uninvertible 0 s)

/-- 45_cipher.md R244: a shared point at infinity ends `ENCRYPT` and `DECRYPT` with `INFINITY_POINT`; nothing is
written, and of `ENCRYPT` the draw is kept. -/
def Obligations.SharedPointAtInfinity : Prop :=
  ∀ (s : State) (d a : PReg) (k : BReg) (r : Point), s.msgLen.toNat ≤ 4096 → 2 ≤ s.curveP →
    (2 ≤ s.curveN → pmul s.curveP s.curveA s.curveG (nonceAt s 0) = .ok r →
      pmul s.curveP s.curveA (s.readPoint a) (nonceAt s 0) = .ok .infinity →
        exec (.encrypt d a) s = .next (failedState .infinityPoint 1 s)) ∧
      (pmul s.curveP s.curveA (s.readPoint a) (s.readBig k) = .ok .infinity →
        exec (.decrypt k a) s = .next (failedState .infinityPoint 0 s))

/-- The round trip of the cipher (45_cipher.md R245), given the Diffie-Hellman symmetry of the two shared points: an
`ENCRYPT` on `s`, then a `DECRYPT` on a state `u` that holds the ciphertext in `MSG`, the same `MSG_LEN`, and a key
and an ephemeral point whose product has the abscissa that `k·Q` had, gives the message back. -/
def Obligations.CipherRoundTrip : Prop :=
  ∀ (s t u v : State) (d a b : PReg) (k : BReg) (x y y' : Nat), s.out.wf = true → u.out.wf = true →
    exec (.encrypt d a) s = .next t → t.status.errcode = .none →
    pmul s.curveP s.curveA (s.readPoint a) (nonceAt s 0) = .ok (.finite x y) →
    u.msgLen = s.msgLen → (∀ i, i < s.msgLen.toNat → u.msg.read i = t.out.read i) →
    pmul u.curveP u.curveA (u.readPoint b) (u.readBig k) = .ok (.finite x y') → 2 ≤ u.curveP →
    exec (.decrypt k b) u = .next v →
      v.status.errcode = .none ∧ ∀ i, i < s.msgLen.toNat → v.out.read i = s.msg.read i
end

