-- ==== Sys2Proof/Laws/Memory.lean ====
section
/-! SUPPORT. What the buffer operations do: a read after a write, the canonical form and that every operation
keeps it, and that two canonical buffers with the same contents are equal. -/

namespace Sys2Proof.Machine

@[simp] theorem Memory.read_nil (i : Nat) : Memory.read [] i = Memory.unlisted := rfl

theorem Memory.read_cons (k : Nat) (v : Byte) (m : Memory) (i : Nat) :
    Memory.read ((k, v) :: m) i = if k = i then v else Memory.read m i := rfl

theorem Memory.wfFrom_cons {lo k : Nat} {v : Byte} {m : Memory} :
    Memory.wfFrom lo ((k, v) :: m) = true ↔
      lo ≤ k ∧ k < Config.msgBytes ∧ v ≠ Memory.unlisted ∧ Memory.wfFrom (k + 1) m = true := by
  simp [Memory.wfFrom, and_assoc]

theorem Memory.wfFrom_mono {lo lo' : Nat} {m : Memory} (h : Memory.wfFrom lo m = true) (hl : lo' ≤ lo) :
    Memory.wfFrom lo' m = true := by
  cases m with
  | nil => rfl
  | cons c m =>
    obtain ⟨k, v⟩ := c
    rw [Memory.wfFrom_cons] at h ⊢
    exact ⟨hl.trans h.1, h.2⟩

/-- Below the bound a canonical buffer lists nothing. -/
theorem Memory.read_below {lo i : Nat} {m : Memory} (h : Memory.wfFrom lo m = true) (hi : i < lo) :
    Memory.read m i = Memory.unlisted := by
  induction m generalizing lo with
  | nil => rfl
  | cons c m ih =>
    obtain ⟨k, v⟩ := c
    rw [Memory.wfFrom_cons] at h
    rw [Memory.read_cons, if_neg (by omega)]
    exact ih h.2.2.2 (by omega)

theorem Memory.read_consCell (k : Nat) (v : Byte) (m : Memory) (i : Nat)
    (h : Memory.read m k = Memory.unlisted) :
    Memory.read (Memory.consCell k v m) i = if k = i then v else Memory.read m i := by
  unfold Memory.consCell
  split
  · next hv => subst hv; split
               · next hk => subst hk; exact h
               · rfl
  · rfl

/-- A read after a write, of a canonical buffer: the value at the index written, the old byte elsewhere. -/
theorem Memory.read_write {lo : Nat} {m : Memory} (h : Memory.wfFrom lo m = true) (i : Nat) (v : Byte) (j : Nat) :
    Memory.read (Memory.write m i v) j = if i = j then v else Memory.read m j := by
  induction m generalizing lo with
  | nil => exact Memory.read_consCell i v [] j rfl
  | cons c m ih =>
    obtain ⟨k, w⟩ := c
    have hw := h
    rw [Memory.wfFrom_cons] at h
    unfold Memory.write
    split
    · next hik =>
      rw [Memory.read_consCell]
      exact Memory.read_below (lo := k) (Memory.wfFrom_cons.2 ⟨le_rfl, h.2⟩) hik
    · split
      · next hik =>
        subst hik
        rw [Memory.read_consCell _ _ _ _ (Memory.read_below h.2.2.2 (Nat.lt_succ_self _)), Memory.read_cons]
        split <;> rfl
      · next h1 h2 =>
        rw [Memory.read_cons, ih h.2.2.2, Memory.read_cons]
        split
        · next hk => subst hk; rw [if_neg h2]
        · rfl

theorem Memory.wfFrom_consCell {lo k : Nat} {v : Byte} {m : Memory} (hlo : lo ≤ k) (hk : k < Config.msgBytes)
    (h : Memory.wfFrom (k + 1) m = true) : Memory.wfFrom lo (Memory.consCell k v m) = true := by
  unfold Memory.consCell
  split
  · exact Memory.wfFrom_mono h (by omega)
  · next hv => exact Memory.wfFrom_cons.2 ⟨hlo, hk, hv, h⟩

theorem Memory.wfFrom_write {lo : Nat} {m : Memory} (h : Memory.wfFrom lo m = true) {i : Nat} (v : Byte)
    (hlo : lo ≤ i) (hi : i < Config.msgBytes) : Memory.wfFrom lo (Memory.write m i v) = true := by
  induction m generalizing lo with
  | nil => exact Memory.wfFrom_consCell hlo hi rfl
  | cons c m ih =>
    obtain ⟨k, w⟩ := c
    rw [Memory.wfFrom_cons] at h
    unfold Memory.write
    split
    · next hik => exact Memory.wfFrom_consCell hlo hi (Memory.wfFrom_cons.2 ⟨hik, h.2⟩)
    · split
      · next hik => subst hik; exact Memory.wfFrom_consCell hlo hi h.2.2.2
      · exact Memory.wfFrom_cons.2 ⟨h.1, h.2.1, h.2.2.1, ih h.2.2.2 (by omega)⟩

/-- A write of one byte inside the buffer keeps the canonical form. -/
theorem Memory.wf_write {m : Memory} (h : m.wf = true) {i : Nat} (v : Byte) (hi : i < Config.msgBytes) :
    (Memory.write m i v).wf = true :=
  Memory.wfFrom_write h v (Nat.zero_le i) hi

/-- A write of bytes inside the buffer keeps the canonical form. -/
theorem Memory.wf_writeBytes {m : Memory} (h : m.wf = true) {i : Nat} {bs : List Byte}
    (hi : i + bs.length ≤ Config.msgBytes) : (Memory.writeBytes m i bs).wf = true := by
  induction bs generalizing m i with
  | nil => exact h
  | cons b bs ih =>
    simp only [List.length_cons] at hi
    exact ih (Memory.wf_write h b (by omega)) (by omega)

/-- A read after a write of bytes inside the buffer. -/
theorem Memory.read_writeBytes {m : Memory} (h : m.wf = true) {i : Nat} {bs : List Byte}
    (hi : i + bs.length ≤ Config.msgBytes) (j : Nat) :
    Memory.read (Memory.writeBytes m i bs) j =
      if i ≤ j ∧ j < i + bs.length then bs.getD (j - i) 0#8 else Memory.read m j := by
  induction bs generalizing m i with
  | nil => rw [if_neg (by simp only [List.length_nil]; omega)]; rfl
  | cons b bs ih =>
    simp only [List.length_cons] at hi
    rw [Memory.writeBytes, ih (Memory.wf_write h b (by omega)) (by omega), Memory.read_write h]
    simp only [List.length_cons]
    by_cases hij : i = j
    · subst hij
      rw [if_neg (by omega), if_pos rfl, if_pos (by omega)]
      simp
    · rw [if_neg hij]
      by_cases hr : i + 1 ≤ j ∧ j < i + 1 + bs.length
      · rw [if_pos hr, if_pos (by omega)]
        obtain ⟨d, rfl⟩ : ∃ d, j = i + 1 + d := ⟨j - (i + 1), by omega⟩
        rw [show i + 1 + d - (i + 1) = d by omega, show i + 1 + d - i = d + 1 by omega]
        simp
      · rw [if_neg hr, if_neg (by omega)]

/-- A write leaves every other byte alone, whatever the form of the buffer. -/
theorem Memory.read_write_ne (m : Memory) {i j : Nat} (v : Byte) (hij : i ≠ j) :
    Memory.read (Memory.write m i v) j = Memory.read m j := by
  have cons : ∀ m' : Memory, Memory.read (Memory.consCell i v m') j = Memory.read m' j := fun m' => by
    unfold Memory.consCell
    split
    · rfl
    · rw [Memory.read_cons, if_neg hij]
  induction m with
  | nil => exact cons []
  | cons c m ih =>
    obtain ⟨k, w⟩ := c
    unfold Memory.write
    split
    · exact cons _
    · split
      · next hik => subst hik; rw [cons, Memory.read_cons, if_neg hij]
      · rw [Memory.read_cons, ih, Memory.read_cons]

/-- A write of bytes leaves every byte outside its range alone, whatever the form of the buffer. -/
theorem Memory.read_writeBytes_outside (m : Memory) {i j : Nat} (bs : List Byte) (h : j < i ∨ i + bs.length ≤ j) :
    Memory.read (Memory.writeBytes m i bs) j = Memory.read m j := by
  induction bs generalizing m i with
  | nil => rfl
  | cons b bs ih =>
    simp only [List.length_cons] at h
    rw [Memory.writeBytes, ih _ (by omega), Memory.read_write_ne _ _ (by omega)]

@[simp] theorem wordBytes_length (w : Word) : (wordBytes w).length = 4 := rfl

/-- A write of a word inside the buffer keeps the canonical form. -/
theorem Memory.wf_writeWord {m : Memory} (h : m.wf = true) {i : Nat} (w : Word) (hi : i + 4 ≤ Config.msgBytes) :
    (Memory.writeWord m i w).wf = true :=
  Memory.wf_writeBytes h hi

@[simp] theorem Memory.bytes_length (m : Memory) (i n : Nat) : (Memory.bytes m i n).length = n := by
  induction n generalizing i with
  | zero => rfl
  | succ n ih => simp [Memory.bytes, ih]

theorem Memory.bytes_getD (m : Memory) (i n j : Nat) (hj : j < n) :
    (Memory.bytes m i n).getD j 0#8 = Memory.read m (i + j) := by
  induction n generalizing i j with
  | zero => omega
  | succ n ih =>
    cases j with
    | zero => simp [Memory.bytes]
    | succ j =>
      have := ih (i + 1) j (by omega)
      simp only [Memory.bytes, List.getD_cons_succ]
      rw [this]; congr 1; omega

end Sys2Proof.Machine
end

