-- ==== Sys2Proof/Laws/State.lean ====
section
/-! SUPPORT. One lemma per field per update of the state, so that no later proof unfolds a record update. -/

namespace Sys2Proof.Machine

@[simp] theorem writeBig_big (s : State) (r : BReg) (v : Nat) : (s.writeBig r v).big = s.big.set r.val (BitVec.ofNat Config.W v) r.isLt := rfl
@[simp] theorem writeBig_point (s : State) (r : BReg) (v : Nat) : (s.writeBig r v).point = s.point := rfl
@[simp] theorem writeBig_pinf (s : State) (r : BReg) (v : Nat) : (s.writeBig r v).pinf = s.pinf := rfl
@[simp] theorem writeBig_curve (s : State) (r : BReg) (v : Nat) : (s.writeBig r v).curve = s.curve := rfl
@[simp] theorem writeBig_shaH (s : State) (r : BReg) (v : Nat) : (s.writeBig r v).shaH = s.shaH := rfl
@[simp] theorem writeBig_msg (s : State) (r : BReg) (v : Nat) : (s.writeBig r v).msg = s.msg := rfl
@[simp] theorem writeBig_out (s : State) (r : BReg) (v : Nat) : (s.writeBig r v).out = s.out := rfl
@[simp] theorem writeBig_msgLen (s : State) (r : BReg) (v : Nat) : (s.writeBig r v).msgLen = s.msgLen := rfl
@[simp] theorem writeBig_ctrl (s : State) (r : BReg) (v : Nat) : (s.writeBig r v).ctrl = s.ctrl := rfl
@[simp] theorem writeBig_status (s : State) (r : BReg) (v : Nat) : (s.writeBig r v).status = s.status := rfl
@[simp] theorem writeBig_seed (s : State) (r : BReg) (v : Nat) : (s.writeBig r v).seed = s.seed := rfl
@[simp] theorem writeBig_rngCtr (s : State) (r : BReg) (v : Nat) : (s.writeBig r v).rngCtr = s.rngCtr := rfl
@[simp] theorem writeBig_cmd (s : State) (r : BReg) (v : Nat) : (s.writeBig r v).cmd = s.cmd := rfl
@[simp] theorem writeBig_engine (s : State) (r : BReg) (v : Nat) : (s.writeBig r v).engine = s.engine := rfl
@[simp] theorem writeBig_bus (s : State) (r : BReg) (v : Nat) : (s.writeBig r v).bus = s.bus := rfl
@[simp] theorem writeBig_reads (s : State) (r : BReg) (v : Nat) : (s.writeBig r v).reads = s.reads := rfl
@[simp] theorem writeBig_freeCtr (s : State) (r : BReg) (v : Nat) : (s.writeBig r v).freeCtr = s.freeCtr := rfl

@[simp] theorem writePoint_big (s : State) (j : PReg) (q : Point) : (s.writePoint j q).big = s.big := by cases q <;> rfl
@[simp] theorem writePoint_curve (s : State) (j : PReg) (q : Point) : (s.writePoint j q).curve = s.curve := by cases q <;> rfl
@[simp] theorem writePoint_shaH (s : State) (j : PReg) (q : Point) : (s.writePoint j q).shaH = s.shaH := by cases q <;> rfl
@[simp] theorem writePoint_msg (s : State) (j : PReg) (q : Point) : (s.writePoint j q).msg = s.msg := by cases q <;> rfl
@[simp] theorem writePoint_out (s : State) (j : PReg) (q : Point) : (s.writePoint j q).out = s.out := by cases q <;> rfl
@[simp] theorem writePoint_msgLen (s : State) (j : PReg) (q : Point) : (s.writePoint j q).msgLen = s.msgLen := by cases q <;> rfl
@[simp] theorem writePoint_ctrl (s : State) (j : PReg) (q : Point) : (s.writePoint j q).ctrl = s.ctrl := by cases q <;> rfl
@[simp] theorem writePoint_status (s : State) (j : PReg) (q : Point) : (s.writePoint j q).status = s.status := by cases q <;> rfl
@[simp] theorem writePoint_seed (s : State) (j : PReg) (q : Point) : (s.writePoint j q).seed = s.seed := by cases q <;> rfl
@[simp] theorem writePoint_rngCtr (s : State) (j : PReg) (q : Point) : (s.writePoint j q).rngCtr = s.rngCtr := by cases q <;> rfl
@[simp] theorem writePoint_cmd (s : State) (j : PReg) (q : Point) : (s.writePoint j q).cmd = s.cmd := by cases q <;> rfl
@[simp] theorem writePoint_engine (s : State) (j : PReg) (q : Point) : (s.writePoint j q).engine = s.engine := by cases q <;> rfl
@[simp] theorem writePoint_bus (s : State) (j : PReg) (q : Point) : (s.writePoint j q).bus = s.bus := by cases q <;> rfl
@[simp] theorem writePoint_reads (s : State) (j : PReg) (q : Point) : (s.writePoint j q).reads = s.reads := by cases q <;> rfl
@[simp] theorem writePoint_freeCtr (s : State) (j : PReg) (q : Point) : (s.writePoint j q).freeCtr = s.freeCtr := by cases q <;> rfl

@[simp] theorem writeHash_big (s : State) (h : Vector Word 8) : (s.writeHash h).big = s.big := rfl
@[simp] theorem writeHash_point (s : State) (h : Vector Word 8) : (s.writeHash h).point = s.point := rfl
@[simp] theorem writeHash_pinf (s : State) (h : Vector Word 8) : (s.writeHash h).pinf = s.pinf := rfl
@[simp] theorem writeHash_curve (s : State) (h : Vector Word 8) : (s.writeHash h).curve = s.curve := rfl
@[simp] theorem writeHash_shaH (s : State) (h : Vector Word 8) : (s.writeHash h).shaH = h := rfl
@[simp] theorem writeHash_msg (s : State) (h : Vector Word 8) : (s.writeHash h).msg = s.msg := rfl
@[simp] theorem writeHash_out (s : State) (h : Vector Word 8) : (s.writeHash h).out = s.out := rfl
@[simp] theorem writeHash_msgLen (s : State) (h : Vector Word 8) : (s.writeHash h).msgLen = s.msgLen := rfl
@[simp] theorem writeHash_ctrl (s : State) (h : Vector Word 8) : (s.writeHash h).ctrl = s.ctrl := rfl
@[simp] theorem writeHash_status (s : State) (h : Vector Word 8) : (s.writeHash h).status = s.status := rfl
@[simp] theorem writeHash_seed (s : State) (h : Vector Word 8) : (s.writeHash h).seed = s.seed := rfl
@[simp] theorem writeHash_rngCtr (s : State) (h : Vector Word 8) : (s.writeHash h).rngCtr = s.rngCtr := rfl
@[simp] theorem writeHash_cmd (s : State) (h : Vector Word 8) : (s.writeHash h).cmd = s.cmd := rfl
@[simp] theorem writeHash_engine (s : State) (h : Vector Word 8) : (s.writeHash h).engine = s.engine := rfl
@[simp] theorem writeHash_bus (s : State) (h : Vector Word 8) : (s.writeHash h).bus = s.bus := rfl
@[simp] theorem writeHash_reads (s : State) (h : Vector Word 8) : (s.writeHash h).reads = s.reads := rfl
@[simp] theorem writeHash_freeCtr (s : State) (h : Vector Word 8) : (s.writeHash h).freeCtr = s.freeCtr := rfl

@[simp] theorem writeOut_big (s : State) (bs : List Byte) : (s.writeOut bs).big = s.big := rfl
@[simp] theorem writeOut_point (s : State) (bs : List Byte) : (s.writeOut bs).point = s.point := rfl
@[simp] theorem writeOut_pinf (s : State) (bs : List Byte) : (s.writeOut bs).pinf = s.pinf := rfl
@[simp] theorem writeOut_curve (s : State) (bs : List Byte) : (s.writeOut bs).curve = s.curve := rfl
@[simp] theorem writeOut_shaH (s : State) (bs : List Byte) : (s.writeOut bs).shaH = s.shaH := rfl
@[simp] theorem writeOut_msg (s : State) (bs : List Byte) : (s.writeOut bs).msg = s.msg := rfl
@[simp] theorem writeOut_out (s : State) (bs : List Byte) : (s.writeOut bs).out = Memory.writeBytes s.out 0 bs := rfl
@[simp] theorem writeOut_msgLen (s : State) (bs : List Byte) : (s.writeOut bs).msgLen = s.msgLen := rfl
@[simp] theorem writeOut_ctrl (s : State) (bs : List Byte) : (s.writeOut bs).ctrl = s.ctrl := rfl
@[simp] theorem writeOut_status (s : State) (bs : List Byte) : (s.writeOut bs).status = s.status := rfl
@[simp] theorem writeOut_seed (s : State) (bs : List Byte) : (s.writeOut bs).seed = s.seed := rfl
@[simp] theorem writeOut_rngCtr (s : State) (bs : List Byte) : (s.writeOut bs).rngCtr = s.rngCtr := rfl
@[simp] theorem writeOut_cmd (s : State) (bs : List Byte) : (s.writeOut bs).cmd = s.cmd := rfl
@[simp] theorem writeOut_engine (s : State) (bs : List Byte) : (s.writeOut bs).engine = s.engine := rfl
@[simp] theorem writeOut_bus (s : State) (bs : List Byte) : (s.writeOut bs).bus = s.bus := rfl
@[simp] theorem writeOut_reads (s : State) (bs : List Byte) : (s.writeOut bs).reads = s.reads := rfl
@[simp] theorem writeOut_freeCtr (s : State) (bs : List Byte) : (s.writeOut bs).freeCtr = s.freeCtr := rfl

@[simp] theorem writeValid_big (s : State) (v : Bool) : (s.writeValid v).big = s.big := rfl
@[simp] theorem writeValid_point (s : State) (v : Bool) : (s.writeValid v).point = s.point := rfl
@[simp] theorem writeValid_pinf (s : State) (v : Bool) : (s.writeValid v).pinf = s.pinf := rfl
@[simp] theorem writeValid_curve (s : State) (v : Bool) : (s.writeValid v).curve = s.curve := rfl
@[simp] theorem writeValid_shaH (s : State) (v : Bool) : (s.writeValid v).shaH = s.shaH := rfl
@[simp] theorem writeValid_msg (s : State) (v : Bool) : (s.writeValid v).msg = s.msg := rfl
@[simp] theorem writeValid_out (s : State) (v : Bool) : (s.writeValid v).out = s.out := rfl
@[simp] theorem writeValid_msgLen (s : State) (v : Bool) : (s.writeValid v).msgLen = s.msgLen := rfl
@[simp] theorem writeValid_ctrl (s : State) (v : Bool) : (s.writeValid v).ctrl = s.ctrl := rfl
@[simp] theorem writeValid_status (s : State) (v : Bool) : (s.writeValid v).status = { s.status with valid := v } := rfl
@[simp] theorem writeValid_seed (s : State) (v : Bool) : (s.writeValid v).seed = s.seed := rfl
@[simp] theorem writeValid_rngCtr (s : State) (v : Bool) : (s.writeValid v).rngCtr = s.rngCtr := rfl
@[simp] theorem writeValid_cmd (s : State) (v : Bool) : (s.writeValid v).cmd = s.cmd := rfl
@[simp] theorem writeValid_engine (s : State) (v : Bool) : (s.writeValid v).engine = s.engine := rfl
@[simp] theorem writeValid_bus (s : State) (v : Bool) : (s.writeValid v).bus = s.bus := rfl
@[simp] theorem writeValid_reads (s : State) (v : Bool) : (s.writeValid v).reads = s.reads := rfl
@[simp] theorem writeValid_freeCtr (s : State) (v : Bool) : (s.writeValid v).freeCtr = s.freeCtr := rfl

@[simp] theorem complete_big (s : State) : (complete s).big = s.big := rfl
@[simp] theorem complete_point (s : State) : (complete s).point = s.point := rfl
@[simp] theorem complete_pinf (s : State) : (complete s).pinf = s.pinf := rfl
@[simp] theorem complete_curve (s : State) : (complete s).curve = s.curve := rfl
@[simp] theorem complete_shaH (s : State) : (complete s).shaH = s.shaH := rfl
@[simp] theorem complete_msg (s : State) : (complete s).msg = s.msg := rfl
@[simp] theorem complete_out (s : State) : (complete s).out = s.out := rfl
@[simp] theorem complete_msgLen (s : State) : (complete s).msgLen = s.msgLen := rfl
@[simp] theorem complete_ctrl (s : State) : (complete s).ctrl = s.ctrl := rfl
@[simp] theorem complete_status (s : State) : (complete s).status = s.status.succeeded := rfl
@[simp] theorem complete_seed (s : State) : (complete s).seed = s.seed := rfl
@[simp] theorem complete_rngCtr (s : State) : (complete s).rngCtr = s.rngCtr := rfl
@[simp] theorem complete_cmd (s : State) : (complete s).cmd = s.cmd := rfl
@[simp] theorem complete_engine (s : State) : (complete s).engine = .idle := rfl
@[simp] theorem complete_bus (s : State) : (complete s).bus = s.bus := rfl
@[simp] theorem complete_reads (s : State) : (complete s).reads = s.reads := rfl
@[simp] theorem complete_freeCtr (s : State) : (complete s).freeCtr = s.freeCtr := rfl

@[simp] theorem takeError_big (e : ErrCode) (s : State) : (takeError e s).big = s.big := rfl
@[simp] theorem takeError_point (e : ErrCode) (s : State) : (takeError e s).point = s.point := rfl
@[simp] theorem takeError_pinf (e : ErrCode) (s : State) : (takeError e s).pinf = s.pinf := rfl
@[simp] theorem takeError_curve (e : ErrCode) (s : State) : (takeError e s).curve = s.curve := rfl
@[simp] theorem takeError_shaH (e : ErrCode) (s : State) : (takeError e s).shaH = s.shaH := rfl
@[simp] theorem takeError_msg (e : ErrCode) (s : State) : (takeError e s).msg = s.msg := rfl
@[simp] theorem takeError_out (e : ErrCode) (s : State) : (takeError e s).out = s.out := rfl
@[simp] theorem takeError_msgLen (e : ErrCode) (s : State) : (takeError e s).msgLen = s.msgLen := rfl
@[simp] theorem takeError_ctrl (e : ErrCode) (s : State) : (takeError e s).ctrl = s.ctrl := rfl
@[simp] theorem takeError_status (e : ErrCode) (s : State) : (takeError e s).status = s.status.failed e := rfl
@[simp] theorem takeError_seed (e : ErrCode) (s : State) : (takeError e s).seed = s.seed := rfl
@[simp] theorem takeError_rngCtr (e : ErrCode) (s : State) : (takeError e s).rngCtr = s.rngCtr := rfl
@[simp] theorem takeError_cmd (e : ErrCode) (s : State) : (takeError e s).cmd = s.cmd := rfl
@[simp] theorem takeError_engine (e : ErrCode) (s : State) : (takeError e s).engine = .idle := rfl
@[simp] theorem takeError_bus (e : ErrCode) (s : State) : (takeError e s).bus = s.bus := rfl
@[simp] theorem takeError_reads (e : ErrCode) (s : State) : (takeError e s).reads = s.reads := rfl
@[simp] theorem takeError_freeCtr (e : ErrCode) (s : State) : (takeError e s).freeCtr = s.freeCtr := rfl

@[simp] theorem accept_big (c : Word) (s : State) : (accept c s).big = s.big := rfl
@[simp] theorem accept_point (c : Word) (s : State) : (accept c s).point = s.point := rfl
@[simp] theorem accept_pinf (c : Word) (s : State) : (accept c s).pinf = s.pinf := rfl
@[simp] theorem accept_curve (c : Word) (s : State) : (accept c s).curve = s.curve := rfl
@[simp] theorem accept_shaH (c : Word) (s : State) : (accept c s).shaH = s.shaH := rfl
@[simp] theorem accept_msg (c : Word) (s : State) : (accept c s).msg = s.msg := rfl
@[simp] theorem accept_out (c : Word) (s : State) : (accept c s).out = s.out := rfl
@[simp] theorem accept_msgLen (c : Word) (s : State) : (accept c s).msgLen = s.msgLen := rfl
@[simp] theorem accept_ctrl (c : Word) (s : State) : (accept c s).ctrl = s.ctrl := rfl
@[simp] theorem accept_status (c : Word) (s : State) : (accept c s).status = s.status.accepted := rfl
@[simp] theorem accept_seed (c : Word) (s : State) : (accept c s).seed = s.seed := rfl
@[simp] theorem accept_rngCtr (c : Word) (s : State) : (accept c s).rngCtr = s.rngCtr := rfl
@[simp] theorem accept_cmd (c : Word) (s : State) : (accept c s).cmd = c := rfl
@[simp] theorem accept_engine (c : Word) (s : State) : (accept c s).engine = .busy c := rfl
@[simp] theorem accept_bus (c : Word) (s : State) : (accept c s).bus = s.bus := rfl
@[simp] theorem accept_reads (c : Word) (s : State) : (accept c s).reads = s.reads := rfl
@[simp] theorem accept_freeCtr (c : Word) (s : State) : (accept c s).freeCtr = s.freeCtr := rfl

@[simp] theorem overrun_big (s : State) : (overrun s).big = s.big := rfl
@[simp] theorem overrun_point (s : State) : (overrun s).point = s.point := rfl
@[simp] theorem overrun_pinf (s : State) : (overrun s).pinf = s.pinf := rfl
@[simp] theorem overrun_curve (s : State) : (overrun s).curve = s.curve := rfl
@[simp] theorem overrun_shaH (s : State) : (overrun s).shaH = s.shaH := rfl
@[simp] theorem overrun_msg (s : State) : (overrun s).msg = s.msg := rfl
@[simp] theorem overrun_out (s : State) : (overrun s).out = s.out := rfl
@[simp] theorem overrun_msgLen (s : State) : (overrun s).msgLen = s.msgLen := rfl
@[simp] theorem overrun_ctrl (s : State) : (overrun s).ctrl = s.ctrl := rfl
@[simp] theorem overrun_status (s : State) : (overrun s).status = { s.status with overrun := true } := rfl
@[simp] theorem overrun_seed (s : State) : (overrun s).seed = s.seed := rfl
@[simp] theorem overrun_rngCtr (s : State) : (overrun s).rngCtr = s.rngCtr := rfl
@[simp] theorem overrun_cmd (s : State) : (overrun s).cmd = s.cmd := rfl
@[simp] theorem overrun_engine (s : State) : (overrun s).engine = s.engine := rfl
@[simp] theorem overrun_bus (s : State) : (overrun s).bus = s.bus := rfl
@[simp] theorem overrun_reads (s : State) : (overrun s).reads = s.reads := rfl
@[simp] theorem overrun_freeCtr (s : State) : (overrun s).freeCtr = s.freeCtr := rfl

@[simp] theorem draw_big (lo hi : Nat) (s : State) : (draw lo hi s).2.big = s.big := rfl
@[simp] theorem draw_point (lo hi : Nat) (s : State) : (draw lo hi s).2.point = s.point := rfl
@[simp] theorem draw_pinf (lo hi : Nat) (s : State) : (draw lo hi s).2.pinf = s.pinf := rfl
@[simp] theorem draw_curve (lo hi : Nat) (s : State) : (draw lo hi s).2.curve = s.curve := rfl
@[simp] theorem draw_shaH (lo hi : Nat) (s : State) : (draw lo hi s).2.shaH = s.shaH := rfl
@[simp] theorem draw_msg (lo hi : Nat) (s : State) : (draw lo hi s).2.msg = s.msg := rfl
@[simp] theorem draw_out (lo hi : Nat) (s : State) : (draw lo hi s).2.out = s.out := rfl
@[simp] theorem draw_msgLen (lo hi : Nat) (s : State) : (draw lo hi s).2.msgLen = s.msgLen := rfl
@[simp] theorem draw_ctrl (lo hi : Nat) (s : State) : (draw lo hi s).2.ctrl = s.ctrl := rfl
@[simp] theorem draw_status (lo hi : Nat) (s : State) : (draw lo hi s).2.status = s.status := rfl
@[simp] theorem draw_seed (lo hi : Nat) (s : State) : (draw lo hi s).2.seed = s.seed := rfl
@[simp] theorem draw_rngCtr (lo hi : Nat) (s : State) : (draw lo hi s).2.rngCtr = s.rngCtr + 1#64 := rfl
@[simp] theorem draw_cmd (lo hi : Nat) (s : State) : (draw lo hi s).2.cmd = s.cmd := rfl
@[simp] theorem draw_engine (lo hi : Nat) (s : State) : (draw lo hi s).2.engine = s.engine := rfl
@[simp] theorem draw_bus (lo hi : Nat) (s : State) : (draw lo hi s).2.bus = s.bus := rfl
@[simp] theorem draw_reads (lo hi : Nat) (s : State) : (draw lo hi s).2.reads = s.reads := rfl
@[simp] theorem draw_freeCtr (lo hi : Nat) (s : State) : (draw lo hi s).2.freeCtr = s.freeCtr := rfl

@[simp] theorem writeSeed_big (v : BitVec 64) (s : State) : (writeSeed v s).big = s.big := rfl
@[simp] theorem writeSeed_point (v : BitVec 64) (s : State) : (writeSeed v s).point = s.point := rfl
@[simp] theorem writeSeed_pinf (v : BitVec 64) (s : State) : (writeSeed v s).pinf = s.pinf := rfl
@[simp] theorem writeSeed_curve (v : BitVec 64) (s : State) : (writeSeed v s).curve = s.curve := rfl
@[simp] theorem writeSeed_shaH (v : BitVec 64) (s : State) : (writeSeed v s).shaH = s.shaH := rfl
@[simp] theorem writeSeed_msg (v : BitVec 64) (s : State) : (writeSeed v s).msg = s.msg := rfl
@[simp] theorem writeSeed_out (v : BitVec 64) (s : State) : (writeSeed v s).out = s.out := rfl
@[simp] theorem writeSeed_msgLen (v : BitVec 64) (s : State) : (writeSeed v s).msgLen = s.msgLen := rfl
@[simp] theorem writeSeed_ctrl (v : BitVec 64) (s : State) : (writeSeed v s).ctrl = s.ctrl := rfl
@[simp] theorem writeSeed_status (v : BitVec 64) (s : State) : (writeSeed v s).status = s.status := rfl
@[simp] theorem writeSeed_seed (v : BitVec 64) (s : State) : (writeSeed v s).seed = v := rfl
@[simp] theorem writeSeed_rngCtr (v : BitVec 64) (s : State) : (writeSeed v s).rngCtr = 0#64 := rfl
@[simp] theorem writeSeed_cmd (v : BitVec 64) (s : State) : (writeSeed v s).cmd = s.cmd := rfl
@[simp] theorem writeSeed_engine (v : BitVec 64) (s : State) : (writeSeed v s).engine = s.engine := rfl
@[simp] theorem writeSeed_bus (v : BitVec 64) (s : State) : (writeSeed v s).bus = s.bus := rfl
@[simp] theorem writeSeed_reads (v : BitVec 64) (s : State) : (writeSeed v s).reads = s.reads := rfl
@[simp] theorem writeSeed_freeCtr (v : BitVec 64) (s : State) : (writeSeed v s).freeCtr = s.freeCtr := rfl

@[simp] theorem dropEvent_big (s : State) : (dropEvent s).big = s.big := rfl
@[simp] theorem dropEvent_point (s : State) : (dropEvent s).point = s.point := rfl
@[simp] theorem dropEvent_pinf (s : State) : (dropEvent s).pinf = s.pinf := rfl
@[simp] theorem dropEvent_curve (s : State) : (dropEvent s).curve = s.curve := rfl
@[simp] theorem dropEvent_shaH (s : State) : (dropEvent s).shaH = s.shaH := rfl
@[simp] theorem dropEvent_msg (s : State) : (dropEvent s).msg = s.msg := rfl
@[simp] theorem dropEvent_out (s : State) : (dropEvent s).out = s.out := rfl
@[simp] theorem dropEvent_msgLen (s : State) : (dropEvent s).msgLen = s.msgLen := rfl
@[simp] theorem dropEvent_ctrl (s : State) : (dropEvent s).ctrl = s.ctrl := rfl
@[simp] theorem dropEvent_status (s : State) : (dropEvent s).status = s.status := rfl
@[simp] theorem dropEvent_seed (s : State) : (dropEvent s).seed = s.seed := rfl
@[simp] theorem dropEvent_rngCtr (s : State) : (dropEvent s).rngCtr = s.rngCtr := rfl
@[simp] theorem dropEvent_cmd (s : State) : (dropEvent s).cmd = s.cmd := rfl
@[simp] theorem dropEvent_engine (s : State) : (dropEvent s).engine = s.engine := rfl
@[simp] theorem dropEvent_bus (s : State) : (dropEvent s).bus = s.bus.tail := rfl
@[simp] theorem dropEvent_reads (s : State) : (dropEvent s).reads = s.reads := rfl
@[simp] theorem dropEvent_freeCtr (s : State) : (dropEvent s).freeCtr = s.freeCtr := rfl

@[simp] theorem returnWord_big (v : Word) (s : State) : (returnWord v s).big = s.big := rfl
@[simp] theorem returnWord_point (v : Word) (s : State) : (returnWord v s).point = s.point := rfl
@[simp] theorem returnWord_pinf (v : Word) (s : State) : (returnWord v s).pinf = s.pinf := rfl
@[simp] theorem returnWord_curve (v : Word) (s : State) : (returnWord v s).curve = s.curve := rfl
@[simp] theorem returnWord_shaH (v : Word) (s : State) : (returnWord v s).shaH = s.shaH := rfl
@[simp] theorem returnWord_msg (v : Word) (s : State) : (returnWord v s).msg = s.msg := rfl
@[simp] theorem returnWord_out (v : Word) (s : State) : (returnWord v s).out = s.out := rfl
@[simp] theorem returnWord_msgLen (v : Word) (s : State) : (returnWord v s).msgLen = s.msgLen := rfl
@[simp] theorem returnWord_ctrl (v : Word) (s : State) : (returnWord v s).ctrl = s.ctrl := rfl
@[simp] theorem returnWord_status (v : Word) (s : State) : (returnWord v s).status = s.status := rfl
@[simp] theorem returnWord_seed (v : Word) (s : State) : (returnWord v s).seed = s.seed := rfl
@[simp] theorem returnWord_rngCtr (v : Word) (s : State) : (returnWord v s).rngCtr = s.rngCtr := rfl
@[simp] theorem returnWord_cmd (v : Word) (s : State) : (returnWord v s).cmd = s.cmd := rfl
@[simp] theorem returnWord_engine (v : Word) (s : State) : (returnWord v s).engine = s.engine := rfl
@[simp] theorem returnWord_bus (v : Word) (s : State) : (returnWord v s).bus = s.bus := rfl
@[simp] theorem returnWord_reads (v : Word) (s : State) : (returnWord v s).reads = v :: s.reads := rfl
@[simp] theorem returnWord_freeCtr (v : Word) (s : State) : (returnWord v s).freeCtr = s.freeCtr := rfl

end Sys2Proof.Machine
end

