-- ==== Sys2Proof/Laws/Registers.lean ====
section
/-! SUPPORT. The parameters' bounds, and what reading a register gives after a write of a register. -/

namespace Sys2Proof

/-- `W` is between 256 and 512 (00_scope.md R6). -/
theorem Config.W_bounds : 256 ≤ Config.W ∧ Config.W ≤ 512 := by
  have := Config.widthStep.isLt
  unfold Config.W
  omega

/-- `W` is a multiple of 32 (00_scope.md R6). -/
theorem Config.W_mod : Config.W % 32 = 0 := by
  unfold Config.W
  omega

theorem Config.lt_two_pow_W {v : Nat} (h : v < 2 ^ 256) : v < 2 ^ Config.W :=
  h.trans_le (Nat.pow_le_pow_right (by decide) Config.W_bounds.1)

theorem Config.signMaxAttempts_pos : 1 ≤ Config.signMaxAttempts := Nat.succ_pos _

/-- A draw is in the range asked for (00_scope.md R7). -/
theorem Config.rng_range (seed idx : BitVec 64) {lo hi : Nat} (h : lo ≤ hi) :
    lo ≤ Config.rng seed idx lo hi ∧ Config.rng seed idx lo hi ≤ hi := by
  have : Config.rngChoice seed idx lo hi % (hi - lo + 1) < hi - lo + 1 := Nat.mod_lt _ (Nat.succ_pos _)
  unfold Config.rng
  omega

namespace Machine

theorem State.readBig_lt (s : State) (r : BReg) : s.readBig r < 2 ^ Config.W := BitVec.isLt _

theorem State.readBig_writeBig (s : State) (r r' : BReg) {v : Nat} (hv : v < 2 ^ Config.W) :
    (s.writeBig r v).readBig r' = if r = r' then v else s.readBig r' := by
  simp only [State.readBig, writeBig_big, Vector.getElem_set, Fin.ext_iff]
  split
  · simp [Nat.mod_eq_of_lt hv]
  · rfl

theorem State.readBig_writeBig_ne (s : State) {r r' : BReg} (v : Nat) (h : r ≠ r') :
    (s.writeBig r v).readBig r' = s.readBig r' := by
  simp only [State.readBig, writeBig_big, Vector.getElem_set]
  rw [if_neg (fun e => h (Fin.ext e))]

@[simp] theorem setTag_getElem (v : BitVec 8) (j k : PReg) (b : Bool) :
    (setTag v j b)[k.val] = if j = k then b else v[k.val] := by
  have hk := k.isLt
  unfold setTag
  by_cases h : j = k
  · subst h
    cases b <;> simp
  · have hv : j.val ≠ k.val := fun e => h (Fin.ext e)
    cases b <;> simp [h] <;> omega

theorem State.readPoint_congr {s t : State} {j : PReg} (hx : t.point[j.val] = s.point[j.val])
    (ht : t.pinf[j.val] = s.pinf[j.val]) : t.readPoint j = s.readPoint j := by
  simp only [State.readPoint, hx, ht]

/-- The coordinates of a point fit in a point register. -/
def Point.fits : Point → Prop
  | .infinity => True
  | .finite x y => x < 2 ^ Config.W ∧ y < 2 ^ Config.W

theorem State.readPoint_fits (s : State) (j : PReg) : (s.readPoint j).fits := by
  unfold State.readPoint
  split
  · trivial
  · exact ⟨BitVec.isLt _, BitVec.isLt _⟩

theorem State.readPoint_writePoint (s : State) (j : PReg) {q : Point} (hq : q.fits) :
    (s.writePoint j q).readPoint j = q := by
  cases q with
  | infinity => simp [State.readPoint, State.writePoint]
  | finite x y => simp [State.readPoint, State.writePoint, Nat.mod_eq_of_lt hq.1, Nat.mod_eq_of_lt hq.2]

theorem State.writePoint_other (s : State) {j k : PReg} (q : Point) (h : j ≠ k) :
    (s.writePoint j q).point[k.val] = s.point[k.val] ∧
      (s.writePoint j q).pinf[k.val] = s.pinf[k.val] := by
  have hv : j.val ≠ k.val := fun e => h (Fin.ext e)
  cases q <;> simp [State.writePoint, h, hv]

@[simp] theorem State.message_length (s : State) : s.message.length = s.msgLen.toNat := Memory.bytes_length _ _ _

end Machine

end Sys2Proof
end

