-- ==== Sys2Proof/Laws/Field.lean ====
section
/-! SUPPORT. What the floor modulo, the extended GCD and the inverse compute (00_scope.md R9, 40_field.md R142),
and what the point adder's helpers answer. -/

namespace Sys2Proof.Machine

theorem floorMod_lt (x : Int) {m : Nat} (hm : 0 < m) : floorMod x m < m := by
  have := Int.emod_nonneg x (b := (m : Int)) (by omega)
  have := Int.emod_lt_of_pos x (b := (m : Int)) (by omega)
  unfold floorMod
  omega

theorem floorMod_cast (x : Int) {m : Nat} (hm : 0 < m) : ((floorMod x m : Nat) : Int) = x % (m : Int) := by
  have := Int.emod_nonneg x (b := (m : Int)) (by omega)
  unfold floorMod
  omega

/-- The floor modulo is congruent to its argument. -/
theorem floorMod_modEq (x : Int) {m : Nat} (hm : 0 < m) : ((floorMod x m : Nat) : Int) ≡ x [ZMOD m] := by
  rw [floorMod_cast x hm]
  exact Int.mod_modEq x m

@[simp] theorem floorMod_natCast (x m : Nat) : floorMod (x : Int) m = x % m := by
  unfold floorMod
  omega

/-- The loop of the extended GCD returns the gcd and keeps the congruence its coefficients carry. -/
theorem egcdLoop_spec (a b : Int) :
    ∀ (fuel r0 r1 : Nat) (s0 s1 : Int), r1 < fuel → s0 * a ≡ r0 [ZMOD b] → s1 * a ≡ r1 [ZMOD b] →
      (egcdLoop fuel r0 r1 s0 s1).1 = Nat.gcd r0 r1 ∧
        (egcdLoop fuel r0 r1 s0 s1).2 * a ≡ ((egcdLoop fuel r0 r1 s0 s1).1 : Nat) [ZMOD b]
  | 0, _, _, _, _, h, _, _ => absurd h (Nat.not_lt_zero _)
  | fuel + 1, r0, r1, s0, s1, h, h0, h1 => by
    unfold egcdLoop
    by_cases hr : r1 = 0
    · subst hr
      simpa using h0
    · rw [if_neg hr]
      have hq : r0 - r0 / r1 * r1 = r0 % r1 := by
        have := Nat.div_add_mod r0 r1
        rw [Nat.mul_comm] at this
        omega
      have hlt : r0 % r1 < r1 := Nat.mod_lt _ (by omega)
      have hstep : (s0 - ((r0 / r1 : Nat) : Int) * s1) * a ≡ ((r0 % r1 : Nat) : Int) [ZMOD b] := by
        have e : ((r0 % r1 : Nat) : Int) = r0 - ((r0 / r1 : Nat) : Int) * r1 := by
          have := Nat.div_add_mod r0 r1
          rw [Nat.mul_comm] at this
          have h' : (r0 : Int) = ((r0 / r1 : Nat) : Int) * r1 + ((r0 % r1 : Nat) : Int) := by exact_mod_cast this.symm
          omega
        rw [e, sub_mul, mul_assoc]
        exact h0.sub (h1.mul_left _)
      rw [hq]
      have ih := egcdLoop_spec a b fuel r1 (r0 % r1) s1 _ (by omega) h1 hstep
      refine ⟨?_, ih.2⟩
      rw [ih.1, Nat.gcd_comm r1, ← Nat.gcd_rec, Nat.gcd_comm]

/-- `extended_gcd(a, b)` gives the gcd and the coefficient of `a` (40_field.md R142). -/
theorem extendedGcd_spec (a b : Nat) :
    (extendedGcd a b).1 = Nat.gcd a b ∧ (extendedGcd a b).2 * a ≡ (Nat.gcd a b : Nat) [ZMOD b] := by
  have h := egcdLoop_spec (a : Int) (b : Int) (b + 1) a b 1 0 (Nat.lt_succ_self b) (by simp)
    (by rw [zero_mul]; exact (Int.modEq_zero_iff_dvd.2 dvd_rfl).symm)
  unfold extendedGcd
  exact ⟨h.1, h.1 ▸ h.2⟩

theorem gcd_floorMod (x : Int) {m : Nat} (hm : 0 < m) : Nat.gcd (floorMod x m) m = Int.gcd x m := by
  have : Int.gcd ((floorMod x m : Nat) : Int) m = Int.gcd x m := by
    rw [floorMod_cast x hm, Int.emod_def, mul_comm]
    exact Int.gcd_sub_mul_right_left ..
  simpa using this

/-- The inverse raises `UNINVERTIBLE` exactly when its arguments are not coprime (40_field.md R142). -/
theorem inv_error {x : Int} {m : Nat} (hm : 0 < m) (h : Int.gcd x m ≠ 1) : inv x m = .error .uninvertible := by
  have h1 : (extendedGcd (floorMod x m) m).1 ≠ 1 := by
    rwa [(extendedGcd_spec _ _).1, gcd_floorMod x hm]
  exact if_neg h1

/-- The inverse of coprime arguments: the one number below `m` whose product with `x` is 1 modulo `m`
(40_field.md R142). -/
theorem inv_ok {x : Int} {m : Nat} (hm : 1 < m) (h : Int.gcd x m = 1) :
    ∃ y, inv x m = .ok y ∧ 1 ≤ y ∧ y < m ∧ x * y ≡ 1 [ZMOD m] := by
  have hs := extendedGcd_spec (floorMod x m) m
  rw [gcd_floorMod x (by omega), h] at hs
  have hc : x * (floorMod (extendedGcd (floorMod x m) m).2 m : Nat) ≡ 1 [ZMOD m] := by
    rw [mul_comm]
    calc _ ≡ (extendedGcd (floorMod x m) m).2 * (floorMod x m : Nat) [ZMOD m] :=
          (floorMod_modEq _ (by omega)).mul (floorMod_modEq x (by omega)).symm
      _ ≡ _ [ZMOD m] := hs.2
  refine ⟨_, if_pos hs.1, ?_, floorMod_lt _ (by omega), hc⟩
  rcases Nat.eq_zero_or_pos (floorMod (extendedGcd (floorMod x m) m).2 m) with h0 | h0
  · rw [h0] at hc
    have := Int.emod_emod_of_dvd 0 (dvd_refl (m : Int))
    have h1 : (0 : Int) % m = 1 % m := by simpa [Int.ModEq] using hc
    rw [Int.zero_emod, Int.emod_eq_of_lt (by omega) (by omega)] at h1
    omega
  · exact h0

/-- Modulo `m`, the inverse answers exactly the residue whose product with `x` is 1 (40_field.md R142). -/
theorem inv_natCast_iff {x m y : Nat} (hm : 1 < m) : inv (x : Int) m = .ok y ↔ y < m ∧ x * y % m = 1 := by
  have one : ∀ z, x * z ≡ 1 [MOD m] ↔ x * z % m = 1 := fun z => by rw [Nat.ModEq, Nat.mod_eq_of_lt hm]
  constructor
  · intro h
    by_cases hg : Int.gcd (x : Int) m = 1
    · obtain ⟨z, hz, -, hlt, hc⟩ := inv_ok hm hg
      rw [hz] at h
      cases h
      exact ⟨hlt, (one y).1 (Int.natCast_modEq_iff.1 (by exact_mod_cast hc))⟩
    · rw [inv_error (by omega) hg] at h
      cases h
  · rintro ⟨hlt, h1⟩
    have hc := (one y).2 h1
    have hg : Nat.gcd x m = 1 := Nat.coprime_of_mul_modEq_one y hc
    obtain ⟨z, hz, -, hz', hcz⟩ := inv_ok hm (by rw [Int.gcd_natCast_natCast]; exact hg : Int.gcd (x : Int) m = 1)
    have hcz : x * z ≡ 1 [MOD m] := Int.natCast_modEq_iff.1 (by exact_mod_cast hcz)
    rw [hz, Nat.ModEq.eq_of_lt_of_lt (Nat.ModEq.cancel_left_of_coprime (by rw [Nat.gcd_comm]; exact hg)
      (hcz.trans hc.symm)) hz' hlt]

/-- The inverse answers a number below the modulus, or `UNINVERTIBLE`. -/
theorem inv_cases (x : Int) {m : Nat} (hm : 1 < m) :
    (∃ y, inv x m = .ok y ∧ y < m) ∨ inv x m = .error .uninvertible := by
  by_cases h : Int.gcd x m = 1
  · obtain ⟨y, hy, -, hlt, -⟩ := inv_ok hm h
    exact .inl ⟨y, hy, hlt⟩
  · exact .inr (inv_error (by omega) h)

/-- The number of bits without leading zeros, as the library counts it (00_scope.md R8). -/
theorem bitlen_eq_size (k : Nat) : bitlen k = Nat.size k := by
  unfold bitlen
  split
  · next h => simp [h]
  · next h => exact le_antisymm (Nat.lt_size.2 (Nat.log2_self_le h)) (Nat.size_le.2 Nat.lt_log2_self)

/-- The radix of the Montgomery multiplier has an inverse for every odd modulus (40_field.md R137). -/
theorem inv_radix {w m : Nat} (hm : 1 < m) (hodd : m % 2 = 1) :
    ∃ y, inv ((2 ^ w : Nat) : Int) m = .ok y ∧ 1 ≤ y ∧ y < m ∧ ((2 ^ w : Nat) : Int) * y ≡ 1 [ZMOD m] :=
  inv_ok hm (by
    rw [Int.gcd_natCast_natCast]
    exact Nat.Coprime.pow_left w (Nat.coprime_two_left.2 (Nat.odd_iff.2 hodd)))

/-- The coordinates of a point are below `p`. -/
def Point.below (p : Nat) : Point → Prop
  | .infinity => True
  | .finite x y => x < p ∧ y < p

theorem normalise_below {p : Nat} (hp : 0 < p) (q : Point) : (normalise p q).below p := by
  cases q with
  | infinity => trivial
  | finite x y => exact ⟨Nat.mod_lt _ hp, Nat.mod_lt _ hp⟩

/-- A normalised point is its own normal form. -/
theorem normalise_of_below {p : Nat} {q : Point} (h : q.below p) : normalise p q = q := by
  cases q with
  | infinity => rfl
  | finite x y => simp [normalise, Nat.mod_eq_of_lt h.1, Nat.mod_eq_of_lt h.2]

theorem lineResult_below {p : Nat} (hp : 0 < p) (sl x1 y1 x2 : Nat) : (lineResult p sl x1 y1 x2).below p :=
  ⟨floorMod_lt _ hp, floorMod_lt _ hp⟩

/-- All the point adder can do: a normalised point, or `UNINVERTIBLE` (41_curve.md R161). -/
theorem padd_cases {p : Nat} (hp : 1 < p) (a : Nat) (P Q : Point) :
    (∃ R, padd p a P Q = .ok R ∧ R.below p) ∨ padd p a P Q = .error .uninvertible := by
  have hP := normalise_below (show 0 < p by omega) P
  have hQ := normalise_below (show 0 < p by omega) Q
  unfold padd
  generalize normalise p P = P' at hP ⊢
  generalize normalise p Q = Q' at hQ ⊢
  cases P' with
  | infinity => exact .inl ⟨Q', rfl, hQ⟩
  | finite x1 y1 =>
    cases Q' with
    | infinity => exact .inl ⟨_, rfl, hP⟩
    | finite x2 y2 =>
      rw [addNormalised]
      split
      · unfold tangent
        split
        · exact .inl ⟨_, rfl, trivial⟩
        · rcases inv_cases ((2 * y1 : Nat) : Int) hp with ⟨i, hi, -⟩ | hi <;> rw [hi]
          · exact .inl ⟨_, rfl, lineResult_below (by omega) _ _ _ _⟩
          · exact .inr rfl
      · split
        · exact .inl ⟨_, rfl, trivial⟩
        · unfold chord
          rcases inv_cases ((x2 : Int) - (x1 : Int)) hp with ⟨i, hi, -⟩ | hi <;> rw [hi]
          · exact .inl ⟨_, rfl, lineResult_below (by omega) _ _ _ _⟩
          · exact .inr rfl

/-- All the loop of the scalar multiplier can do, started on a normalised running result. -/
theorem pmulLoop_cases {p : Nat} (hp : 1 < p) (a : Nat) :
    ∀ (i k : Nat) (racc t : Point), racc.below p →
      (∃ R, pmulLoop p a i k racc t = .ok R ∧ R.below p) ∨ pmulLoop p a i k racc t = .error .uninvertible
  | 0, _, racc, _, h => .inl ⟨racc, rfl, h⟩
  | i + 1, k, racc, t, h => by
    have hadd : (∃ R, (if k % 2 = 1 then padd p a racc t else .ok racc) = .ok R ∧ R.below p) ∨
        (if k % 2 = 1 then padd p a racc t else .ok racc) = .error .uninvertible := by
      split
      · exact padd_cases hp a racc t
      · exact .inl ⟨racc, rfl, h⟩
    unfold pmulLoop
    rcases hadd with ⟨R, hR, hRb⟩ | hR <;> rw [hR]
    · rcases padd_cases hp a t t with ⟨T, hT, -⟩ | hT <;> rw [hT]
      · exact pmulLoop_cases hp a i (k / 2) R T hRb
      · exact .inr rfl
    · exact .inr rfl

/-- All the scalar multiplier can do: a normalised point, or `UNINVERTIBLE` (41_curve.md R169). -/
theorem pmul_cases {p : Nat} (hp : 1 < p) (a : Nat) (P : Point) (k : Nat) :
    (∃ R, pmul p a P k = .ok R ∧ R.below p) ∨ pmul p a P k = .error .uninvertible :=
  pmulLoop_cases hp a (bitlen k) k .infinity (normalise p P) trivial

/-- A point with coordinates below a modulus held in a curve register fits in a point register. -/
theorem Point.fits_of_below {s : State} {q : Point} (h : q.below s.curveP) : q.fits := by
  cases q with
  | infinity => trivial
  | finite x y => exact ⟨h.1.trans (BitVec.isLt _), h.2.trans (BitVec.isLt _)⟩

end Sys2Proof.Machine
end

