-- ==== Sys2Proof/Laws/Curve.lean ====
section
/-! SUPPORT. The curve arithmetic over a prime never needs an inverse that does not exist. -/

namespace Sys2Proof.Machine

/-- Modulo a prime, every number that is not 0 modulo it has an inverse. -/
theorem inv_prime {p : Nat} (hp : p.Prime) {x : Int} (hx : ¬ (p : Int) ∣ x) :
    ∃ y, inv x p = .ok y ∧ 1 ≤ y ∧ y < p ∧ x * y ≡ 1 [ZMOD p] := by
  refine inv_ok hp.one_lt ?_
  rw [Int.gcd_comm]
  exact Int.isCoprime_iff_gcd_eq_one.1 ((Nat.prime_iff_prime_int.1 hp).coprime_iff_not_dvd.2 hx)

/-- Modulo a prime, every number in `[1, p - 1]` has an inverse. -/
theorem inv_prime_nat {p : Nat} (hp : p.Prime) {x : Nat} (h1 : 1 ≤ x) (h2 : x < p) :
    ∃ y, inv (x : Int) p = .ok y ∧ 1 ≤ y ∧ y < p ∧ (x : Int) * y ≡ 1 [ZMOD p] :=
  inv_prime hp fun h => by
    have := Nat.le_of_dvd h1 (Int.natCast_dvd_natCast.1 h)
    omega

/-- Two different residues differ by no multiple of the modulus. -/
theorem not_dvd_sub {p x y : Nat} (hx : x < p) (hy : y < p) (h : x ≠ y) : ¬ (p : Int) ∣ (y : Int) - (x : Int) := by
  rintro ⟨k, hk⟩
  have hk0 : k = 0 := by
    by_contra hne
    rcases lt_or_gt_of_ne hne with h1 | h1
    · nlinarith [show k ≤ -1 by omega]
    · nlinarith [show 1 ≤ k by omega]
  rw [hk0] at hk
  omega

/-- Over a prime every doubling succeeds. -/
theorem tangent_prime {p : Nat} (hp : p.Prime) (a x1 y1 : Nat) : ∃ R, tangent p a x1 y1 = .ok R := by
  unfold tangent
  split
  · exact ⟨_, rfl⟩
  · next h =>
    obtain ⟨i, hi, -⟩ := inv_prime hp (x := ((2 * y1 : Nat) : Int)) fun hd =>
      h (Nat.mod_eq_zero_of_dvd (Int.natCast_dvd_natCast.1 hd))
    rw [hi]
    exact ⟨_, rfl⟩

/-- Over a prime every chord of two points of different abscissas exists. -/
theorem chord_prime {p : Nat} (hp : p.Prime) {x1 x2 : Nat} (y1 y2 : Nat) (h1 : x1 < p) (h2 : x2 < p) (h : x1 ≠ x2) :
    ∃ R, chord p x1 y1 x2 y2 = .ok R := by
  obtain ⟨i, hi, -⟩ := inv_prime hp (not_dvd_sub h1 h2 h)
  unfold chord
  rw [hi]
  exact ⟨_, rfl⟩

/-- Over a prime the point adder always succeeds, with a normalised point. -/
theorem padd_prime {p : Nat} (hp : p.Prime) (a : Nat) (P Q : Point) : ∃ R, padd p a P Q = .ok R ∧ R.below p := by
  have hP := normalise_below hp.pos P
  have hQ := normalise_below hp.pos Q
  rcases padd_cases hp.one_lt a P Q with h | h
  · exact h
  · exfalso
    unfold padd at h
    generalize normalise p P = P' at hP h
    generalize normalise p Q = Q' at hQ h
    cases P' with
    | infinity => cases h
    | finite x1 y1 =>
      cases Q' with
      | infinity => cases h
      | finite x2 y2 =>
        rw [addNormalised] at h
        split at h
        · obtain ⟨R, hR⟩ := tangent_prime hp a x1 y1
          rw [hR] at h
          cases h
        · split at h
          · cases h
          · next hne =>
            obtain ⟨R, hR⟩ := chord_prime hp y1 y2 hP.1 hQ.1 hne
            rw [hR] at h
            cases h

/-- Over a prime the loop of the scalar multiplier always succeeds. -/
theorem pmulLoop_prime {p : Nat} (hp : p.Prime) (a : Nat) :
    ∀ (i k : Nat) (racc t : Point), racc.below p → ∃ R, pmulLoop p a i k racc t = .ok R ∧ R.below p
  | 0, _, racc, _, h => ⟨racc, rfl, h⟩
  | i + 1, k, racc, t, h => by
    have hadd : ∃ R, (if k % 2 = 1 then padd p a racc t else .ok racc) = .ok R ∧ R.below p := by
      split
      · exact padd_prime hp a racc t
      · exact ⟨racc, rfl, h⟩
    obtain ⟨R, hR, hRb⟩ := hadd
    obtain ⟨T, hT, -⟩ := padd_prime hp a t t
    unfold pmulLoop
    rw [hR]
    dsimp only
    rw [hT]
    exact pmulLoop_prime hp a i (k / 2) R T hRb

/-- Over a prime the scalar multiplier always succeeds, with a normalised point. -/
theorem pmul_prime {p : Nat} (hp : p.Prime) (a : Nat) (P : Point) (k : Nat) :
    ∃ R, pmul p a P k = .ok R ∧ R.below p :=
  pmulLoop_prime hp a (bitlen k) k .infinity (normalise p P) trivial

end Sys2Proof.Machine
end

