-- ==== Sys2Proof/Laws/Ops.lean ====
section
/-! SUPPORT. One lemma for each shared operation of the machine, saying once everything it can do. -/

namespace Sys2Proof.Machine

@[simp] theorem conclude_ok {α : Type} (v : α) (f : α → State → State) (s : State) :
    conclude (.ok v) f s = .next (complete (f v s)) := rfl

@[simp] theorem conclude_error {α : Type} (e : ErrCode) (f : α → State → State) (s : State) :
    conclude (.error e : Except ErrCode α) f s = .next (takeError e s) := rfl

/-- The engine's commit always completes: with the command's writes, or as an error. -/
theorem conclude_cases {α : Type} (r : Except ErrCode α) (f : α → State → State) (s : State) :
    (∃ v, r = .ok v ∧ conclude r f s = .next (complete (f v s))) ∨
      (∃ e, r = .error e ∧ conclude r f s = .next (takeError e s)) := by
  cases r with
  | ok v => exact .inl ⟨v, rfl, rfl⟩
  | error e => exact .inr ⟨e, rfl, rfl⟩

/-- An error without draws, written as the statements write it. -/
theorem takeError_eq (e : ErrCode) (s : State) : takeError e s = failedState e 0 s := by
  simp [takeError, failedState, Status.failed]

/-- A draw of a nonce: a number in `[1, n - 1]`, and nothing but `RNG_CTR` changed. -/
theorem keydraw_spec {n : Nat} (hn : 2 ≤ n) (s : State) :
    1 ≤ (keydraw n s).1 ∧ (keydraw n s).1 ≤ n - 1 ∧ (keydraw n s).2 = { s with rngCtr := s.rngCtr + 1#64 } :=
  ⟨(Config.rng_range _ _ (by omega)).1, (Config.rng_range _ _ (by omega)).2, rfl⟩

/-- One attempt of the signer gives both parts of the signature in `[1, n - 1]`. -/
theorem signAttempt_range {c : CurveValues} {z d k r s : Nat} (hn : 0 < c.n)
    (h : signAttempt c z d k = .ok (some (r, s))) : 1 ≤ r ∧ r < c.n ∧ 1 ≤ s ∧ s < c.n := by
  unfold signAttempt at h
  split at h
  · cases h
  · cases h
  · dsimp only at h
    split at h
    · cases h
    · next hr =>
      split at h
      · cases h
      · split at h
        · cases h
        · next hs =>
          cases h
          exact ⟨by omega, Nat.mod_lt _ hn, by omega, Nat.mod_lt _ hn⟩

/-- All the signing loop can do to the state: it makes at most its number of draws, and nothing else. -/
theorem signLoop_state (c : CurveValues) (z d : Nat) :
    ∀ (n : Nat) (s : State), ∃ j, j ≤ n ∧ (signLoop c z d n s).2 = { s with rngCtr := s.rngCtr + BitVec.ofNat 64 j }
  | 0, s => ⟨0, le_rfl, by simp [signLoop]⟩
  | n + 1, s => by
    have one : { s with rngCtr := s.rngCtr + 1#64 } = { s with rngCtr := s.rngCtr + BitVec.ofNat 64 1 } := rfl
    unfold signLoop
    dsimp only
    split
    · exact ⟨1, by omega, one⟩
    · obtain ⟨j, hj, he⟩ := signLoop_state c z d n (keydraw c.n s).2
      refine ⟨j + 1, by omega, he.trans ?_⟩
      simp only [keydraw, draw, BitVec.ofNat_add, BitVec.add_assoc, BitVec.add_comm (BitVec.ofNat 64 j)]
    · exact ⟨1, by omega, one⟩

/-- All the signing loop can answer: a signature in range, or an error. -/
theorem signLoop_range {c : CurveValues} (hn : 0 < c.n) (z d : Nat) :
    ∀ (n : Nat) (s : State) (r q : Nat), (signLoop c z d n s).1 = .ok (r, q) →
      1 ≤ r ∧ r < c.n ∧ 1 ≤ q ∧ q < c.n
  | 0, _, _, _, h => by cases h
  | n + 1, s, r, q, h => by
    unfold signLoop at h
    dsimp only at h
    split at h
    · cases h
    · exact signLoop_range hn z d n _ r q h
    · next heq =>
      cases h
      exact signAttempt_range hn heq

@[simp] theorem hexByte_lower (d : Nat) (h : d < 10) (hc : Config.HexCase) :
    hexByte hc d = BitVec.ofNat 8 (0x30 + d) := if_pos h

@[simp] theorem keystream_length (hc : Config.HexCase) (x n : Nat) : (keystream hc x n).length = n := by
  simp [keystream]

@[simp] theorem cipherBytes_length (hc : Config.HexCase) (x : Nat) (ms : List Byte) :
    (cipherBytes hc x ms).length = ms.length := by
  simp [cipherBytes, xorBytes]

/-- The final addition of a compression (43_hash.md R195). -/
theorem compress_of_rounds {h : Vector Word 8} {bs : List Byte} {v : ShaWork} (hv : v = shaRounds h bs) :
    compress h bs = #v[h[0] + v.a, h[1] + v.b, h[2] + v.c, h[3] + v.d, h[4] + v.e, h[5] + v.f, h[6] + v.g, h[7] + v.h] := by
  subst hv
  exact Eq.refl (compress h bs)

/-- The schedule has 64 words (43_hash.md R193). -/
theorem extendSchedule_length : ∀ (n : Nat) (ws : List Word), (extendSchedule n ws).length = n + ws.length
  | 0, ws => (Nat.zero_add _).symm
  | n + 1, ws => by
    rw [extendSchedule, extendSchedule_length n, List.length_cons]
    omega

theorem schedule_length (bs : List Byte) : (schedule bs).length = 64 := by
  rw [schedule, List.length_reverse, extendSchedule_length, List.length_reverse, List.length_map, List.length_range]

/-- The zeros of the padding: the least number that makes the length `56 mod 64` (43_hash.md R196). -/
theorem padZeros_spec (n : Nat) : (n + 1 + padZeros n) % 64 = 56 ∧ padZeros n < 64 := by
  unfold padZeros
  omega

theorem pad_length (m : List Byte) : (pad m).length = m.length + 1 + padZeros m.length + 8 := by
  simp [pad, bytes64]
  omega

/-- A defined access answers what it wraps (20_memory.md R66). -/
theorem checkedAccess_defined {off width : Nat} (ho : off < 0x4000) (hw : width = 4) (ha : off % 4 = 0) (r : Result) :
    checkedAccess off width r = r := by
  unfold checkedAccess
  rw [if_neg (by simp only [Config.windowBytes]; omega), if_neg (by omega)]

/-- The offset of a bus address of the window (20_memory.md R60). -/
@[simp] theorem windowOffset_busAddress (off : Nat) : windowOffset (busAddress off) = off := by
  simp [windowOffset, busAddress]

/-- A step that has an event applies it to the state without it. -/
theorem step_event {s : State} {e : BusEvent} {rest : List BusEvent} (h : s.bus = e :: rest) :
    step s = applyEvent e { s with bus := rest } := by
  simp only [step, h]
  congr 1
  simp [dropEvent, h]

/-- A step that has no event is the engine's turn. -/
theorem step_no_event {s : State} (h : s.bus = []) : step s = engineStep s := by
  simp only [step, h]

/-- The engine's turn performs the command it holds. -/
theorem engineStep_busy {s : State} {c : Word} (h : s.engine = .busy c) : engineStep s = performCommand c s := by
  simp only [engineStep, h]

theorem engineStep_idle {s : State} (h : s.engine = .idle) : engineStep s = .next s := by
  simp only [engineStep, h]

end Sys2Proof.Machine
end

