-- ==== Sys2Proof/Laws/Exec.lean ====
section
/-! SUPPORT. What a command can do, said once for all of them: it ends in an error, with nothing written but
`STATUS` and the draws made, or it completes with the writes of its own kind. -/

namespace Sys2Proof.Machine

/-- The state with `n` draws made. -/
def drawn (n : Nat) (s : State) : State := { s with rngCtr := s.rngCtr + BitVec.ofNat 64 n }

@[simp] theorem drawn_zero (s : State) : drawn 0 s = s := by simp [drawn]

theorem takeError_drawn (e : ErrCode) (n : Nat) (s : State) : takeError e (drawn n s) = failedState e n s := by
  simp [takeError, drawn, failedState, Status.failed]

/-- Which error a command can end in, and after how many draws (60_exceptions.md R272, R276). -/
def MayFail : Instr → ErrCode → Nat → Prop
  | .nop, _, _ => False
  | .modred _ _ _, e, n => e = .malformedInput ∧ n = 0
  | .modadd _ _ _ _, e, n => e = .malformedInput ∧ n = 0
  | .modsub _ _ _ _, e, n => e = .malformedInput ∧ n = 0
  | .modmul _ _ _ _, e, n => e = .malformedInput ∧ n = 0
  | .montmul _ _ _ _, e, n => e = .malformedInput ∧ n = 0
  | .montr2 _ _, e, n => e = .malformedInput ∧ n = 0
  | .modinv _ _ _, e, n => (e = .malformedInput ∨ e = .uninvertible) ∧ n = 0
  | .padd _ _ _, e, n => (e = .malformedInput ∨ e = .uninvertible) ∧ n = 0
  | .pdbl _ _, e, n => (e = .malformedInput ∨ e = .uninvertible) ∧ n = 0
  | .pmul _ _ _, e, n => (e = .malformedInput ∨ e = .uninvertible) ∧ n = 0
  | .keygen _, e, n => e = .malformedInput ∧ n = 0
  | .pubkey _ _, e, n => (e = .malformedInput ∨ e = .uninvertible) ∧ n = 0
  | .shainit, _, _ => False
  | .shablk _, e, n => e = .malformedInput ∧ n = 0
  | .shahash _, e, n => e = .malformedInput ∧ n = 0
  | .sign fd _ fb, e, n =>
    (e = .illegalCommand ∧ fd = fb ∧ n = 0) ∨ (e = .malformedInput ∧ n = 0) ∨
      ((e = .uninvertible ∨ e = .degenerateSignature) ∧ n ≤ Config.signMaxAttempts)
  | .verify _ _ _, e, n => (e = .malformedInput ∨ e = .degenerateSignature ∨ e = .uninvertible) ∧ n = 0
  | .encrypt _ _, e, n => (e = .malformedInput ∧ n = 0) ∨ ((e = .uninvertible ∨ e = .infinityPoint) ∧ n = 1)
  | .decrypt _ _, e, n => (e = .malformedInput ∨ e = .uninvertible ∨ e = .infinityPoint) ∧ n = 0

/-- The state with the writes of a command that succeeds, by kind. -/
def MayWrite (s : State) : Instr → State → Prop
  | .nop, u => u = s
  | .modred fd _ _, u => ∃ v, u = s.writeBig fd v
  | .modadd fd _ _ _, u => ∃ v, u = s.writeBig fd v
  | .modsub fd _ _ _, u => ∃ v, u = s.writeBig fd v
  | .modmul fd _ _ _, u => ∃ v, u = s.writeBig fd v
  | .montmul fd _ _ _, u => ∃ v, u = s.writeBig fd v
  | .montr2 fd _, u => ∃ v, u = s.writeBig fd v
  | .modinv fd _ _, u => ∃ v, u = s.writeBig fd v
  | .padd fd _ _, u => ∃ q, u = s.writePoint fd q
  | .pdbl fd _, u => ∃ q, u = s.writePoint fd q
  | .pmul fd _ _, u => ∃ q, u = s.writePoint fd q
  | .keygen fd, u => ∃ v, u = (drawn 1 s).writeBig fd v
  | .pubkey fd _, u => ∃ q, u = s.writePoint fd q
  | .shainit, u => ∃ h, u = s.writeHash h
  | .shablk _, u => ∃ h, u = s.writeHash h
  | .shahash fd, u => ∃ h v, u = (s.writeHash h).writeBig fd v
  | .sign fd _ fb, u => ∃ n r q, n ≤ Config.signMaxAttempts ∧ u = ((drawn n s).writeBig fd r).writeBig fb q
  | .verify _ _ _, u => ∃ v, u = s.writeValid v
  | .encrypt fd _, u => s.msgLen.toNat ≤ Config.msgBytes ∧
      ∃ bs q, bs.length = s.msgLen.toNat ∧ u = ((drawn 1 s).writeOut bs).writePoint fd q
  | .decrypt _ _, u => s.msgLen.toNat ≤ Config.msgBytes ∧
      ∃ bs, bs.length = s.msgLen.toNat ∧ u = s.writeOut bs

/-- The two ends of a command. -/
def Ends (i : Instr) (s : State) (r : Result) : Prop :=
  (∃ e n, r = .next (failedState e n s) ∧ MayFail i e n) ∨ ∃ u, r = .next (complete u) ∧ MayWrite s i u

theorem Ends.failed {i : Instr} {s : State} {e : ErrCode} (h : MayFail i e 0) : Ends i s (.next (takeError e s)) :=
  .inl ⟨e, 0, by rw [takeError_eq], h⟩

theorem Ends.failedDrawn {i : Instr} {s : State} {e : ErrCode} (n : Nat) (h : MayFail i e n) :
    Ends i s (.next (takeError e (drawn n s))) :=
  .inl ⟨e, n, by rw [takeError_drawn], h⟩

theorem Ends.completed {i : Instr} {s u : State} (h : MayWrite s i u) : Ends i s (.next (complete u)) :=
  .inr ⟨u, rfl, h⟩

/-- A commit ends as its command may, if its errors and its writes do. -/
theorem Ends.conclude {α : Type} {i : Instr} {s : State} {r : Except ErrCode α} {f : α → State → State} (n : Nat)
    (he : ∀ e, r = .error e → MayFail i e n) (hw : ∀ v, r = .ok v → MayWrite s i (f v (drawn n s))) :
    Ends i s (Machine.conclude r f (drawn n s)) := by
  cases r with
  | ok v => exact Ends.completed (hw v rfl)
  | error e => exact Ends.failedDrawn n (he e rfl)

theorem pmul_error {p : Nat} (hp : 1 < p) {a k : Nat} {P : Point} {e : ErrCode} (h : pmul p a P k = .error e) :
    e = .uninvertible := by
  rcases pmul_cases hp a P k with ⟨R, hR, -⟩ | hR <;> rw [hR] at h <;> cases h
  rfl

theorem padd_error {p : Nat} (hp : 1 < p) {a : Nat} {P Q : Point} {e : ErrCode} (h : padd p a P Q = .error e) :
    e = .uninvertible := by
  rcases padd_cases hp a P Q with ⟨R, hR, -⟩ | hR <;> rw [hR] at h <;> cases h
  rfl

theorem inv_error_code {x : Int} {m : Nat} (hm : 1 < m) {e : ErrCode} (h : inv x m = .error e) : e = .uninvertible := by
  rcases inv_cases x hm with ⟨y, hy, -⟩ | hy <;> rw [hy] at h <;> cases h
  rfl

theorem pointAdd_error {p a : Nat} {P Q : Point} {e : ErrCode} (h : pointAdd p a P Q = .error e) :
    e = .malformedInput ∨ e = .uninvertible := by
  unfold pointAdd at h
  split at h
  · cases h; exact .inl rfl
  · exact .inr (padd_error (by omega) h)

theorem pointMul_error {p a k : Nat} {P : Point} {e : ErrCode} (h : pointMul p a P k = .error e) :
    e = .malformedInput ∨ e = .uninvertible := by
  unfold pointMul at h
  split at h
  · cases h; exact .inl rfl
  · exact .inr (pmul_error (by omega) h)

theorem sharedSecret_error {p : Nat} (hp : 1 < p) {a k : Nat} {P : Point} {e : ErrCode}
    (h : sharedSecret p a P k = .error e) : e = .uninvertible ∨ e = .infinityPoint := by
  unfold sharedSecret at h
  split at h
  · next hm => cases h; exact .inl (pmul_error hp hm)
  · cases h; exact .inr rfl
  · cases h

theorem encryptPoints_error {p : Nat} (hp : 1 < p) {a k : Nat} {G Q : Point} {e : ErrCode}
    (h : encryptPoints p a G Q k = .error e) : e = .uninvertible ∨ e = .infinityPoint := by
  unfold encryptPoints at h
  split at h
  · next hm => cases h; exact .inl (pmul_error hp hm)
  · split at h
    · next hm => cases h; exact sharedSecret_error hp hm
    · cases h

theorem montMul_error {w x y m : Nat} {e : ErrCode} (h : montMul w x y m = .error e) : e = .malformedInput := by
  unfold montMul at h
  split at h
  · cases h; rfl
  · split at h
    · cases h; rfl
    · next h2 h0 =>
      obtain ⟨i, hi, -⟩ := inv_radix (w := w) (m := m) (by omega) (by omega)
      rw [hi] at h
      cases h

theorem signAttempt_error {c : CurveValues} (hp : 1 < c.p) (hn : 1 < c.n) {z d k : Nat} {e : ErrCode}
    (h : signAttempt c z d k = .error e) : e = .uninvertible := by
  unfold signAttempt at h
  split at h
  · next hm => cases h; exact pmul_error hp hm
  · cases h
  · dsimp only at h
    split at h
    · cases h
    · split at h
      · next hi => cases h; exact inv_error_code hn hi
      · split at h <;> cases h

theorem signLoop_error {c : CurveValues} (hp : 1 < c.p) (hn : 1 < c.n) (z d : Nat) :
    ∀ (n : Nat) (s : State) (e : ErrCode), (signLoop c z d n s).1 = .error e →
      e = .uninvertible ∨ e = .degenerateSignature
  | 0, _, _, h => by cases h; exact .inr rfl
  | n + 1, s, e, h => by
    unfold signLoop at h
    dsimp only at h
    split at h
    · next hm => cases h; exact .inl (signAttempt_error hp hn hm)
    · exact signLoop_error hp hn z d n _ e h
    · cases h

theorem verifySignature_error {c : CurveValues} (hp : 1 < c.p) (hn : 1 < c.n) {z r s : Nat} {q : Point} {e : ErrCode}
    (h : verifySignature c z r s q = .error e) : e = .degenerateSignature ∨ e = .uninvertible := by
  unfold verifySignature at h
  split at h
  · cases h; exact .inl rfl
  · split at h
    · next hm => cases h; exact .inr (inv_error_code hn hm)
    · split at h
      · next hm => cases h; exact .inr (pmul_error hp hm)
      · split at h
        · next hm => cases h; exact .inr (pmul_error hp hm)
        · split at h
          · next hm => cases h; exact .inr (padd_error hp hm)
          · cases h

/-- What `signatureCheck` answers (44_signature.md R220). -/
theorem signatureCheck_cases (s : State) :
    (signatureCheck s = some .malformedInput) ∨
      (signatureCheck s = none ∧ s.msgLen.toNat ≤ Config.msgBytes ∧ 1 < s.curveP ∧ 1 < s.curveN) := by
  unfold signatureCheck
  split
  · exact .inl rfl
  · split
    · exact .inl rfl
    · exact .inr ⟨rfl, by omega, by omega, by omega⟩

/-- What every command can do. -/
theorem exec_ends (i : Instr) (s : State) : Ends i s (exec i s) := by
  have whole : ∀ {α : Type} (r : Except ErrCode α) (f : α → State → State),
      (∀ e, r = .error e → MayFail i e 0) → (∀ v, r = .ok v → MayWrite s i (f v s)) → Ends i s (conclude r f s) :=
    fun r f he hw => by simpa using Ends.conclude (i := i) (s := s) (r := r) (f := f) 0 he (by simpa using hw)
  cases i with
  | nop => exact Ends.completed rfl
  | modred fd fa fc =>
    change Ends _ _ (execModred fd fa fc s)
    unfold execModred
    refine whole _ _ (fun e h => ?_) fun v _ => ⟨v, rfl⟩
    unfold modRed at h; split at h <;> cases h; exact ⟨rfl, rfl⟩
  | modadd fd fa fb fc =>
    change Ends _ _ (execModadd fd fa fb fc s)
    unfold execModadd
    refine whole _ _ (fun e h => ?_) fun v _ => ⟨v, rfl⟩
    unfold modAdd at h; split at h <;> cases h; exact ⟨rfl, rfl⟩
  | modsub fd fa fb fc =>
    change Ends _ _ (execModsub fd fa fb fc s)
    unfold execModsub
    refine whole _ _ (fun e h => ?_) fun v _ => ⟨v, rfl⟩
    unfold modSub at h; split at h <;> cases h; exact ⟨rfl, rfl⟩
  | modmul fd fa fb fc =>
    change Ends _ _ (execModmul fd fa fb fc s)
    unfold execModmul
    refine whole _ _ (fun e h => ?_) fun v _ => ⟨v, rfl⟩
    unfold modMul at h; split at h <;> cases h; exact ⟨rfl, rfl⟩
  | montmul fd fa fb fc =>
    change Ends _ _ (execMontmul fd fa fb fc s)
    unfold execMontmul
    exact whole _ _ (fun e h => ⟨montMul_error h, rfl⟩) fun v _ => ⟨v, rfl⟩
  | montr2 fd fc =>
    change Ends _ _ (execMontr2 fd fc s)
    unfold execMontr2
    refine whole _ _ (fun e h => ?_) fun v _ => ⟨v, rfl⟩
    unfold montR2 at h
    split at h
    · cases h; exact ⟨rfl, rfl⟩
    · split at h <;> cases h; exact ⟨rfl, rfl⟩
  | modinv fd fa fc =>
    change Ends _ _ (execModinv fd fa fc s)
    unfold execModinv
    refine whole _ _ (fun e h => ?_) fun v _ => ⟨v, rfl⟩
    unfold modInv at h
    split at h
    · cases h; exact ⟨.inl rfl, rfl⟩
    · exact ⟨.inr (inv_error_code (by omega) h), rfl⟩
  | padd fd fa fb =>
    change Ends _ _ (execPadd fd fa fb s)
    unfold execPadd
    exact whole _ _ (fun e h => ⟨pointAdd_error h, rfl⟩) fun q _ => ⟨q, rfl⟩
  | pdbl fd fa =>
    change Ends _ _ (execPdbl fd fa s)
    unfold execPdbl
    exact whole _ _ (fun e h => ⟨pointAdd_error h, rfl⟩) fun q _ => ⟨q, rfl⟩
  | pmul fd fa fb =>
    change Ends _ _ (execPmul fd fa fb s)
    unfold execPmul
    exact whole _ _ (fun e h => ⟨pointMul_error h, rfl⟩) fun q _ => ⟨q, rfl⟩
  | pubkey fd fa =>
    change Ends _ _ (execPubkey fd fa s)
    unfold execPubkey
    exact whole _ _ (fun e h => ⟨pointMul_error h, rfl⟩) fun q _ => ⟨q, rfl⟩
  | keygen fd =>
    change Ends _ _ (execKeygen fd s)
    unfold execKeygen
    split
    · exact Ends.failed ⟨rfl, rfl⟩
    · exact Ends.completed ⟨_, rfl⟩
  | shainit => exact Ends.completed ⟨_, rfl⟩
  | shablk imm8 =>
    change Ends _ _ (execShablk imm8 s)
    unfold execShablk
    split
    · exact Ends.failed ⟨rfl, rfl⟩
    · exact Ends.completed ⟨_, rfl⟩
  | shahash fd =>
    change Ends _ _ (execShahash fd s)
    unfold execShahash
    split
    · exact Ends.failed ⟨rfl, rfl⟩
    · exact Ends.completed ⟨_, _, rfl⟩
  | sign fd fa fb =>
    change Ends _ _ (execSign fd fa fb s)
    unfold execSign
    split
    · next h => exact Ends.failed (.inl ⟨rfl, h, rfl⟩)
    · rcases signatureCheck_cases s with h | ⟨h, -, hp, hn⟩ <;> rw [h]
      · exact Ends.failed (.inr (.inl ⟨rfl, rfl⟩))
      · obtain ⟨n, hle, hs⟩ := signLoop_state s.curveValues s.messageZ (s.readBig fa) Config.signMaxAttempts s
        dsimp only
        rw [hs]
        exact Ends.conclude n (fun e he => .inr (.inr ⟨signLoop_error hp hn _ _ _ _ _ he, hle⟩))
          fun v _ => ⟨n, v.1, v.2, hle, rfl⟩
  | verify fa fb fc =>
    change Ends _ _ (execVerify fa fb fc s)
    unfold execVerify
    rcases signatureCheck_cases s with h | ⟨h, -, hp, hn⟩ <;> rw [h]
    · exact Ends.failed ⟨.inl rfl, rfl⟩
    · exact whole _ _ (fun e he => ⟨.inr (verifySignature_error hp hn he), rfl⟩) fun v _ => ⟨v, rfl⟩
  | encrypt fd fa =>
    change Ends _ _ (execEncrypt fd fa s)
    unfold execEncrypt
    split
    · exact Ends.failed (.inl ⟨rfl, rfl⟩)
    · split
      · exact Ends.failed (.inl ⟨rfl, rfl⟩)
      · next hl hc =>
        refine Ends.conclude (s := s) 1 (fun e he => .inr ⟨encryptPoints_error (by omega) he, rfl⟩) fun v _ => ?_
        exact ⟨by omega, _, _, by simp, rfl⟩
  | decrypt fa fb =>
    change Ends _ _ (execDecrypt fa fb s)
    unfold execDecrypt
    split
    · exact Ends.failed ⟨.inl rfl, rfl⟩
    · split
      · exact Ends.failed ⟨.inl rfl, rfl⟩
      · next hl hc =>
        refine whole _ _ (fun e he => ⟨.inr (sharedSecret_error (by omega) he), rfl⟩) fun v _ => ?_
        exact ⟨by omega, _, by simp, rfl⟩

end Sys2Proof.Machine
end

