-- ==== Sys2Proof/Laws/Frame.lean ====
section
/-! SUPPORT. What the commits of the commands leave: the value written, the completion, and the frame. -/

namespace Sys2Proof.Machine

/-- The commit of a command that writes one big register. -/
theorem complete_writeBig (s : State) (d : BReg) {v : Nat} (hv : v < 2 ^ Config.W) :
    (complete (s.writeBig d v)).readBig d = v ∧ Succeeded s (complete (s.writeBig d v)) ∧
      Frame [d] [] false 0 s (complete (s.writeBig d v)) ∧ (complete (s.writeBig d v)).rngCtr = s.rngCtr := by
  refine ⟨(State.readBig_writeBig s d d hv).trans (if_pos rfl), ⟨rfl, rfl⟩, ⟨fun r hr => ?_, fun _ _ => ⟨rfl, rfl⟩,
    fun _ => rfl, fun _ _ => rfl, fun _ => rfl, rfl, rfl, rfl, rfl, rfl, rfl, rfl, rfl⟩, rfl⟩
  exact State.readBig_writeBig_ne s v fun e => hr (by simp [e])

/-- The commit of a command that writes one point register. -/
theorem complete_writePoint (s : State) (d : PReg) {q : Point} (hq : q.fits) :
    PointWritten (complete (s.writePoint d q)) d q ∧ Succeeded s (complete (s.writePoint d q)) ∧
      Frame [] [d] false 0 s (complete (s.writePoint d q)) ∧ (complete (s.writePoint d q)).rngCtr = s.rngCtr := by
  refine ⟨⟨State.readPoint_writePoint s d hq, ?_⟩, ⟨by simp [complete], by simp [complete, Status.succeeded]⟩,
    ⟨fun r _ => by simp [State.readBig, complete], fun j hj => ?_, ?_⟩, by simp [complete]⟩
  · cases q with
    | infinity => simp [complete, State.writePoint]
    | finite x y => simp [complete, State.writePoint, Nat.mod_eq_of_lt hq.1, Nat.mod_eq_of_lt hq.2]
  · exact State.writePoint_other s q fun e => hj (by simp [e])
  · simp [complete]

/-- The commit of a command that writes the hash state. -/
theorem complete_writeHash (s : State) (h : Vector Word 8) :
    (complete (s.writeHash h)).shaH = h ∧ Succeeded s (complete (s.writeHash h)) ∧
      Frame [] [] true 0 s (complete (s.writeHash h)) ∧ (complete (s.writeHash h)).rngCtr = s.rngCtr := by
  refine ⟨rfl, ⟨rfl, rfl⟩, ⟨fun _ _ => rfl, fun _ _ => ⟨rfl, rfl⟩, nofun, fun _ _ => rfl, fun _ => rfl, rfl, rfl, rfl,
    rfl, rfl, rfl, rfl, rfl⟩, rfl⟩

/-- Byte `i` of an enciphered message. -/
theorem cipherBytes_getD (hc : Config.HexCase) (x : Nat) (ms : List Byte) {i : Nat} (hi : i < ms.length) :
    (cipherBytes hc x ms).getD i 0#8 = ms.getD i 0#8 ^^^ (keystream hc x ms.length).getD i 0#8 := by
  simp [cipherBytes, xorBytes, List.getD_eq_getElem?_getD, hi]

/-- Byte `i` of `OUT` after the bytes of a message were written to it. -/
theorem read_writeOut (s : State) (h : s.out.wf = true) {bs : List Byte} (hb : bs.length ≤ Config.msgBytes) (i : Nat) :
    (s.writeOut bs).out.read i = if i < bs.length then bs.getD i 0#8 else s.out.read i := by
  simp [Memory.read_writeBytes h (show 0 + bs.length ≤ Config.msgBytes by omega)]

/-- Byte `i` of the message. -/
theorem message_getD (s : State) {i : Nat} (hi : i < s.msgLen.toNat) : s.message.getD i 0#8 = s.msg.read i := by
  rw [State.message, Memory.bytes_getD _ _ _ _ hi, Nat.zero_add]

/-- The digest of the message is the number the signer and the verifier use (44_signature.md R220). -/
theorem messageInteger_iff (s : State) (z : Nat) : MessageInteger s z ↔ z = s.messageZ := by
  have hl : (pad s.message).length / 64 = (s.msgLen.toNat + 8) / 64 + 1 := by
    rw [pad_length, State.message_length]
    unfold padZeros
    omega
  unfold State.messageZ sha256
  rw [hl]
  constructor
  · rintro ⟨bs, hn, hb, rfl⟩
    have : bs = s.message := List.ext_getElem (by simp [hn]) fun i h1 h2 => by
      have := hb i (by omega)
      rw [← message_getD s (i := i) (by omega)] at this
      rwa [List.getD_eq_getElem _ _ h1, List.getD_eq_getElem _ _ h2] at this
    rw [this]
  · rintro rfl
    exact ⟨s.message, by simp, fun j hj => message_getD s hj, rfl⟩

end Sys2Proof.Machine
end

