-- ==== Sys2Proof/Laws/PerInstr.lean ====
section
/-! SUPPORT. Facts about every instruction as syntax, one lemma per constructor. -/

namespace Sys2Proof.Laws.OpcodeRow

/-- The word of a command agrees with its row of the opcode table: the opcode and every should-be-zero field
are as the columns `match` and `mask` say. -/
def Statement (i : Instr) : Prop :=
  encode i &&& Machine.rowMask (opcodeOfInstr i) = Machine.rowMatch (opcodeOfInstr i)

theorem and_append_six {a b c d e f : Nat} (x1 y1 : BitVec a) (x2 y2 : BitVec b) (x3 y3 : BitVec c)
    (x4 y4 : BitVec d) (x5 y5 : BitVec e) (x6 y6 : BitVec f) :
    (x1 ++ x2 ++ x3 ++ x4 ++ x5 ++ x6) &&& (y1 ++ y2 ++ y3 ++ y4 ++ y5 ++ y6) =
      (x1 &&& y1) ++ (x2 &&& y2) ++ (x3 &&& y3) ++ (x4 &&& y4) ++ (x5 &&& y5) ++ (x6 &&& y6) := by
  simp only [BitVec.and_append]

/-- A packed word under a mask, field by field. -/
theorem pack_and (imm8 mi : BitVec 8) (fc fb fa fd mc mb ma md : BitVec 4) (op : Opcode) (mo : BitVec 8) :
    pack imm8 fc fb fa fd op &&& (mi ++ mc ++ mb ++ ma ++ md ++ mo : BitVec 32) =
      ((imm8 &&& mi) ++ (fc &&& mc) ++ (fb &&& mb) ++ (fa &&& ma) ++ (fd &&& md) ++ (opcodeValue op &&& mo) : BitVec 32) :=
  and_append_six ..

theorem nop : Statement .nop :=
  (pack_and 0 0xFF 0 0 0 0 0xF 0xF 0xF 0xF .nop 0xFF).trans (by simp; rfl)

theorem modred (fd : BReg) (fa : BReg) (fc : BReg) : Statement (.modred fd fa fc) :=
  (pack_and 0 0xFF (ofBig fc) 0 (ofBig fa) (ofBig fd) 0 0xF 0 0 .modred 0xFF).trans (by simp; rfl)

theorem modadd (fd : BReg) (fa : BReg) (fb : BReg) (fc : BReg) : Statement (.modadd fd fa fb fc) :=
  (pack_and 0 0xFF (ofBig fc) (ofBig fb) (ofBig fa) (ofBig fd) 0 0 0 0 .modadd 0xFF).trans (by simp; rfl)

theorem modsub (fd : BReg) (fa : BReg) (fb : BReg) (fc : BReg) : Statement (.modsub fd fa fb fc) :=
  (pack_and 0 0xFF (ofBig fc) (ofBig fb) (ofBig fa) (ofBig fd) 0 0 0 0 .modsub 0xFF).trans (by simp; rfl)

theorem modmul (fd : BReg) (fa : BReg) (fb : BReg) (fc : BReg) : Statement (.modmul fd fa fb fc) :=
  (pack_and 0 0xFF (ofBig fc) (ofBig fb) (ofBig fa) (ofBig fd) 0 0 0 0 .modmul 0xFF).trans (by simp; rfl)

theorem montmul (fd : BReg) (fa : BReg) (fb : BReg) (fc : BReg) : Statement (.montmul fd fa fb fc) :=
  (pack_and 0 0xFF (ofBig fc) (ofBig fb) (ofBig fa) (ofBig fd) 0 0 0 0 .montmul 0xFF).trans (by simp; rfl)

theorem montr2 (fd : BReg) (fc : BReg) : Statement (.montr2 fd fc) :=
  (pack_and 0 0xFF (ofBig fc) 0 0 (ofBig fd) 0 0xF 0xF 0 .montr2 0xFF).trans (by simp; rfl)

theorem modinv (fd : BReg) (fa : BReg) (fc : BReg) : Statement (.modinv fd fa fc) :=
  (pack_and 0 0xFF (ofBig fc) 0 (ofBig fa) (ofBig fd) 0 0xF 0 0 .modinv 0xFF).trans (by simp; rfl)

theorem padd (fd : PReg) (fa : PReg) (fb : PReg) : Statement (.padd fd fa fb) :=
  (pack_and 0 0xFF 0 (ofPoint fb) (ofPoint fa) (ofPoint fd) 0xF 0 0 0 .padd 0xFF).trans (by simp; rfl)

theorem pdbl (fd : PReg) (fa : PReg) : Statement (.pdbl fd fa) :=
  (pack_and 0 0xFF 0 0 (ofPoint fa) (ofPoint fd) 0xF 0xF 0 0 .pdbl 0xFF).trans (by simp; rfl)

theorem pmul (fd : PReg) (fa : PReg) (fb : BReg) : Statement (.pmul fd fa fb) :=
  (pack_and 0 0xFF 0 (ofBig fb) (ofPoint fa) (ofPoint fd) 0xF 0 0 0 .pmul 0xFF).trans (by simp; rfl)

theorem keygen (fd : BReg) : Statement (.keygen fd) :=
  (pack_and 0 0xFF 0 0 0 (ofBig fd) 0xF 0xF 0xF 0 .keygen 0xFF).trans (by simp; rfl)

theorem pubkey (fd : PReg) (fa : BReg) : Statement (.pubkey fd fa) :=
  (pack_and 0 0xFF 0 0 (ofBig fa) (ofPoint fd) 0xF 0xF 0 0 .pubkey 0xFF).trans (by simp; rfl)

theorem shainit : Statement .shainit :=
  (pack_and 0 0xFF 0 0 0 0 0xF 0xF 0xF 0xF .shainit 0xFF).trans (by simp; rfl)

theorem shablk (imm8 : BitVec 8) : Statement (.shablk imm8) :=
  (pack_and imm8 0 0 0 0 0 0xF 0xF 0xF 0xF .shablk 0xFF).trans (by simp; rfl)

theorem shahash (fd : BReg) : Statement (.shahash fd) :=
  (pack_and 0 0xFF 0 0 0 (ofBig fd) 0xF 0xF 0xF 0 .shahash 0xFF).trans (by simp; rfl)

theorem sign (fd : BReg) (fa : BReg) (fb : BReg) : Statement (.sign fd fa fb) :=
  (pack_and 0 0xFF 0 (ofBig fb) (ofBig fa) (ofBig fd) 0xF 0 0 0 .sign 0xFF).trans (by simp; rfl)

theorem verify (fa : BReg) (fb : BReg) (fc : PReg) : Statement (.verify fa fb fc) :=
  (pack_and 0 0xFF (ofPoint fc) (ofBig fb) (ofBig fa) 0 0 0 0 0xF .verify 0xFF).trans (by simp; rfl)

theorem encrypt (fd : PReg) (fa : PReg) : Statement (.encrypt fd fa) :=
  (pack_and 0 0xFF 0 0 (ofPoint fa) (ofPoint fd) 0xF 0xF 0 0 .encrypt 0xFF).trans (by simp; rfl)

theorem decrypt (fa : BReg) (fb : PReg) : Statement (.decrypt fa fb) :=
  (pack_and 0 0xFF 0 (ofPoint fb) (ofBig fa) 0 0xF 0 0 0xF .decrypt 0xFF).trans (by simp; rfl)

end Sys2Proof.Laws.OpcodeRow
end

