-- ==== Sys2Proof/Tests/Slice0.lean ====
section
/-! SUPPORT. The model's own tests: words and values from spec/95_test_vectors.md and from the examples in the
command rules, and for every statement with hypotheses a witness that meets them. -/

namespace Sys2Proof.Machine

/-! ### The well-formedness check -/

/-- The one ill-formed term: `SIGN` with one register for both results (30_encoding.md R107). -/
theorem test_wellFormed_refuses_sign_same_register : Instr.wellFormed (.sign 1 0 1) = false := by decide

theorem test_decode_refuses_sign_same_register : decode 0x00010140#32 = .error .signSameRegister := by decide

/-! ### Decoding, each word written out from the field layout of 30_encoding.md R101, R105; the words of `PADD`, `PDBL`
and `PMUL` stand nowhere in 95_test_vectors.md, which has the others -/

theorem test_decode_system : decode 0x00000000#32 = .ok .nop := by decide

theorem test_decode_field_add : decode 0x00210302#32 = .ok (.modadd 3 0 1 2) := by decide
theorem test_decode_field_red : decode 0x00200301#32 = .ok (.modred 3 0 2) := by decide
theorem test_decode_field_sub : decode 0x00210b03#32 = .ok (.modsub 11 0 1 2) := by decide
theorem test_decode_field_mul : decode 0x00210904#32 = .ok (.modmul 9 0 1 2) := by decide
theorem test_decode_field_mont : decode 0x00265705#32 = .ok (.montmul 7 5 6 2) := by decide
theorem test_decode_field_r2 : decode 0x00200406#32 = .ok (.montr2 4 2) := by decide
theorem test_decode_field_inv : decode 0x00202c07#32 = .ok (.modinv 12 2 2) := by decide

theorem test_decode_curve_add : decode 0x00032110#32 = .ok (.padd 1 2 3) := by decide
theorem test_decode_curve_dbl : decode 0x00002111#32 = .ok (.pdbl 1 2) := by decide
theorem test_decode_curve_mul : decode 0x000f7612#32 = .ok (.pmul 6 7 15) := by decide

theorem test_decode_key_gen : decode 0x00000020#32 = .ok (.keygen 0) := by decide
theorem test_decode_key_pub : decode 0x00001021#32 = .ok (.pubkey 0 1) := by decide

theorem test_decode_hash_init : decode 0x00000030#32 = .ok .shainit := by decide
theorem test_decode_hash_block : decode 0x3f000031#32 = .ok (.shablk 63#8) := by decide
theorem test_decode_hash_whole : decode 0x00000532#32 = .ok (.shahash 5) := by decide

theorem test_decode_sign : decode 0x00020140#32 = .ok (.sign 1 0 2) := by decide
theorem test_decode_verify : decode 0x00041041#32 = .ok (.verify 1 4 0) := by decide

theorem test_decode_encrypt : decode 0x00002350#32 = .ok (.encrypt 3 2) := by decide
theorem test_decode_decrypt : decode 0x00010051#32 = .ok (.decrypt 0 1) := by decide

theorem test_decode_rejects : decode 0x00000100#32 = .error (.sbzNotZero .fd) ∧
    decode 0x00000810#32 = .error (.pointOutOfRange .fd) ∧ decode 0x00000008#32 = .error .unassignedOpcode := by decide

theorem test_decodeTableWord : decodeTableWord 32 0x00210302 = some (.modadd 3 0 1 2) := by decide

/-- The assembler text names `SIGN`'s operands in the order `bD, bB, bA` (30_encoding.md R109). -/
theorem test_asm_sign : asm (.sign 1 0 2) = "SIGN b1, b2, b0" := by decide +kernel

/-! ### Values, from the examples of the command rules and from 95_test_vectors.md -/

/-- 40_field.md R133. -/
theorem test_modred : modRed 100 17 = .ok 15 ∧ modRed 5 1 = .error .malformedInput := by decide
/-- 40_field.md R134: the sum is exact. -/
theorem test_modadd : modAdd 15 5 17 = .ok 3 ∧ modAdd (2 ^ 256 - 2) (2 ^ 256 - 2) (2 ^ 256 - 1) = .ok (2 ^ 256 - 3) := by
  decide
/-- 40_field.md R135: a negative difference wraps into `[0, m-1]`. -/
theorem test_modsub : modSub 3 5 17 = .ok 15 := by decide
/-- 40_field.md R136: the product is not cut to `W` bits. -/
theorem test_modmul : modMul 5 7 17 = .ok 1 ∧ modMul (2 ^ 256 - 1) (2 ^ 256 - 1) 101 = .ok 84 := by decide
/-- 40_field.md R138, R140, for `W = 256`. -/
theorem test_montmul : montMul 256 5 7 101 = .ok 61 ∧ montMul 256 5 56 101 = .ok 84 ∧ montMul 256 84 1 101 = .ok 5 := by
  decide +kernel
/-- 40_field.md R137: an even modulus. -/
theorem test_montmul_even : montMul 256 5 7 8 = .error .malformedInput := by decide +kernel
/-- 40_field.md R139, for `W = 256`. -/
theorem test_montr2 : montR2 256 101 = .ok 56 ∧ montR2 256 17 = .ok 1 := by decide +kernel
/-- 40_field.md R143. -/
theorem test_modinv : modInv 3 17 = .ok 6 ∧ modInv 20 17 = .ok 6 ∧ modInv 3 8 = .ok 3 := by decide +kernel
theorem test_modinv_uninvertible : modInv 4 8 = .error .uninvertible ∧ modInv 17 17 = .error .uninvertible := by
  decide +kernel

/-- 41_curve.md R167, 95_test_vectors.md section 5.1: the chord, the vertical chord, and reduction of an operand. -/
theorem test_padd : padd 17 2 (.finite 5 1) (.finite 6 3) = .ok (.finite 10 6) ∧
    padd 17 2 (.finite 5 1) (.finite 5 16) = .ok .infinity ∧
    padd 17 2 (.finite 22 18) .infinity = .ok (.finite 5 1) := by decide +kernel
/-- A composite `p` (95_test_vectors.md section 5.1). -/
theorem test_padd_composite : padd 15 1 (.finite 1 1) (.finite 4 2) = .error .uninvertible := by decide +kernel
/-- 41_curve.md R168: doubling, and a point that is its own negative. -/
theorem test_pdbl : padd 17 2 (.finite 5 1) (.finite 5 1) = .ok (.finite 6 3) ∧
    padd 17 1 (.finite 0 0) (.finite 0 0) = .ok .infinity := by decide +kernel
/-- 41_curve.md R170. -/
theorem test_pmul : pmul 17 2 (.finite 5 1) 7 = .ok (.finite 0 6) ∧ pmul 17 2 (.finite 5 1) 19 = .ok .infinity ∧
    pmul 17 2 (.finite 5 1) 20 = .ok (.finite 5 1) := by decide +kernel
/-- 95_test_vectors.md section 5.1: a scalar of 256 ones. -/
theorem test_pubkey : pointMul 17 2 (.finite 5 1) (2 ^ 256 - 1) = .ok (.finite 3 16) := by decide +kernel

/-- 43_hash.md R199. -/
theorem test_shainit : shaIV.toList.map BitVec.toNat =
    [0x6a09e667, 0xbb67ae85, 0x3c6ef372, 0xa54ff53a, 0x510e527f, 0x9b05688c, 0x1f83d9ab, 0x5be0cd19] := by decide
/-- 43_hash.md R200: the padded block of `abc`. -/
theorem test_shablk : compress shaIV (pad [0x61#8, 0x62#8, 0x63#8]) =
    #v[0xba7816bf#32, 0x8f01cfea#32, 0x414140de#32, 0x5dae2223#32, 0xb00361a3#32, 0x96177a9c#32, 0xb410ff61#32,
      0xf20015ad#32] := by decide +kernel
/-- 95_test_vectors.md section 4.2: a message of two blocks, `abcdbcdecdef…nopq`. -/
theorem test_sha256_two_blocks :
    sha256 ((List.range 14).flatMap fun i => (List.range 4).map fun j => BitVec.ofNat 8 (0x61 + i + j)) =
      #v[0x248d6a61#32, 0xd20638b8#32, 0xe5c02693#32, 0x0c3e6039#32, 0xa33ce459#32, 0x64ff2167#32, 0xf6ecedd4#32,
        0x19db06c1#32] := by decide +kernel
/-- 43_hash.md R201 and 95_test_vectors.md section 1: `abc`, and the empty message. -/
theorem test_shahash : zint (sha256 [0x61#8, 0x62#8, 0x63#8]) =
    0xba7816bf8f01cfea414140de5dae2223b00361a396177a9cb410ff61f20015ad := by decide +kernel
theorem test_shahash_empty : zint (sha256 []) = 0xe3b0c44298fc1c149afbf4c8996fb92427ae41e4649b934ca495991b7852b855 := by
  decide +kernel

/-- The toy curve with its order 19 and generator (95_test_vectors.md section 2). -/
def toyCurve : CurveValues := ⟨17, 2, 19, .finite 5 1⟩

/-- 44_signature.md R222, R223: the nonce 7 is degenerate, the nonce 3 gives `(10, 18)`; `z mod 19 = 3` (R221). -/
theorem test_sign : signAttempt toyCurve 3 7 7 = .ok none ∧ signAttempt toyCurve 3 7 3 = .ok (some (10, 18)) := by
  decide +kernel
/-- 44_signature.md R225, R226. -/
theorem test_verify : verifySignature toyCurve 3 10 18 (.finite 0 6) = .ok true ∧
    verifySignature toyCurve 3 10 17 (.finite 0 6) = .ok false := by decide +kernel
/-- 44_signature.md R227. -/
theorem test_verify_range : verifySignature toyCurve 3 10 0 (.finite 0 6) = .error .degenerateSignature ∧
    verifySignature toyCurve 3 19 18 (.finite 0 6) = .error .degenerateSignature := by decide +kernel

/-- 45_cipher.md R242: `R = (10, 6)`, the shared secret is 16. -/
theorem test_encrypt : encryptPoints 17 2 (.finite 5 1) (.finite 6 3) 3 = .ok (.finite 10 6, 16) := by decide +kernel
/-- 45_cipher.md R242, R243: `hello` under the keystream `10101`, and back. -/
theorem test_decrypt : cipherBytes .lower 16 [0x68#8, 0x65#8, 0x6c#8, 0x6c#8, 0x6f#8] =
      [0x59#8, 0x55#8, 0x5d#8, 0x5c#8, 0x5e#8] ∧
    cipherBytes .lower 16 [0x59#8, 0x55#8, 0x5d#8, 0x5c#8, 0x5e#8] = [0x68#8, 0x65#8, 0x6c#8, 0x6c#8, 0x6f#8] := by
  decide +kernel
/-- 45_cipher.md R240: the two letter cases, and `hextext(0)`. -/
theorem test_hextext : hextext .lower 0xaf = [0x61#8, 0x66#8] ∧ hextext .upper 0xaf = [0x41#8, 0x46#8] ∧
    hextext .lower 0 = [0x30#8] := by decide +kernel

/-- 46_system.md R260: from reset, `NOP` leaves `STATUS = 0x00000002`. -/
theorem test_nop : ∃ t, step (State.reset.withFetchWord 32 0) = .next t ∧ readLoc t .status = 0x00000002#32 :=
  ⟨_, rfl, rfl⟩

/-- `RUN` as the spec writes it (30_encoding.md R111). -/
theorem test_hostRun : hostRun (.shablk 0#8) =
    [.write 0x0010 4 0x00000031#32, .engine, .read 0x000C 4, .write 0x000C 4 0x2#32] := by decide

/-- `abc` is the word `0x00636261` at `0x1000` (95_test_vectors.md section 9). -/
theorem test_hostWrMsg : hostWrMsg [0x61#8, 0x62#8, 0x63#8] =
    [.write 0x1000 4 0x00636261#32, .write 0x0014 4 3#32] := by decide

/-! ### Small states for the witnesses -/

/-- A big word. -/
def wide (v : Nat) : BigWord := BitVec.ofNat Config.W v

theorem wide_toNat {v : Nat} (h : v < 2 ^ 256) : (wide v).toNat = v := by
  simp [wide, Nat.mod_eq_of_lt (Config.lt_two_pow_W h)]

/-- After reset, with a curve. -/
def onCurve (p a n gx gy : Nat) : State :=
  { State.reset with curve := ⟨wide p, wide a, 0#Config.W, wide n, wide gx, wide gy⟩ }

/-- After reset, with three big registers. -/
def withBig (x y m : Nat) : State := ((State.reset.writeBig 0 x).writeBig 1 y).writeBig 2 m

theorem withBig_read {x y m : Nat} (hx : x < 2 ^ 256) (hy : y < 2 ^ 256) (hm : m < 2 ^ 256) :
    (withBig x y m).readBig 0 = x ∧ (withBig x y m).readBig 1 = y ∧ (withBig x y m).readBig 2 = m := by
  have hx := Config.lt_two_pow_W hx
  have hy := Config.lt_two_pow_W hy
  have hm := Config.lt_two_pow_W hm
  simp [withBig, State.readBig_writeBig _ _ _ hx, State.readBig_writeBig _ _ _ hy, State.readBig_writeBig _ _ _ hm]

/-- The order-2 curve registers of the witnesses: every draw in `[1, n-1]` is 1, whatever the random source is. -/
def orderTwo (gx gy : Nat) : State := onCurve 17 2 2 gx gy

theorem orderTwo_values {gx gy : Nat} (hx : gx < 2 ^ 256) (hy : gy < 2 ^ 256) :
    (orderTwo gx gy).curveP = 17 ∧ (orderTwo gx gy).curveA = 2 ∧ (orderTwo gx gy).curveN = 2 ∧
      (orderTwo gx gy).curveG = .finite gx gy := by
  simp only [orderTwo, onCurve, State.curveP, State.curveA, State.curveN, State.curveG, wide_toNat hx, wide_toNat hy]
  simp [wide_toNat]

theorem nonce_one {s : State} (h : s.curveN = 2) (i : Nat) : nonceAt s i = 1 := by
  have := Config.rng_range s.seed (s.rngCtr + BitVec.ofNat 64 i) (show 1 ≤ s.curveN - 1 by omega)
  unfold nonceAt
  omega

/-- A state with one event to come. -/
def withBus (e : BusEvent) (s : State) : State := { s with bus := [e] }

/-- A state with a command in progress. -/
def busyWith (c : Word) (s : State) : State := accept c s

/-! ### Witnesses: for every statement with hypotheses, a state and operands that meet them -/

/-- DecodeOfEncode, at the highest operands. -/
theorem witness_DecodeOfEncode : Instr.wellFormed (.verify 15 15 7) = true ∧ Instr.wellFormed (.sign 15 0 14) = true := by
  decide

/-- EveryWordOneCommandOrIllegal: the ends of the unassigned ranges, a word of a command, and one of none. -/
theorem witness_EveryWordOneCommandOrIllegal :
    (∀ v ∈ [0x08, 0x0F, 0x13, 0x1F, 0x22, 0x2F, 0x33, 0x3F, 0x42, 0x4F, 0x52, 0xFF],
      UnassignedOpcode (fieldOpc (BitVec.ofNat 32 v)).toNat) ∧
    encode (.sign 1 0 2) = 0x00020140#32 ∧ decode 0x00000100#32 = .error (.sbzNotZero .fd) := by
  refine ⟨?_, by decide, by decide⟩
  unfold UnassignedOpcode
  decide

/-- DecodeByMatchAndMask: a word that meets the right-hand side, and ones that fail each part of it. -/
theorem witness_DecodeByMatchAndMask :
    (0x3f000031#32 &&& rowMask .shablk = rowMatch .shablk ∧ PointFieldsLegal .shablk 0x3f000031#32) ∧
    0x00000100#32 &&& rowMask .nop ≠ rowMatch .nop ∧ ¬ PointFieldsLegal .padd 0x00000810#32 ∧
    fieldFd 0x00010140#32 = fieldFb 0x00010140#32 := by
  refine ⟨⟨by decide, trivial⟩, by decide, ?_, by decide⟩
  unfold PointFieldsLegal
  decide

/-- StepRunsDecodedCommand: a legal word, an illegal one, and a word of the opcode table. -/
theorem witness_StepRunsDecodedCommand :
    (withBus .engine (busyWith 0x00210302#32 .reset)).engine = .busy 0x00210302#32 ∧
    decode 0x00210302#32 = .ok (.modadd 3 0 1 2) ∧ (busyWith 0x00210302#32 .reset).bus = [] ∧
    (busyWith 0x00000100#32 .reset).engine = .busy 0x00000100#32 ∧
    decode 0x00000100#32 = .error (.sbzNotZero .fd) ∧ decodeTableWord 32 0x3f000031 = some (.shablk 63#8) :=
  ⟨rfl, by decide, rfl, rfl, by decide, by decide⟩

theorem witness_Acceptance :
    State.reset.engine = .idle ∧ (withBus (.write 0x0010 4 0xFFFFFFFF#32) .reset).bus = [.write 0x0010 4 0xFFFFFFFF#32] :=
  ⟨rfl, rfl⟩

/-- Overrun: a write of `CMD` while busy; and from a state with `OVERRUN` set a step that keeps it, one that clears
it by a write of `STATUS`, and one by a reset. -/
theorem witness_Overrun :
    (withBus (.write 0x0010 4 0#32) (busyWith 0#32 .reset)).engine = .busy 0#32 ∧
    (∃ t, step (overrun State.reset) = .next t ∧ t.status.overrun = true) ∧
    (∃ t, step (withBus (.write 0x000C 4 8#32) (overrun State.reset)) = .next t ∧ t.status.overrun = false) ∧
    (∃ t, step (withBus .rst (overrun State.reset)) = .next t ∧ t.status.overrun = false) :=
  ⟨rfl, ⟨_, rfl, rfl⟩, ⟨_, rfl, rfl⟩, ⟨_, rfl, rfl⟩⟩

/-- ErrorWritesNothing, WhoReportsWhat: `MODRED` from reset ends with `MALFORMED_INPUT`. -/
theorem witness_ErrorWritesNothing :
    ∃ t, exec (.modred 0 0 0) State.reset = .next t ∧ t.status.errcode = .malformedInput := by
  refine ⟨failedState .malformedInput 0 State.reset, ?_, rfl⟩
  simp [exec, execModred, modRed, State.readBig, State.reset, takeError_eq]

/-- WhoReportsWhat: an inverse that does not exist. -/
theorem witness_WhoReportsWhat_uninvertible :
    ∃ t, exec (.modinv 3 0 2) (withBig 4 0 8) = .next t ∧ t.status.errcode = .uninvertible := by
  obtain ⟨h0, -, h2⟩ := withBig_read (x := 4) (y := 0) (m := 8) (by norm_num) (by norm_num) (by norm_num)
  refine ⟨failedState .uninvertible 0 (withBig 4 0 8), ?_, rfl⟩
  have : modInv 4 8 = .error .uninvertible := by decide +kernel
  simp [exec, execModinv, h0, h2, this, takeError_eq]

/-- WhoReportsWhat: `SIGN` as an ill-formed term. -/
theorem witness_WhoReportsWhat_illegal :
    ∃ t, exec (.sign 1 0 1) State.reset = .next t ∧ t.status.errcode = .illegalCommand :=
  ⟨_, rfl, rfl⟩

/-- WhoWritesWhat: the hash state and `RNG_CTR` change. -/
theorem witness_WhoWritesWhat :
    (∃ t, exec .shainit State.reset = .next t ∧ t.shaH ≠ State.reset.shaH) ∧
    ∃ t, exec (.keygen 0) (orderTwo 5 1) = .next t ∧ t.rngCtr ≠ (orderTwo 5 1).rngCtr := by
  refine ⟨⟨_, rfl, by decide⟩, ?_⟩
  have h := (orderTwo_values (gx := 5) (gy := 1) (by norm_num) (by norm_num)).2.2.1
  refine ⟨_, by simp [exec, execKeygen, h, keydraw, draw]; rfl, ?_⟩
  show (1#64 : BitVec 64) ≠ 0#64
  decide

theorem witness_CurveBReadByNoCommand : ∃ t, exec .shainit State.reset = .next t := ⟨_, rfl⟩

/-- CommandIsPerformedInTime: events at the ends of the window, none of them a reset, and the two that are. -/
theorem witness_CommandIsPerformedInTime :
    (busyWith 0#32 State.reset).engine = .busy 0#32 ∧
    (∀ e ∈ [BusEvent.read 0 4, .write 0x3FFC 4 0#32, .write 0x0008 4 1#32, .engine], DefinedEvent e ∧ ¬ ResetEvent e) ∧
    ∀ e ∈ [BusEvent.write 0x0008 4 2#32, .rst], DefinedEvent e ∧ ResetEvent e := by
  refine ⟨rfl, ?_, ?_⟩ <;> simp [DefinedEvent, ResetEvent]

theorem witness_ResetValues :
    (withBus .rst (busyWith 0#32 .reset)).bus = [.rst] ∧ ∃ t, step (withBus .rst (busyWith 0#32 .reset)) = .next t :=
  ⟨rfl, _, rfl⟩

/-- CtrlWriteAndReset, InterruptLevel: both values of bit 1. -/
theorem witness_CtrlWriteAndReset :
    (withBus (.write 0x0008 4 2#32) (busyWith 0#32 .reset)).bus = [.write 0x0008 4 2#32] ∧ (2#32)[1] = true ∧
    (withBus (.write 0x0008 4 1#32) .reset).bus = [.write 0x0008 4 1#32] ∧ (1#32)[1] = false ∧
    (withBus .rst .reset).bus = [.rst] :=
  ⟨rfl, by decide, rfl, by decide, rfl⟩

/-- InterruptLevel: a completion, and the writes of `CTRL` and of `STATUS`. -/
theorem witness_InterruptLevel :
    (∃ t, performCommand 0#32 State.reset = .next t) ∧
    (∃ t, step (withBus (.write 0x0008 4 1#32) .reset) = .next t) ∧ (1#32)[1] = false ∧
    (∃ t, step (withBus (.write 0x000C 4 2#32) .reset) = .next t) ∧ (2#32)[1] = true :=
  ⟨⟨_, rfl⟩, ⟨_, rfl⟩, by decide, ⟨_, rfl⟩, by decide⟩

/-- StepKeepsInvariant: from reset, and from a state in progress. -/
theorem witness_StepKeepsInvariant :
    (StateInv State.reset ∧ ∃ t, step State.reset = .next t) ∧
    StateInv (busyWith 0#32 .reset) ∧ ∃ t, step (busyWith 0#32 .reset) = .next t := by
  refine ⟨⟨⟨rfl, rfl, by simp [State.reset], by simp [State.reset]⟩, _, rfl⟩,
    ⟨rfl, rfl, by simp [busyWith, accept, Status.accepted], by simp [busyWith, accept, Status.accepted]⟩, _, rfl⟩

/-- CanonicalBuffersAreEqual, at both ends of a buffer. -/
theorem witness_CanonicalBuffersAreEqual :
    Memory.wf [(0, 1#8), (4095, 255#8)] = true ∧ Memory.wf [(0, 0#8)] = false ∧ Memory.wf [(4096, 1#8)] = false ∧
    Memory.wf [(3, 1#8), (3, 1#8)] = false := by decide

/-- RegisterMap: the ends of the register ranges and of the reserved ranges. -/
theorem witness_RegisterMap :
    locate 0 = .id ∧ locate 0x5C = .shaH 7 ∧ locate 0x0400 = .bigWord 0 0 ∧ locate 0x07FC = .bigWord 15 15 ∧
    locate 0x0BFC = .pointY 7 15 ∧ locate 0x0D7C = .curveWord .gy 15 ∧ locate 0x1FFC = .msgWord 1023 ∧
    locate 0x2FFC = .outWord 1023 ∧
    ∀ off ∈ [0x1C, 0x30, 0x3C, 0x60, 0x3FC, 0xD80, 0xFFC, 0x3000, 0x3FFC], locate off = .reserved := by decide

/-- UndefinedAccessRefused: a narrow access, a wide one, a misaligned one at the end of the window. -/
theorem witness_UndefinedAccessRefused :
    (withBus (.read 0 1) .reset).bus = [.read 0 1] ∧ (0 < 0x4000 ∧ 1 ≠ 4) ∧
    (withBus (.write 0 8 0#32) .reset).bus = [.write 0 8 0#32] ∧ 8 ≠ 4 ∧
    (withBus (.read 0x3FFF 4) .reset).bus = [.read 0x3FFF 4] ∧ (0x3FFF < 0x4000 ∧ 0x3FFF % 4 ≠ 0) := by
  refine ⟨rfl, by decide, rfl, by decide, rfl, by decide⟩

/-- HostReads: idle and busy, at the ends of the window, at each end of the reserved ranges, at a location a command can
write and at one it cannot. -/
theorem witness_HostReads :
    (∀ off ∈ [0x0000, 0x0018, 0x001C, 0x0030, 0x003C, 0x0060, 0x03FC, 0x0D80, 0x0FFC, 0x2FFC, 0x3000, 0x3FFC],
      off < 0x4000 ∧ off % 4 = 0 ∧ (withBus (.read off 4) .reset).bus = [.read off 4] ∧
        (withBus (.read off 4) (busyWith 0#32 .reset)).bus = [.read off 4]) ∧
    State.reset.engine = .idle ∧ (busyWith 0#32 State.reset).engine = .busy 0#32 ∧
    locate 0x0018 = .pinf ∧ locate 0x2FFC = .outWord 1023 ∧ locate 0x0000 = .id ∧ locate 0x3FFC = .reserved := by
  refine ⟨by decide, rfl, rfl, by decide⟩

/-- WriteWhileBusy: an ignored write, and the three that are not. -/
theorem witness_WriteWhileBusy :
    (busyWith 0#32 State.reset).engine = .busy 0#32 ∧ (busyWith 0#32 State.reset).status.done = false ∧
    ∀ off ∈ [0x0000, 0x0008, 0x000C, 0x0010, 0x1000, 0x3FFC],
      off < 0x4000 ∧ off % 4 = 0 ∧ (withBus (.write off 4 0xA#32) (busyWith 0#32 State.reset)).bus = [.write off 4 0xA#32] := by
  refine ⟨rfl, rfl, fun off h => ?_⟩
  simp at h
  rcases h with rfl | rfl | rfl | rfl | rfl | rfl <;> exact ⟨by decide, by decide, rfl⟩

theorem witness_StatusAndCtrlWords :
    (withBus (.write 0x000C 4 0xFFFFFFFF#32) .reset).bus = [.write 0x000C 4 0xFFFFFFFF#32] ∧
    (busyWith 0#32 State.reset).isBusy = true ∧ State.reset.isBusy = false :=
  ⟨rfl, rfl, rfl⟩

/-- BigRegisterWords: word 7 exists for every admitted `W`; word 15 reads 0 unless `W` is 512, which the spec leaves
open, so that no state shows more; and pairs of different words, in one register, in one point and across families. -/
theorem witness_BigRegisterWords :
    State.reset.engine = .idle ∧ (7 : Fin 16).val < Config.W / 32 ∧
    (Config.W < 512 → Config.W / 32 ≤ (15 : Fin 16).val) ∧
    ((.big 0, 14) : WideReg × Fin 16) ≠ (.big 0, 15) ∧ ((.pointY 7, 0) : WideReg × Fin 16) ≠ (.pointX 7, 0) ∧
    ((.curve .gy, 0) : WideReg × Fin 16) ≠ (.curve .gx, 0) ∧ ((.big 7, 15) : WideReg × Fin 16) ≠ (.pointX 7, 15) := by
  have := Config.W_bounds
  have := Config.W_mod
  refine ⟨rfl, ?_, fun _ => ?_, by decide⟩
  · show 7 < _
    omega
  · show _ ≤ 15
    omega

/-- BigRegisterWords: both values of a tag, of the last point register. -/
theorem witness_BigRegisterWords_tags :
    State.reset.pinf[(7 : PReg).val] = false ∧ (State.reset.writePoint 7 .infinity).pinf[(7 : PReg).val] = true := by decide

/-- BufferWordsLittleEndian, WriteChangesOneLocation: the last word of `MSG`. -/
theorem witness_BufferWordsLittleEndian :
    State.reset.engine = .idle ∧ State.reset.msg.wf = true ∧
    (writeHost (.msgWord 1023) 0x01020304#32 State.reset).msg = [(4092, 4#8), (4093, 3#8), (4094, 2#8), (4095, 1#8)] :=
  ⟨rfl, rfl, by decide⟩

/-- WriteChangesOneLocation: a location of each clause, and offsets at the ends of the window, idle and busy. -/
theorem witness_WriteChangesOneLocation :
    State.reset.engine = .idle ∧ State.reset.msg.wf = true ∧
    (∀ l ∈ [Loc.msgLen, .shaH 7, .msgWord 1023, .pinf, .id, .param, .rngCtrHi, .outWord 0, .reserved],
      l ∉ [Loc.ctrl, .status, .cmd, .seedLo, .seedHi]) ∧
    ∀ off ∈ [0x0000, 0x0024, 0x3FFC], off < 0x4000 ∧ off % 4 = 0 ∧
      (withBus (.write off 4 1#32) .reset).bus = [.write off 4 1#32] ∧
      (withBus (.write off 4 1#32) (busyWith 0#32 .reset)).bus = [.write off 4 1#32] := by
  refine ⟨rfl, rfl, by decide, by decide⟩

/-- PointRegisterWrite: `Infinity`, and the largest coordinates of every admitted width. -/
theorem witness_PointRegisterWrite :
    (∀ x y, Point.infinity = .finite x y → x < 2 ^ Config.W ∧ y < 2 ^ Config.W) ∧
    ∀ x y, Point.finite (2 ^ 256 - 1) 0 = .finite x y → x < 2 ^ Config.W ∧ y < 2 ^ Config.W := by
  refine ⟨nofun, fun x y h => ?_⟩
  cases h
  exact ⟨Config.lt_two_pow_W (by norm_num), Config.lt_two_pow_W (by norm_num)⟩

/-- ModredModaddModmulResult, ModsubResult: the least legal modulus and the highest illegal one. -/
theorem witness_ModredModaddModmulResult :
    2 ≤ (withBig 5 7 2).readBig 2 ∧ (withBig 5 7 1).readBig 2 < 2 := by
  rw [(withBig_read (by norm_num) (by norm_num) (by norm_num)).2.2,
    (withBig_read (by norm_num) (by norm_num) (by norm_num)).2.2]
  decide

theorem witness_ModsubResult : 2 ≤ (withBig 3 5 2).readBig 2 ∧ (withBig 3 5 1).readBig 2 < 2 := by
  rw [(withBig_read (by norm_num) (by norm_num) (by norm_num)).2.2,
    (withBig_read (by norm_num) (by norm_num) (by norm_num)).2.2]
  decide

/-- MontmulResult, Montr2Result: the least odd modulus, 1, and an even one. -/
theorem witness_MontmulResult :
    (2 ≤ (withBig 5 7 3).readBig 2 ∧ (withBig 5 7 3).readBig 2 % 2 = 1) ∧ (withBig 5 7 1).readBig 2 < 2 ∧
      (withBig 5 7 2).readBig 2 % 2 = 0 := by
  rw [(withBig_read (by norm_num) (by norm_num) (by norm_num)).2.2,
    (withBig_read (by norm_num) (by norm_num) (by norm_num)).2.2,
    (withBig_read (by norm_num) (by norm_num) (by norm_num)).2.2]
  decide

theorem witness_Montr2Result :
    (2 ≤ (withBig 0 0 3).readBig 2 ∧ (withBig 0 0 3).readBig 2 % 2 = 1) ∧ (withBig 0 0 1).readBig 2 < 2 ∧
      (withBig 0 0 2).readBig 2 % 2 = 0 := by
  rw [(withBig_read (by norm_num) (by norm_num) (by norm_num)).2.2,
    (withBig_read (by norm_num) (by norm_num) (by norm_num)).2.2,
    (withBig_read (by norm_num) (by norm_num) (by norm_num)).2.2]
  decide

/-- MontgomeryDomainLaws: the least modulus with its highest residues. -/
theorem witness_MontgomeryDomainLaws : 3 ≤ 3 ∧ 3 % 2 = 1 ∧ 2 < 3 := by decide

/-- ModinvResult: a coprime pair, one that is not, and a modulus below 2. -/
theorem witness_ModinvResult :
    (2 ≤ (withBig 3 0 17).readBig 2 ∧ Nat.gcd ((withBig 3 0 17).readBig 0) ((withBig 3 0 17).readBig 2) = 1) ∧
    (2 ≤ (withBig 4 0 8).readBig 2 ∧ Nat.gcd ((withBig 4 0 8).readBig 0) ((withBig 4 0 8).readBig 2) ≠ 1) ∧
    (withBig 3 0 1).readBig 2 < 2 := by
  obtain ⟨a0, -, a2⟩ := withBig_read (x := 3) (y := 0) (m := 17) (by norm_num) (by norm_num) (by norm_num)
  obtain ⟨b0, -, b2⟩ := withBig_read (x := 4) (y := 0) (m := 8) (by norm_num) (by norm_num) (by norm_num)
  obtain ⟨-, -, c2⟩ := withBig_read (x := 3) (y := 0) (m := 1) (by norm_num) (by norm_num) (by norm_num)
  rw [a0, a2, b0, b2, c2]
  decide

theorem witness_PdblIsPaddAndPrimeBelowTwo : State.reset.curveP < 2 ∧ (onCurve 1 2 2 5 1).curveP < 2 := by
  simp [State.curveP, State.reset, onCurve, wide_toNat]

/-- PointAdder: the vertical chord, the vertical tangent, a chord and a tangent, on the toy curve's prime; the least
modulus; and over 15 a chord and a tangent whose denominators have no inverse, and ones whose have. -/
theorem witness_PointAdder :
    (Nat.Prime 17 ∧ (5 < 17 ∧ 1 < 17 ∧ 16 < 17) ∧ 1 ≠ 16 ∧ (2 * 0) % 17 = 0 ∧
      (5 ≠ 6 ∧ Int.gcd ((6 : Int) - 5) 17 = 1) ∧ (2 * 1) % 17 ≠ 0 ∧ Nat.gcd (2 * 1) 17 = 1) ∧ (2 * 1) % 2 = 0 ∧
    (1 ≠ 4 ∧ Int.gcd ((4 : Int) - 1) 15 ≠ 1) ∧ ((2 * 5) % 15 ≠ 0 ∧ Nat.gcd (2 * 5) 15 ≠ 1) ∧
    (1 ≠ 2 ∧ Int.gcd ((2 : Int) - 1) 15 = 1) ∧ (2 * 1) % 15 ≠ 0 ∧ Nat.gcd (2 * 1) 15 = 1 := by
  refine ⟨⟨by norm_num, by decide⟩, by decide⟩

/-- A curve state with two points in `P0` and `P1`, and the numbers `r` and `v` in `B0` and `B1`. -/
def withOperands (c : State) (q0 q1 : Point) (r v : Nat) : State :=
  (((c.writeBig 0 r).writeBig 1 v).writePoint 0 q0).writePoint 1 q1

theorem withOperands_values (c : State) {q0 q1 : Point} {r v : Nat} (h0 : q0.fits) (h1 : q1.fits) (hr : r < 2 ^ 256)
    (hv : v < 2 ^ 256) :
    (withOperands c q0 q1 r v).readPoint 0 = q0 ∧ (withOperands c q0 q1 r v).readPoint 1 = q1 ∧
      (withOperands c q0 q1 r v).readBig 0 = r ∧ (withOperands c q0 q1 r v).readBig 1 = v ∧
      (withOperands c q0 q1 r v).curve = c.curve := by
  have hr := Config.lt_two_pow_W hr
  have hv := Config.lt_two_pow_W hv
  refine ⟨?_, State.readPoint_writePoint _ 1 h1, ?_, ?_, by simp [withOperands]⟩
  · have := State.writePoint_other (((c.writeBig 0 r).writeBig 1 v).writePoint 0 q0) (j := 1) (k := 0) q1 (by decide)
    exact (State.readPoint_congr this.1 this.2).trans (State.readPoint_writePoint _ 0 h0)
  · have : (withOperands c q0 q1 r v).readBig 0 = ((c.writeBig 0 r).writeBig 1 v).readBig 0 := by
      simp [withOperands, State.readBig]
    rw [this, State.readBig_writeBig_ne _ _ (by decide), State.readBig_writeBig _ _ _ hr, if_pos rfl]
  · have : (withOperands c q0 q1 r v).readBig 1 = ((c.writeBig 0 r).writeBig 1 v).readBig 1 := by
      simp [withOperands, State.readBig]
    rw [this, State.readBig_writeBig _ _ _ hv, if_pos rfl]

theorem fits_small {x y : Nat} (hx : x < 2 ^ 256) (hy : y < 2 ^ 256) : Point.fits (.finite x y) :=
  ⟨Config.lt_two_pow_W hx, Config.lt_two_pow_W hy⟩

/-- The composite modulus 15 (95_test_vectors.md section 5.1), of order `n`: `(1, 1)` and `(4, 2)` have no sum, and the
double of `(0, 5)` does not exist, so that no multiple of it does. -/
def onFifteen (n gx gy : Nat) (q0 q1 : Point) (r v : Nat) : State := withOperands (onCurve 15 1 n gx gy) q0 q1 r v

theorem onFifteen_values {n gx gy : Nat} {q0 q1 : Point} {r v : Nat} (hn : n < 2 ^ 256) (hx : gx < 2 ^ 256)
    (hy : gy < 2 ^ 256) (h0 : q0.fits) (h1 : q1.fits) (hr : r < 2 ^ 256) (hv : v < 2 ^ 256) :
    ((onFifteen n gx gy q0 q1 r v).curveP = 15 ∧ (onFifteen n gx gy q0 q1 r v).curveA = 1 ∧
      (onFifteen n gx gy q0 q1 r v).curveN = n ∧ (onFifteen n gx gy q0 q1 r v).curveG = .finite gx gy) ∧
      (onFifteen n gx gy q0 q1 r v).readPoint 0 = q0 ∧ (onFifteen n gx gy q0 q1 r v).readPoint 1 = q1 ∧
      (onFifteen n gx gy q0 q1 r v).readBig 0 = r ∧ (onFifteen n gx gy q0 q1 r v).readBig 1 = v := by
  obtain ⟨e0, e1, e2, e3, hc⟩ := withOperands_values (onCurve 15 1 n gx gy) h0 h1 hr hv
  refine ⟨?_, e0, e1, e2, e3⟩
  simp only [onFifteen, State.curveP, State.curveA, State.curveN, State.curveG, hc]
  simp only [onCurve, wide_toNat hn, wide_toNat hx, wide_toNat hy]
  simp [wide_toNat]

/-- What the arithmetic over 15 gives, by hand: `4 - 1` and `2·5` share a factor with 15; the tangent at `(1, 1)` has
slope `4·8 = 2`, so that the double is `(2, 12)`. -/
theorem test_fifteen :
    padd 15 1 (.finite 1 1) (.finite 4 2) = .error .uninvertible ∧
    padd 15 1 (.finite 1 1) (.finite 1 1) = .ok (.finite 2 12) ∧
    padd 15 1 (.finite 0 5) (.finite 0 5) = .error .uninvertible ∧
    pmul 15 1 (.finite 0 5) 1 = .error .uninvertible ∧ pmul 15 1 (.finite 1 1) 1 = .ok (.finite 1 1) ∧
    pmul 15 1 (.finite 4 2) 1 = .ok (.finite 4 2) := by
  refine ⟨?_, ?_, ?_, ?_, ?_, ?_⟩ <;> decide +kernel

/-- PaddPdblOnPrime: the toy curve, and the least prime; over 15 a sum and a double that exist, and ones that do not. -/
theorem witness_PaddPdblOnPrime :
    ((onCurve 17 2 19 5 1).curveP.Prime ∧ (onCurve 2 1 3 0 1).curveP.Prime) ∧
    (∃ s : State, 2 ≤ s.curveP ∧ padd s.curveP s.curveA (s.readPoint 0) (s.readPoint 1) = .error .uninvertible ∧
      padd s.curveP s.curveA (s.readPoint 0) (s.readPoint 0) = .ok (.finite 2 12)) ∧
    ∃ s : State, 2 ≤ s.curveP ∧ padd s.curveP s.curveA (s.readPoint 0) (s.readPoint 0) = .error .uninvertible ∧
      padd s.curveP s.curveA (s.readPoint 1) (s.readPoint 1) = .ok (.finite 2 12) := by
  refine ⟨?_, ⟨onFifteen 2 1 1 (.finite 1 1) (.finite 4 2) 0 0, ?_⟩, onFifteen 2 1 1 (.finite 0 5) (.finite 1 1) 0 0, ?_⟩
  · simp only [onCurve, State.curveP, wide_toNat (show 17 < 2 ^ 256 by norm_num),
      wide_toNat (show 2 < 2 ^ 256 by norm_num)]
    norm_num
  · obtain ⟨⟨hp, ha, -, -⟩, h0, h1, -, -⟩ := onFifteen_values (n := 2) (gx := 1) (gy := 1) (r := 0) (v := 0)
      (by norm_num) (by norm_num) (by norm_num) (fits_small (x := 1) (y := 1) (by norm_num) (by norm_num))
      (fits_small (x := 4) (y := 2) (by norm_num) (by norm_num)) (by norm_num) (by norm_num)
    rw [hp, ha, h0, h1]
    exact ⟨by decide, test_fifteen.1, test_fifteen.2.1⟩
  · obtain ⟨⟨hp, ha, -, -⟩, h0, h1, -, -⟩ := onFifteen_values (n := 2) (gx := 1) (gy := 1) (r := 0) (v := 0)
      (by norm_num) (by norm_num) (by norm_num) (fits_small (x := 0) (y := 5) (by norm_num) (by norm_num))
      (fits_small (x := 1) (y := 1) (by norm_num) (by norm_num)) (by norm_num) (by norm_num)
    rw [hp, ha, h0, h1]
    exact ⟨by decide, test_fifteen.2.2.1, test_fifteen.2.1⟩

/-- A run of double-and-add on the toy curve, from the multiples of 95_test_vectors.md section 2: `k = 3` adds `(5, 1)` and
`(6, 3)`, and the doubling term passes `(5, 1)`, `(6, 3)`, `(3, 1)`. -/
theorem test_doubleAndAdd : DoubleAndAdd 17 2 (.finite 5 1) 3 (.finite 10 6) := by
  refine ⟨fun | 0 => .infinity | 1 => .finite 5 1 | _ => .finite 10 6,
    fun | 0 => .finite 5 1 | 1 => .finite 6 3 | _ => .finite 3 1, rfl, by decide +kernel, ?_, rfl⟩
  rw [show Nat.size 3 = 2 by decide +kernel]
  decide +kernel

/-- PmulPubkeyOnPrime: the scalars 0 and 1 on the toy curve; a run of double-and-add, and a point over 15 that has none;
and over 15 a multiple of `P0` and of `G` that exists, and one that does not. -/
theorem witness_PmulPubkeyOnPrime :
    ((onCurve 17 2 19 5 1).curveP.Prime ∧ (onCurve 17 2 19 5 1).readBig 0 = 0 ∧
      ((onCurve 17 2 19 5 1).writeBig 1 1).readBig 1 = 1) ∧
    (∃ R, DoubleAndAdd 17 2 (.finite 5 1) 3 R) ∧ (∀ R, ¬ DoubleAndAdd 15 1 (.finite 0 5) 1 R) ∧
    (∃ s : State, 2 ≤ s.curveP ∧ pmul s.curveP s.curveA (s.readPoint 0) (s.readBig 0) = .error .uninvertible ∧
      pmul s.curveP s.curveA s.curveG (s.readBig 0) = .ok (.finite 1 1)) ∧
    ∃ s : State, 2 ≤ s.curveP ∧ pmul s.curveP s.curveA (s.readPoint 0) (s.readBig 0) = .ok (.finite 1 1) ∧
      pmul s.curveP s.curveA s.curveG (s.readBig 0) = .error .uninvertible := by
  refine ⟨⟨witness_PaddPdblOnPrime.1.1, by simp [onCurve, State.readBig, State.reset], ?_⟩, ⟨_, test_doubleAndAdd⟩, ?_,
    ⟨onFifteen 2 1 1 (.finite 0 5) .infinity 1 0, ?_⟩, onFifteen 2 0 5 (.finite 1 1) .infinity 1 0, ?_⟩
  · rw [State.readBig_writeBig _ _ _ (Config.lt_two_pow_W (by norm_num))]
    rfl
  · rintro R ⟨racc, t, -, h0, hrun, -⟩
    have h := (hrun 0 (by decide +kernel)).2
    rw [h0, show padd 15 1 (normalise 15 (.finite 0 5)) (normalise 15 (.finite 0 5)) = .error .uninvertible by
      decide +kernel] at h
    cases h
  · obtain ⟨⟨hp, ha, -, hg⟩, h0, -, hb, -⟩ := onFifteen_values (n := 2) (gx := 1) (gy := 1) (q1 := .infinity) (r := 1)
      (v := 0) (by norm_num) (by norm_num) (by norm_num) (fits_small (x := 0) (y := 5) (by norm_num) (by norm_num)) trivial
      (by norm_num) (by norm_num)
    rw [hp, ha, hg, h0, hb]
    exact ⟨by decide, test_fifteen.2.2.2.1, test_fifteen.2.2.2.2.1⟩
  · obtain ⟨⟨hp, ha, -, hg⟩, h0, -, hb, -⟩ := onFifteen_values (n := 2) (gx := 0) (gy := 5) (q1 := .infinity) (r := 1)
      (v := 0) (by norm_num) (by norm_num) (by norm_num) (fits_small (x := 1) (y := 1) (by norm_num) (by norm_num)) trivial
      (by norm_num) (by norm_num)
    rw [hp, ha, hg, h0, hb]
    exact ⟨by decide, test_fifteen.2.2.2.2.1, test_fifteen.2.2.2.1⟩

/-- PointsStayOnCurve: two points of the toy curve, their sum, and a multiple. -/
theorem witness_PointsStayOnCurve :
    Nat.Prime 17 ∧ OnCurve 17 2 2 (.finite 5 1) ∧ OnCurve 17 2 2 (.finite 6 3) ∧
    padd 17 2 (.finite 5 1) (.finite 6 3) = .ok (.finite 10 6) ∧ pmul 17 2 (.finite 5 1) 7 = .ok (.finite 0 6) := by
  refine ⟨by norm_num, ?_, ?_, by decide +kernel, by decide +kernel⟩ <;> unfold OnCurve Int.ModEq <;> decide

/-- KeygenResult: the least legal order and the highest illegal one. -/
theorem witness_KeygenResult : 2 ≤ (orderTwo 5 1).curveN ∧ (onCurve 17 2 1 5 1).curveN < 2 := by
  simp [orderTwo, onCurve, State.curveN, wide_toNat]

/-- ShablkResult: the last block and the first that does not exist. -/
theorem witness_ShablkResult : (63#8).toNat < 64 ∧ 64 ≤ (64#8).toNat := by decide

/-- ShahashResult, MessageAndCurveChecks: the longest message and one more. -/
theorem witness_ShahashResult :
    ({ State.reset with msgLen := 4096#32 } : State).msgLen.toNat ≤ 4096 ∧
    4096 < ({ State.reset with msgLen := 4097#32 } : State).msgLen.toNat := by decide

/-- ShahashResult: the blocks of a padded message, and no block. -/
theorem witness_ShahashResult_blocks : (pad (List.replicate 56 0x61#8)).length = 64 * 2 ∧ ([] : List Byte).length = 64 * 0 :=
  ⟨by rw [pad_length, List.length_replicate]; decide, rfl⟩

theorem witness_PaddingOfMessage : (List.replicate 4096 0#8).length ≤ 4096 ∧ ([] : List Byte).length ≤ 4096 :=
  ⟨by rw [List.length_replicate], by decide⟩

/-- MessageAndCurveChecks: each of the three reasons, and `DECRYPT`'s two. -/
theorem witness_MessageAndCurveChecks :
    4096 < ({ orderTwo 5 1 with msgLen := 4097#32 } : State).msgLen.toNat ∧ (onCurve 1 2 2 5 1).curveP < 2 ∧
    (onCurve 17 2 1 5 1).curveN < 2 ∧ (0 : BReg) ≠ 1 := by
  refine ⟨by show 4096 < (4097#32).toNat; decide, ?_, ?_, by decide⟩ <;>
    simp [onCurve, State.curveP, State.curveN, wide_toNat]

/-- The digest of the empty message as an integer (95_test_vectors.md section 1). -/
def emptyZ : Nat := 0xe3b0c44298fc1c149afbf4c8996fb92427ae41e4649b934ca495991b7852b855

theorem emptyMessage {s : State} (h : s.msgLen = 0#32) : MessageInteger s emptyZ := by
  refine ⟨[], by simp [h], by simp [h], ?_⟩
  rw [h]
  decide +kernel

theorem orderTwo_readBig (gx gy : Nat) (r : BReg) : (orderTwo gx gy).readBig r = 0 := by
  simp [orderTwo, onCurve, State.readBig, State.reset]

/-- SignResult, at the first attempt: `G = (5, 1)`, key 0, the empty message. -/
theorem witness_SignResult :
    (0 : BReg) ≠ 1 ∧ MessageInteger (orderTwo 5 1) emptyZ ∧ (orderTwo 5 1).msgLen.toNat ≤ 4096 ∧
    2 ≤ (orderTwo 5 1).curveP ∧ 2 ≤ (orderTwo 5 1).curveN ∧ 0 < Config.signMaxAttempts ∧
    pmul (orderTwo 5 1).curveP (orderTwo 5 1).curveA (orderTwo 5 1).curveG (nonceAt (orderTwo 5 1) 0) =
      .ok (.finite 5 1) ∧
    5 % (orderTwo 5 1).curveN ≠ 0 ∧ 1 < (orderTwo 5 1).curveN ∧
    nonceAt (orderTwo 5 1) 0 * 1 % (orderTwo 5 1).curveN = 1 ∧
    1 * (emptyZ + 5 % (orderTwo 5 1).curveN * (orderTwo 5 1).readBig 2) % (orderTwo 5 1).curveN ≠ 0 := by
  obtain ⟨hp, ha, hn, hg⟩ := orderTwo_values (gx := 5) (gy := 1) (by norm_num) (by norm_num)
  rw [nonce_one hn, hp, ha, hn, hg, orderTwo_readBig]
  exact ⟨by decide, emptyMessage rfl, by decide, by decide, by decide, Config.signMaxAttempts_pos, by decide +kernel,
    by decide, by decide, by decide, by decide⟩

/-- SignResult, `UNINVERTIBLE` at the first attempt: over 15, with `G = (0, 5)`.  (That a nonce has no inverse modulo `n`
no state forces: the draw is a free value and 1 always has one; modulo 4 the nonce 2 has none.) -/
theorem witness_SignResult_uninvertible :
    (∃ s : State, MessageInteger s emptyZ ∧ s.msgLen.toNat ≤ 4096 ∧ 2 ≤ s.curveP ∧ 2 ≤ s.curveN ∧
      pmul s.curveP s.curveA s.curveG (nonceAt s 0) = .error .uninvertible) ∧
    1 ≤ 2 ∧ 2 ≤ 4 - 1 ∧ Nat.gcd 2 4 ≠ 1 := by
  refine ⟨⟨onFifteen 2 0 5 .infinity .infinity 0 0, emptyMessage (by simp [onFifteen, withOperands, onCurve, State.reset]),
    by simp [onFifteen, withOperands, onCurve, State.reset], ?_⟩, by decide⟩
  obtain ⟨⟨hp, ha, hn, hg⟩, -⟩ := onFifteen_values (n := 2) (gx := 0) (gy := 5) (q0 := .infinity) (q1 := .infinity) (r := 0)
    (v := 0) (by norm_num) (by norm_num) (by norm_num) trivial trivial (by norm_num) (by norm_num)
  rw [nonce_one hn, hp, ha, hn, hg]
  exact ⟨by decide, by decide, test_fifteen.2.2.2.1⟩

/-- SignExhausted: with `G = (6, 3)` every attempt has `r = 6 mod 2 = 0`. -/
theorem witness_SignExhausted :
    (0 : BReg) ≠ 1 ∧ MessageInteger (orderTwo 6 3) emptyZ ∧ (orderTwo 6 3).msgLen.toNat ≤ 4096 ∧
    2 ≤ (orderTwo 6 3).curveP ∧ 2 ≤ (orderTwo 6 3).curveN ∧
    ∀ i, pmul (orderTwo 6 3).curveP (orderTwo 6 3).curveA (orderTwo 6 3).curveG (nonceAt (orderTwo 6 3) i) =
      .ok (.finite 6 3) ∧ 6 % (orderTwo 6 3).curveN = 0 := by
  obtain ⟨hp, ha, hn, hg⟩ := orderTwo_values (gx := 6) (gy := 3) (by norm_num) (by norm_num)
  refine ⟨by decide, emptyMessage rfl, by decide, by omega, by omega, fun i => ?_⟩
  rw [nonce_one hn, hp, ha, hn, hg]
  exact ⟨by decide +kernel, rfl⟩

/-- SignOnPrimes: both numbers prime. -/
theorem witness_SignOnPrimes :
    (0 : BReg) ≠ 1 ∧ (orderTwo 5 1).msgLen.toNat ≤ 4096 ∧ (orderTwo 5 1).curveP.Prime ∧ (orderTwo 5 1).curveN.Prime := by
  obtain ⟨hp, -, hn, -⟩ := orderTwo_values (gx := 5) (gy := 1) (by norm_num) (by norm_num)
  rw [hp, hn]
  exact ⟨by decide, by decide, by norm_num, by norm_num⟩

/-- The order-19 toy curve with `r = 10` in `B0` and `s = v` in `B1`. -/
def toySigned (r v : Nat) : State := ((onCurve 17 2 19 5 1).writeBig 0 r).writeBig 1 v

theorem toySigned_values {r v : Nat} (hr : r < 2 ^ 256) (hv : v < 2 ^ 256) :
    (toySigned r v).curveP = 17 ∧ (toySigned r v).curveN = 19 ∧ (toySigned r v).readBig 0 = r ∧
      (toySigned r v).readBig 1 = v := by
  have hr := Config.lt_two_pow_W hr
  have hv := Config.lt_two_pow_W hv
  simp [toySigned, State.curveP, State.curveN, onCurve, wide_toNat, State.readBig_writeBig _ _ _ hr,
    State.readBig_writeBig _ _ _ hv]

/-- VerifyRange: 0 and `n` for either number. -/
theorem witness_VerifyRange :
    (toySigned 0 1).readBig 0 < 1 ∧ (toySigned 19 1).curveN - 1 < (toySigned 19 1).readBig 0 ∧
    (toySigned 1 0).readBig 1 < 1 ∧ (toySigned 1 19).curveN - 1 < (toySigned 1 19).readBig 1 ∧
    (toySigned 0 1).msgLen.toNat ≤ 4096 ∧ 2 ≤ (toySigned 0 1).curveP ∧ 2 ≤ (toySigned 0 1).curveN := by
  obtain ⟨hp, hn, ha, -⟩ := toySigned_values (r := 0) (v := 1) (by norm_num) (by norm_num)
  obtain ⟨-, bn, bb, -⟩ := toySigned_values (r := 19) (v := 1) (by norm_num) (by norm_num)
  obtain ⟨-, -, -, cc⟩ := toySigned_values (r := 1) (v := 0) (by norm_num) (by norm_num)
  obtain ⟨-, dn, -, dd⟩ := toySigned_values (r := 1) (v := 19) (by norm_num) (by norm_num)
  rw [hp, hn, ha, bn, bb, cc, dn, dd]
  refine ⟨by decide, by decide, by decide, by decide, by decide, by decide, by decide⟩

/-- VerifyResult: the ends of the range, on primes. -/
theorem witness_VerifyResult :
    MessageInteger (toySigned 1 18) emptyZ ∧ (toySigned 1 18).msgLen.toNat ≤ 4096 ∧ (toySigned 1 18).curveP.Prime ∧
    (toySigned 1 18).curveN.Prime ∧ 1 ≤ (toySigned 1 18).readBig 0 ∧
    (toySigned 1 18).readBig 0 ≤ (toySigned 1 18).curveN - 1 ∧ 1 ≤ (toySigned 1 18).readBig 1 ∧
    (toySigned 1 18).readBig 1 ≤ (toySigned 1 18).curveN - 1 := by
  obtain ⟨hp, hn, ha, hb⟩ := toySigned_values (r := 1) (v := 18) (by norm_num) (by norm_num)
  rw [hp, hn, ha, hb]
  exact ⟨emptyMessage rfl, by decide, by norm_num, by norm_num, by decide, by decide, by decide, by decide⟩

/-- VerifyResult, where an inverse does not exist: `s = 2` modulo 4; over 15 and modulo 2, with `w = 1`, the multiple of
`G`, the multiple of `Q`, and their sum; and a sum over 15 that exists. -/
theorem witness_VerifyResult_uninvertible :
    (∃ s : State, MessageInteger s emptyZ ∧ s.msgLen.toNat ≤ 4096 ∧ s.curveP = 15 ∧ s.curveN = 4 ∧ s.readBig 0 = 1 ∧
      s.readBig 1 = 2 ∧ Nat.gcd (s.readBig 1) s.curveN ≠ 1) ∧
    ∀ g q, (g, q) ∈ [(Point.finite 0 5, Point.infinity), (.finite 1 1, .finite 0 5), (.finite 1 1, .finite 4 2),
        (.finite 1 1, .finite 1 1)] →
      ∃ s : State, MessageInteger s emptyZ ∧ s.msgLen.toNat ≤ 4096 ∧ s.curveP = 15 ∧ s.curveA = 1 ∧ s.curveN = 2 ∧
        s.readBig 0 = 1 ∧ s.readBig 1 = 1 ∧ (s.readBig 1 * 1) % s.curveN = 1 ∧ s.curveG = g ∧ s.readPoint 0 = q ∧
        emptyZ * 1 % s.curveN = 1 ∧ s.readBig 0 * 1 % s.curveN = 1 := by
  have hz : ∀ n gx gy q0 q1 r v, (onFifteen n gx gy q0 q1 r v).msgLen = 0#32 := by
    simp [onFifteen, withOperands, onCurve, State.reset]
  constructor
  · obtain ⟨⟨hp, -, hn, -⟩, -, -, h0, h1⟩ := onFifteen_values (n := 4) (gx := 1) (gy := 1) (q0 := .infinity)
      (q1 := .infinity) (r := 1) (v := 2) (by norm_num) (by norm_num) (by norm_num) trivial trivial (by norm_num)
      (by norm_num)
    refine ⟨_, emptyMessage (hz 4 1 1 .infinity .infinity 1 2), by rw [hz]; decide, hp, hn, h0, h1, ?_⟩
    rw [h1, hn]
    decide
  · have key : ∀ (gx gy : Nat) (q : Point), gx < 2 ^ 256 → gy < 2 ^ 256 → q.fits → ∃ s : State, MessageInteger s emptyZ ∧
        s.msgLen.toNat ≤ 4096 ∧ s.curveP = 15 ∧ s.curveA = 1 ∧ s.curveN = 2 ∧ s.readBig 0 = 1 ∧ s.readBig 1 = 1 ∧
        (s.readBig 1 * 1) % s.curveN = 1 ∧ s.curveG = .finite gx gy ∧ s.readPoint 0 = q ∧ emptyZ * 1 % s.curveN = 1 ∧
        s.readBig 0 * 1 % s.curveN = 1 := by
      intro gx gy q hx hy hq
      obtain ⟨⟨hp, ha, hn, hg⟩, hq0, -, h0, h1⟩ := onFifteen_values (n := 2) (q1 := .infinity) (r := 1) (v := 1)
        (by norm_num) hx hy hq trivial (by norm_num) (by norm_num)
      refine ⟨_, emptyMessage (hz 2 gx gy q .infinity 1 1), by rw [hz]; decide, hp, ha, hn, h0, h1, ?_, hg, hq0, ?_, ?_⟩
      · rw [h1, hn]
      · rw [hn]
        decide
      · rw [h0, hn]
    intro g q h
    simp only [List.mem_cons, Prod.mk.injEq, List.not_mem_nil, or_false] at h
    rcases h with ⟨rfl, rfl⟩ | ⟨rfl, rfl⟩ | ⟨rfl, rfl⟩ | ⟨rfl, rfl⟩
    · exact key 0 5 _ (by norm_num) (by norm_num) trivial
    · exact key 1 1 _ (by norm_num) (by norm_num) (fits_small (by norm_num) (by norm_num))
    · exact key 1 1 _ (by norm_num) (by norm_num) (fits_small (by norm_num) (by norm_num))
    · exact key 1 1 _ (by norm_num) (by norm_num) (fits_small (by norm_num) (by norm_num))

/-- WhoReportsWhat: `DEGENERATE_SIGNATURE` from `VERIFY` with `r = 0`. -/
theorem witness_WhoReportsWhat_degenerate :
    ∃ t, exec (.verify 0 1 0) (toySigned 0 1) = .next t ∧ t.status.errcode = .degenerateSignature := by
  obtain ⟨-, -, -, -, hm, hp, hn⟩ := witness_VerifyRange
  have hs : signatureCheck (toySigned 0 1) = none := by
    unfold signatureCheck
    rw [if_neg (by simp only [Config.msgBytes]; omega), if_neg (by omega)]
  refine ⟨failedState .degenerateSignature 0 (toySigned 0 1), ?_, rfl⟩
  change execVerify 0 1 0 (toySigned 0 1) = _
  unfold execVerify
  rw [hs]
  dsimp only
  unfold verifySignature
  rw [if_pos (.inl witness_VerifyRange.1), conclude_error, takeError_eq]

/-- KeystreamText: a digit of the last byte of the longest keystream. -/
theorem witness_KeystreamText : 4095 < 4096 := by decide

/-- A state to encrypt on: order 2, the recipient's point `(5, 1)` in `P0`, `Infinity` in `P1`, key 1 in `B0`, and
the message `h`. -/
def cipherState : State :=
  { (((orderTwo 5 1).writePoint 0 (.finite 5 1)).writePoint 1 .infinity).writeBig 0 1 with
    msg := [(0, 0x68#8)]
    msgLen := 1#32 }

theorem cipherState_values :
    cipherState.curveP = 17 ∧ cipherState.curveA = 2 ∧ cipherState.curveN = 2 ∧ cipherState.curveG = .finite 5 1 ∧
    cipherState.readPoint 0 = .finite 5 1 ∧ cipherState.readPoint 1 = .infinity ∧ cipherState.readBig 0 = 1 := by
  have hc : cipherState.curve = (orderTwo 5 1).curve := by simp [cipherState]
  obtain ⟨hp, ha, hn, hg⟩ := orderTwo_values (gx := 5) (gy := 1) (by norm_num) (by norm_num)
  have h5 : Point.fits (.finite 5 1) :=
    ⟨Config.lt_two_pow_W (by norm_num), Config.lt_two_pow_W (by norm_num)⟩
  refine ⟨?_, ?_, ?_, ?_, ?_, ?_, ?_⟩
  · rw [← hp, State.curveP, hc, State.curveP]
  · rw [← ha, State.curveA, hc, State.curveA]
  · rw [← hn, State.curveN, hc, State.curveN]
  · rw [← hg, State.curveG, hc, State.curveG]
  · have := State.writePoint_other ((orderTwo 5 1).writePoint 0 (.finite 5 1)) (j := 1) (k := 0) .infinity (by decide)
    exact (State.readPoint_congr this.1 this.2).trans (State.readPoint_writePoint _ 0 h5)
  · exact State.readPoint_writePoint ((orderTwo 5 1).writePoint 0 (.finite 5 1)) 1 (q := .infinity) trivial
  · exact (State.readBig_writeBig _ 0 0 (Config.lt_two_pow_W (by norm_num))).trans (if_pos rfl)

theorem cipherState_multiple :
    pmul cipherState.curveP cipherState.curveA (cipherState.readPoint 0) (nonceAt cipherState 0) = .ok (.finite 5 1) ∧
    pmul cipherState.curveP cipherState.curveA cipherState.curveG (nonceAt cipherState 0) = .ok (.finite 5 1) ∧
    pmul cipherState.curveP cipherState.curveA (cipherState.readPoint 0) (cipherState.readBig 0) = .ok (.finite 5 1) ∧
    pmul cipherState.curveP cipherState.curveA (cipherState.readPoint 1) (nonceAt cipherState 0) = .ok .infinity ∧
    pmul cipherState.curveP cipherState.curveA (cipherState.readPoint 1) (cipherState.readBig 0) = .ok .infinity := by
  obtain ⟨hp, ha, hn, hg, h0, h1, hb⟩ := cipherState_values
  rw [nonce_one hn, hp, ha, hg, h0, h1, hb]
  refine ⟨by decide +kernel, by decide +kernel, by decide +kernel, by decide +kernel, by decide +kernel⟩

/-- EncryptResult: the random source can only answer 1. -/
theorem witness_EncryptResult :
    cipherState.out.wf = true ∧ cipherState.msgLen.toNat ≤ 4096 ∧ 2 ≤ cipherState.curveP ∧ 2 ≤ cipherState.curveN ∧
    pmul cipherState.curveP cipherState.curveA cipherState.curveG (nonceAt cipherState 0) = .ok (.finite 5 1) ∧
    pmul cipherState.curveP cipherState.curveA (cipherState.readPoint 0) (nonceAt cipherState 0) =
      .ok (.finite 5 1) := by
  obtain ⟨hp, -, hn, -⟩ := cipherState_values
  exact ⟨by rfl, by decide, by omega, by omega, cipherState_multiple.2.1, cipherState_multiple.1⟩

theorem witness_DecryptResult :
    cipherState.out.wf = true ∧ cipherState.msgLen.toNat ≤ 4096 ∧ 2 ≤ cipherState.curveP ∧
    pmul cipherState.curveP cipherState.curveA (cipherState.readPoint 0) (cipherState.readBig 0) = .ok (.finite 5 1) :=
  ⟨witness_EncryptResult.1, witness_EncryptResult.2.1, witness_EncryptResult.2.2.1, cipherState_multiple.2.2.1⟩

/-- EncryptResult, DecryptResult, where an inverse does not exist: over 15, the multiple of `G`, or of `P0`. -/
theorem witness_EncryptResult_uninvertible :
    (∃ s : State, s.msgLen.toNat ≤ 4096 ∧ 2 ≤ s.curveP ∧ 2 ≤ s.curveN ∧
      pmul s.curveP s.curveA s.curveG (nonceAt s 0) = .error .uninvertible) ∧
    ∃ s : State, s.msgLen.toNat ≤ 4096 ∧ 2 ≤ s.curveP ∧ 2 ≤ s.curveN ∧
      pmul s.curveP s.curveA s.curveG (nonceAt s 0) = .ok (.finite 1 1) ∧
      pmul s.curveP s.curveA (s.readPoint 0) (nonceAt s 0) = .error .uninvertible ∧
      pmul s.curveP s.curveA (s.readPoint 0) (s.readBig 0) = .error .uninvertible := by
  obtain ⟨s, -, hl, hp, hn, h⟩ := witness_SignResult_uninvertible.1
  refine ⟨⟨s, hl, hp, hn, h⟩, onFifteen 2 1 1 (.finite 0 5) .infinity 1 0,
    by simp [onFifteen, withOperands, onCurve, State.reset], ?_⟩
  obtain ⟨⟨hp, ha, hn, hg⟩, h0, -, hb, -⟩ := onFifteen_values (n := 2) (gx := 1) (gy := 1) (q1 := .infinity) (r := 1)
    (v := 0) (by norm_num) (by norm_num) (by norm_num) (fits_small (x := 0) (y := 5) (by norm_num) (by norm_num)) trivial
    (by norm_num) (by norm_num)
  rw [nonce_one hn, hp, ha, hn, hg, h0, hb]
  exact ⟨by decide, by decide, test_fifteen.2.2.2.2.1, test_fifteen.2.2.2.1, test_fifteen.2.2.2.1⟩

/-- SharedPointAtInfinity: the point operand is `Infinity`. -/
theorem witness_SharedPointAtInfinity :
    cipherState.msgLen.toNat ≤ 4096 ∧ 2 ≤ cipherState.curveP ∧ 2 ≤ cipherState.curveN ∧
    pmul cipherState.curveP cipherState.curveA cipherState.curveG (nonceAt cipherState 0) = .ok (.finite 5 1) ∧
    pmul cipherState.curveP cipherState.curveA (cipherState.readPoint 1) (nonceAt cipherState 0) = .ok .infinity ∧
    pmul cipherState.curveP cipherState.curveA (cipherState.readPoint 1) (cipherState.readBig 0) = .ok .infinity :=
  ⟨witness_EncryptResult.2.1, witness_EncryptResult.2.2.1, witness_EncryptResult.2.2.2.1, cipherState_multiple.2.1,
    cipherState_multiple.2.2.2⟩

/-- `ENCRYPT` completes on this state, and writes `OUT` (WhoWritesWhat). -/
theorem cipherState_encrypts :
    ∃ t, exec (.encrypt 2 0) cipherState = .next t ∧ t.status.errcode = .none ∧ t.out ≠ cipherState.out := by
  obtain ⟨-, hl, hp, hn, hg, h0⟩ := witness_EncryptResult
  have hk : (keydraw cipherState.curveN cipherState).1 = nonceAt cipherState 0 := by simp [keydraw, draw, nonceAt]
  refine ⟨complete (((drawn 1 cipherState).writeOut
    (cipherBytes Config.ksHexCase 5 cipherState.message)).writePoint 2 (.finite 5 1)), ?_, rfl, ?_⟩
  case refine_2 =>
    show Memory.writeBytes [] 0 (cipherBytes Config.ksHexCase 5 [0x68#8]) ≠ []
    cases Config.ksHexCase <;> decide +kernel
  change execEncrypt 2 0 cipherState = _
  unfold execEncrypt
  rw [if_neg (by simp only [Config.msgBytes]; omega), if_neg (by omega)]
  dsimp only
  rw [hk]
  simp only [encryptPoints, hg, sharedSecret, h0, conclude_ok]
  rfl

theorem cipherState_decrypts (u : State) (hu : ∃ m, u = { cipherState with msg := m }) :
    ∃ v, exec (.decrypt 0 0) u = .next v := by
  obtain ⟨m, rfl⟩ := hu
  rcases exec_ends (.decrypt 0 0) { cipherState with msg := m } with ⟨e, n, h, -⟩ | ⟨v, h, -⟩ <;> exact ⟨_, h⟩

/-- OtherMessageBytesNotRead: another byte above `MSG_LEN`; for `SHABLK` another byte above its block; and for a command
that reads no message (here with `MSG_LEN` 1) another byte 0. -/
theorem witness_OtherMessageBytesNotRead :
    ((∃ t, exec (.encrypt 2 0) cipherState = .next t) ∧
      ∀ k, k < cipherState.msgLen.toNat → Memory.read [(0, 0x68#8), (1, 1#8)] k = cipherState.msg.read k) ∧
    ((∃ t, exec (.shablk 0#8) State.reset = .next t) ∧
      ∀ k, k < 64 → Memory.read [(64, 1#8)] k = State.reset.msg.read k) ∧
    (∃ t, exec .shainit cipherState = .next t) ∧
      opcodeOfInstr .shainit ∉ [Opcode.shahash, .sign, .verify, .encrypt, .decrypt] ∧
      0 < cipherState.msgLen.toNat ∧ Memory.read [(0, 0x69#8)] 0 ≠ cipherState.msg.read 0 := by
  refine ⟨⟨?_, by decide⟩, ⟨⟨_, rfl⟩, by decide⟩, ⟨_, rfl⟩, by decide, by decide, by decide⟩
  obtain ⟨t, ht, -⟩ := cipherState_encrypts
  exact ⟨t, ht⟩

/-- CipherRoundTrip: the ciphertext of one state is the message of the next. -/
theorem witness_CipherRoundTrip : ∃ t u v : State,
    exec (.encrypt 2 0) cipherState = .next t ∧ t.status.errcode = .none ∧ cipherState.out.wf = true ∧
    u = { cipherState with msg := t.out } ∧ u.out.wf = true ∧ u.msgLen = cipherState.msgLen ∧
    (∀ i, u.msg.read i = t.out.read i) ∧
    pmul u.curveP u.curveA (u.readPoint 0) (u.readBig 0) = .ok (.finite 5 1) ∧ exec (.decrypt 0 0) u = .next v := by
  obtain ⟨t, ht, he, -⟩ := cipherState_encrypts
  obtain ⟨v, hv⟩ := cipherState_decrypts { cipherState with msg := t.out } ⟨_, rfl⟩
  exact ⟨t, _, v, ht, he, rfl, rfl, rfl, rfl, fun _ => rfl, cipherState_multiple.2.2.1, hv⟩

/-- WhoReportsWhat: an `INFINITY_POINT` from `DECRYPT`. -/
theorem witness_WhoReportsWhat_infinity :
    ∃ t, exec (.decrypt 0 1) cipherState = .next t ∧ t.status.errcode = .infinityPoint := by
  obtain ⟨hl, hp, -, -, -, h⟩ := witness_SharedPointAtInfinity
  refine ⟨failedState .infinityPoint 0 cipherState, ?_, rfl⟩
  change execDecrypt 0 1 cipherState = _
  unfold execDecrypt
  rw [if_neg (by simp only [Config.msgBytes]; omega), if_neg (by omega)]
  simp only [sharedSecret, h, conclude_error, takeError_eq]

/-- A signature that verifies: order 2, `r = s = 1`, the empty message, `Q = Infinity`. -/
def verifyState : State := (((orderTwo 5 1).writeBig 0 1).writeBig 1 1).writePoint 0 .infinity

/-- WhoWritesWhat: `VERIFY` sets `VALID`. -/
theorem witness_WhoWritesWhat_valid :
    verifyState.status.valid = false ∧ ∃ t, exec (.verify 0 1 0) verifyState = .next t ∧ t.status.valid = true := by
  obtain ⟨hp, ha, hn, hg⟩ := orderTwo_values (gx := 5) (gy := 1) (by norm_num) (by norm_num)
  have hc : verifyState.curve = (orderTwo 5 1).curve := by simp [verifyState]
  have hp' : verifyState.curveP = 17 := by rw [← hp, State.curveP, hc, State.curveP]
  have ha' : verifyState.curveA = 2 := by rw [← ha, State.curveA, hc, State.curveA]
  have hn' : verifyState.curveN = 2 := by rw [← hn, State.curveN, hc, State.curveN]
  have hg' : verifyState.curveG = .finite 5 1 := by rw [← hg, State.curveG, hc, State.curveG]
  have h1 : (1 : Nat) < 2 ^ Config.W := Config.lt_two_pow_W (by norm_num)
  have r0 : verifyState.readBig 0 = 1 := by
    show (((orderTwo 5 1).writeBig 0 1).writeBig 1 1).readBig 0 = 1
    rw [State.readBig_writeBig_ne _ _ (by decide), State.readBig_writeBig _ _ _ h1]
    rfl
  have r1 : verifyState.readBig 1 = 1 := by
    show (((orderTwo 5 1).writeBig 0 1).writeBig 1 1).readBig 1 = 1
    rw [State.readBig_writeBig _ _ _ h1]
    rfl
  have q : verifyState.readPoint 0 = .infinity := State.readPoint_writePoint _ 0 (q := .infinity) trivial
  have hz : verifyState.messageZ = 0xe3b0c44298fc1c149afbf4c8996fb92427ae41e4649b934ca495991b7852b855 :=
    test_shahash_empty
  have hs : signatureCheck verifyState = none := by
    unfold signatureCheck
    rw [if_neg (show ¬ verifyState.msgLen.toNat > Config.msgBytes by decide), if_neg (by omega)]
  have hv : verifySignature ⟨17, 2, 2, .finite 5 1⟩
      0xe3b0c44298fc1c149afbf4c8996fb92427ae41e4649b934ca495991b7852b855 1 1 .infinity = .ok true := by decide +kernel
  refine ⟨rfl, complete (verifyState.writeValid true), ?_, rfl⟩
  change execVerify 0 1 0 verifyState = _
  unfold execVerify
  rw [hs]
  simp only [State.curveValues, hp', ha', hn', hg', r0, r1, q, hz, hv, conclude_ok]

end Sys2Proof.Machine
end

section
/-! PROOFS. The state of the block (10_state.md): the buffers' canonical form, the point registers, the registers of
`W` bits word by word, the words of `STATUS` and `CTRL`, and what commands write and read. -/

namespace Sys2Proof.Machine

/-! ### Canonical buffers -/

/-- The first cell of a canonical buffer shows in what the buffer reads. -/
theorem Memory.read_head_ne_unlisted {lo k : Nat} {v : Byte} {m : Memory}
    (h : Memory.wfFrom lo ((k, v) :: m) = true) : Memory.read ((k, v) :: m) k ≠ Memory.unlisted := by
  rw [Memory.read_cons, if_pos rfl]
  exact (Memory.wfFrom_cons.1 h).2.2.1

/-- Of two canonical buffers with the same bytes, neither lists an index below the other's first. -/
theorem Memory.head_le_of_read_eq {lo lo' k k' : Nat} {v v' : Byte} {m m' : Memory}
    (h : Memory.wfFrom lo ((k, v) :: m) = true) (h' : Memory.wfFrom lo' ((k', v') :: m') = true)
    (hr : ∀ i, Memory.read ((k, v) :: m) i = Memory.read ((k', v') :: m') i) : k' ≤ k := by
  by_contra hlt
  have below : Memory.read ((k', v') :: m') k = Memory.unlisted :=
    Memory.read_below (lo := k') (Memory.wfFrom_cons.2 ⟨le_rfl, (Memory.wfFrom_cons.1 h').2⟩) (by omega)
  exact Memory.read_head_ne_unlisted h ((hr k).trans below)

/-- What a canonical buffer reads behind its first cell is what the rest reads. -/
theorem Memory.read_tail {lo k : Nat} {v : Byte} {m : Memory} (h : Memory.wfFrom lo ((k, v) :: m) = true) (i : Nat) :
    Memory.read m i = if i ≤ k then Memory.unlisted else Memory.read ((k, v) :: m) i := by
  split
  · exact Memory.read_below (Memory.wfFrom_cons.1 h).2.2.2 (by omega)
  · rw [Memory.read_cons, if_neg (by omega)]

theorem Memory.eq_of_read_eq {lo lo' : Nat} {m m' : Memory} (h : Memory.wfFrom lo m = true)
    (h' : Memory.wfFrom lo' m' = true) (hr : ∀ i, Memory.read m i = Memory.read m' i) : m = m' := by
  induction m generalizing m' lo lo' with
  | nil =>
    cases m' with
    | nil => rfl
    | cons c m' => exact absurd (hr c.1).symm (Memory.read_head_ne_unlisted h')
  | cons c m ih =>
    cases m' with
    | nil => exact absurd (hr c.1) (Memory.read_head_ne_unlisted h)
    | cons c' m' =>
      obtain ⟨k, v⟩ := c
      obtain ⟨k', v'⟩ := c'
      obtain rfl : k = k' :=
        le_antisymm (Memory.head_le_of_read_eq h' h fun i => (hr i).symm) (Memory.head_le_of_read_eq h h' hr)
      obtain rfl : v = v' := by simpa [Memory.read_cons] using hr k
      have tails : m = m' := ih (Memory.wfFrom_cons.1 h).2.2.2 (Memory.wfFrom_cons.1 h').2.2.2 fun i => by
        rw [Memory.read_tail h, Memory.read_tail h', hr]
      rw [tails]

/-- Settles O20: the first cells agree because each shows in what its buffer reads, and then the rests do. -/
theorem canonicalBuffersAreEqual : Obligations.CanonicalBuffersAreEqual :=
  fun _ _ h h' hr => Memory.eq_of_read_eq h h' hr

/-! ### Point registers -/

/-- A write of a point register leaves it as 10_state.md R26 says. -/
theorem State.writePoint_pointWritten (s : State) (j : PReg) {q : Point} (hq : q.fits) :
    PointWritten (s.writePoint j q) j q :=
  (complete_writePoint s j hq).1

/-- Settles O31: `PointWritten` says it of the register written, `writePoint_other` of the others. -/
theorem pointRegisterWrite : Obligations.PointRegisterWrite := by
  rintro s j q hq t rfl
  have fits : q.fits := by
    cases q with
    | infinity => trivial
    | finite x y => exact hq x y rfl
  obtain ⟨hread, hfields⟩ := State.writePoint_pointWritten s j fits
  refine ⟨hread, ?_, ?_, fun k hk => State.writePoint_other s q hk.symm⟩
  · rintro rfl
    exact hfields
  · rintro x y rfl
    exact hfields

/-! ### What a host write does -/

/-- While the engine is idle a host write reaches every location (20_memory.md R70). -/
theorem writeHost_idle {s : State} (h : s.engine = .idle) (l : Loc) (v : Word) : writeHost l v s = writeLoc v s l := by
  simp [writeHost, State.isBusy, h]

/-- A host write reaches `CTRL`, `STATUS` and `CMD` whether the engine is idle or busy (70_reset_and_hazards.md
R311). -/
theorem writeHost_writableWhileBusy {l : Loc} (h : writableWhileBusy l = true) (v : Word) (s : State) :
    writeHost l v s = writeLoc v s l := by
  simp [writeHost, h]

/-- A location that ignores writes ignores them idle or busy (20_memory.md R67). -/
theorem writeHost_of_writeLoc_eq {l : Loc} {v : Word} {s : State} (h : writeLoc v s l = s) : writeHost l v s = s := by
  rw [writeHost, h, ite_self]

/-- A step whose event is a defined write is that write (20_memory.md R70). -/
theorem step_write {s : State} {off : Nat} {v : Word} {rest : List BusEvent} (ho : off < 0x4000) (ha : off % 4 = 0)
    (h : s.bus = .write off 4 v :: rest) : step s = .next (writeHost (locate off) v { s with bus := rest }) :=
  (step_event h).trans (checkedAccess_defined ho rfl ha _)

/-! ### `ID` and `PARAM` -/

/-- The value of two fields side by side. -/
theorem append_toNat {m n : Nat} (x : BitVec m) (y : BitVec n) : (x ++ y).toNat = x.toNat * 2 ^ n + y.toNat := by
  rw [BitVec.toNat_append, ← Nat.shiftLeft_add_eq_or_of_lt y.isLt, Nat.shiftLeft_eq]

/-- The two halves of `PARAM` (10_state.md R39). -/
theorem paramValue_toNat : paramValue.toNat = Config.msgBytes * 2 ^ 16 + Config.W := by
  have low : Config.W % 2 ^ 16 = Config.W := Nat.mod_eq_of_lt (by have := Config.W_bounds; omega)
  have high : Config.msgBytes % 2 ^ 16 = Config.msgBytes := Nat.mod_eq_of_lt (by decide)
  unfold paramValue
  simp only [append_toNat, BitVec.toNat_ofNat, low, high]

/-- Settles O30: the halves of `PARAM` are read off its value, and neither location is written. -/
theorem identityRegisters : Obligations.IdentityRegisters := by
  intro s v
  have hW := Config.W_bounds
  have param : (readLoc s .param).toNat = Config.msgBytes * 2 ^ 16 + Config.W := paramValue_toNat
  rw [param, Config.msgBytes]
  exact ⟨by omega, by omega, ⟨Config.W_mod, hW⟩, rfl, writeHost_of_writeLoc_eq rfl, writeHost_of_writeLoc_eq rfl⟩

/-! ### `STATUS` and `CTRL` -/

theorem statusWord_toNat (s : State) : s.statusWord.toNat =
    (s.isBusy.toNat + 2 * s.status.done.toNat + 4 * s.status.valid.toNat + 8 * s.status.overrun.toNat) +
      256 * s.status.errcode.code.toNat := by
  simp only [State.statusWord, append_toNat, BitVec.toNat_ofBool, BitVec.toNat_ofNat]
  omega

theorem ctrlWord_toNat (c : Ctrl) : c.word.toNat = c.ie.toNat := by
  simp only [Ctrl.word, append_toNat, BitVec.toNat_ofBool, BitVec.toNat_ofNat]
  omega

theorem isBusy_iff (s : State) : s.isBusy = true ↔ ∃ c, s.engine = .busy c := by
  unfold State.isBusy
  cases s.engine <;> simp

/-- A write of `STATUS` clears by ones (10_state.md R36). -/
theorem clearWritten_eq (st : Status) (v : Word) :
    st.clearWritten v = ⟨st.done && !v[1], st.valid, st.overrun && !v[3], st.errcode⟩ := by
  unfold Status.clearWritten
  cases v[1] <;> cases v[3] <;> simp

/-- Settles O25: the fields of each word side by side, and the one write of `STATUS`. -/
theorem statusAndCtrlWords : Obligations.StatusAndCtrlWords := by
  refine ⟨statusWord_toNat, fun s => ctrlWord_toNat s.ctrl, isBusy_iff, rfl, fun s v rest h => ?_⟩
  rw [step_write (by decide) (by decide) h, show locate 0x000C = .status from rfl, writeHost_writableWhileBusy rfl]
  simp only [writeLoc, clearWritten_eq]

/-! ### Words of a `W`-bit register -/

/-- A word is bits `32j+31` to `32j` of the register (10_state.md R23). -/
theorem getWord_toNat (x : BigWord) (j : Fin 16) : (getWord x j).toNat = x.toNat / 2 ^ (32 * j.val) % 2 ^ 32 := by
  rw [getWord, BitVec.extractLsb'_toNat, Nat.shiftRight_eq_div_pow]

/-- A word above the register reads 0 (10_state.md R23). -/
theorem getWord_above (x : BigWord) {j : Fin 16} (hj : Config.W / 32 ≤ j.val) : getWord x j = 0#32 := by
  have := Config.W_mod
  ext i hi
  simp [getWord, BitVec.getLsbD_of_ge x (32 * j.val + i) (by omega)]

/-- A write of a word above the register is ignored (10_state.md R23). -/
theorem putWord_above (x : BigWord) {j : Fin 16} (hj : Config.W / 32 ≤ j.val) (v : Word) : putWord x j v = x := by
  have := Config.W_mod
  exact if_neg (by omega)

/-- The bits of a register after a write of one of its words. -/
theorem getLsbD_putWord (x : BigWord) {j : Fin 16} (hj : j.val < Config.W / 32) (v : Word) (i : Nat) :
    (putWord x j v).getLsbD i =
      if 32 * j.val ≤ i ∧ i < 32 * j.val + 32 then v.getLsbD (i - 32 * j.val) else x.getLsbD i := by
  have := Config.W_mod
  have ones : 0xFFFFFFFF#32 = BitVec.allOnes 32 := rfl
  by_cases hW : i < Config.W
  · rw [putWord, if_pos (by omega), ones]
    simp only [BitVec.getLsbD_or, BitVec.getLsbD_and, BitVec.getLsbD_not, BitVec.getLsbD_shiftLeft,
      BitVec.getLsbD_setWidth, BitVec.getLsbD_allOnes, hW, show i - 32 * j.val < Config.W by omega]
    rcases Nat.lt_or_ge i (32 * j.val) with below | above
    · simp [below]
    · by_cases inside : i - 32 * j.val < 32
      · simp [show ¬ i < 32 * j.val by omega, above, inside, show i < 32 * j.val + 32 by omega]
      · simp [inside, show ¬ i < 32 * j.val + 32 by omega, BitVec.getLsbD_of_ge v (i - 32 * j.val) (by omega)]
  · rw [BitVec.getLsbD_of_ge _ i (by omega), BitVec.getLsbD_of_ge x i (by omega), if_neg (by omega)]

theorem getWord_putWord_same (x : BigWord) {j : Fin 16} (hj : j.val < Config.W / 32) (v : Word) :
    getWord (putWord x j v) j = v := by
  ext i hi
  simp [getWord, getLsbD_putWord x hj, hi]

theorem getWord_putWord_ne (x : BigWord) {j j' : Fin 16} (h : j' ≠ j) (v : Word) :
    getWord (putWord x j v) j' = getWord x j' := by
  have hv : j'.val ≠ j.val := fun e => h (Fin.ext e)
  by_cases hj : j.val < Config.W / 32
  · ext i hi
    simp only [getWord, BitVec.getElem_extractLsb', getLsbD_putWord x hj]
    rw [if_neg (by omega)]
  · rw [putWord_above x (by omega)]

/-! ### The registers of `W` bits -/

/-- The bits a register of `W` bits holds. -/
def WideReg.bits : WideReg → State → BigWord
  | .big i, s => s.big[i.val]
  | .pointX k, s => (s.point[k.val]).x
  | .pointY k, s => (s.point[k.val]).y
  | .curve c, s => getCurveReg s.curve c

theorem WideReg.value_eq (r : WideReg) (s : State) : r.value s = (r.bits s).toNat := by
  cases r with
  | big i => rfl
  | pointX k => rfl
  | pointY k => rfl
  | curve c => cases c <;> rfl

theorem WideReg.readLoc_word (r : WideReg) (j : Fin 16) (s : State) : readLoc s (r.word j) = getWord (r.bits s) j := by
  cases r <;> rfl

theorem getCurveReg_setCurveReg (cr : CurveRegs) (c c' : CurveReg) (v : BigWord) :
    getCurveReg (setCurveReg cr c v) c' = if c = c' then v else getCurveReg cr c' := by
  cases c <;> cases c' <;> rfl

/-- The coordinates of the point registers after a write of one `X`. -/
theorem getElem_set_x (ps : Vector PointReg 8) (k k' : PReg) (a : BigWord) :
    ((ps.set k.val { ps[k.val] with x := a } k.isLt)[k'.val]).x = (if k = k' then a else (ps[k'.val]).x) ∧
      ((ps.set k.val { ps[k.val] with x := a } k.isLt)[k'.val]).y = (ps[k'.val]).y := by
  by_cases h : k = k'
  · subst h
    simp
  · simp [h, Fin.val_ne_of_ne h]

/-- The coordinates of the point registers after a write of one `Y`. -/
theorem getElem_set_y (ps : Vector PointReg 8) (k k' : PReg) (a : BigWord) :
    ((ps.set k.val { ps[k.val] with y := a } k.isLt)[k'.val]).x = (ps[k'.val]).x ∧
      ((ps.set k.val { ps[k.val] with y := a } k.isLt)[k'.val]).y = (if k = k' then a else (ps[k'.val]).y) := by
  by_cases h : k = k'
  · subst h
    simp
  · simp [h, Fin.val_ne_of_ne h]

theorem WideReg.bits_writeLoc (r : WideReg) (j : Fin 16) (v : Word) (s : State) (r' : WideReg) :
    r'.bits (writeLoc v s (r.word j)) = if r = r' then putWord (r.bits s) j v else r'.bits s := by
  cases r with
  | big i => cases r' <;> simp [word, writeLoc, bits, Vector.getElem_set, Fin.ext_iff]
  | pointX k => cases r' <;> simp [word, writeLoc, bits, getElem_set_x]
  | pointY k => cases r' <;> simp [word, writeLoc, bits, getElem_set_y]
  | curve c => cases r' <;> simp [word, writeLoc, bits, getCurveReg_setCurveReg]

theorem WideReg.pinf_writeLoc (r : WideReg) (j : Fin 16) (v : Word) (s : State) :
    (writeLoc v s (r.word j)).pinf = s.pinf := by
  cases r <;> rfl

/-- A write of a word above a register writes back what the register holds. -/
theorem WideReg.writeLoc_word_above (r : WideReg) {j : Fin 16} (hj : Config.W / 32 ≤ j.val) (v : Word) (s : State) :
    writeLoc v s (r.word j) = s := by
  cases r with
  | big i => simp [word, writeLoc, putWord_above _ hj]
  | pointX k | pointY k =>
    simp only [word, writeLoc, putWord_above _ hj]
    exact congrArg (fun ps => { s with point := ps }) (Vector.set_getElem_self k.isLt)
  | curve c => cases c <;> simp [word, writeLoc, putWord_above _ hj, getCurveReg, setCurveReg]

/-- A tag decides what a point register reads as (10_state.md R25). -/
theorem readPoint_of_tag (s : State) (k : PReg) :
    (s.pinf[k.val] = true → s.readPoint k = .infinity) ∧
      (s.pinf[k.val] = false → s.readPoint k = .finite (s.point[k.val]).x.toNat (s.point[k.val]).y.toNat) :=
  ⟨fun h => if_pos h, fun h => if_neg (by simp [h])⟩

/-- Settles O27: a host access of a word is one of `getWord` and `putWord` on the register's bits, and a word is
settled by its bits. -/
theorem bigRegisterWords : Obligations.BigRegisterWords := by
  refine ⟨fun s k => ?_, fun s r j v hs => ?_⟩
  · obtain ⟨infinite, finite⟩ := readPoint_of_tag s k
    exact ⟨infinite, finite, rfl, rfl, rfl, rfl⟩
  · rw [writeHost_idle hs, WideReg.pinf_writeLoc]
    simp only [WideReg.readLoc_word]
    refine ⟨?_, fun hj => ⟨getWord_above _ hj, r.writeLoc_word_above hj v s⟩, fun hj => ?_, trivial,
      fun r' j' hne => ?_⟩
    · rw [getWord_toNat, WideReg.value_eq]
    · rw [WideReg.bits_writeLoc, if_pos rfl, getWord_putWord_same _ hj]
    · rw [WideReg.bits_writeLoc]
      by_cases h : r = r'
      · subst h
        rw [if_pos rfl, getWord_putWord_ne _ (fun e => hne (by rw [e]))]
      · rw [if_neg h]

/-! ### What commands write -/

/-- From `s` to `t` the command `i` has written only state of the kinds it may write: the host's own state never, and
the hash state, `OUT`, `RNG_CTR` and `VALID` by the commands that write them alone (10_state.md R27, R31 to R37). -/
def WritesItsKinds (i : Instr) (s t : State) : Prop :=
  (t.curve = s.curve ∧ t.msg = s.msg ∧ t.msgLen = s.msgLen ∧ t.ctrl = s.ctrl ∧ t.seed = s.seed ∧ t.cmd = s.cmd) ∧
    (t.shaH ≠ s.shaH → i = .shainit ∨ (∃ n, i = .shablk n) ∨ ∃ fd, i = .shahash fd) ∧
    (t.out ≠ s.out → (∃ fd fa, i = .encrypt fd fa) ∨ ∃ fa fb, i = .decrypt fa fb) ∧
    (∀ a, s.msgLen.toNat ≤ a → t.out.read a = s.out.read a) ∧
    (t.rngCtr ≠ s.rngCtr → (∃ fd, i = .keygen fd) ∨ (∃ fd fa fb, i = .sign fd fa fb) ∨ ∃ fd fa, i = .encrypt fd fa) ∧
    (s.status.valid = false → t.status.valid = true → ∃ fa fb fc, i = .verify fa fb fc)

/-- Only `SIGN` and `ENCRYPT` can end in an error after a draw. -/
theorem MayFail.draws {i : Instr} {e : ErrCode} {n : Nat} (h : MayFail i e n) :
    n = 0 ∨ (∃ fd fa fb, i = .sign fd fa fb) ∨ ∃ fd fa, i = .encrypt fd fa := by
  cases i with
  | nop | shainit => exact h.elim
  | sign fd fa fb => exact .inr (.inl ⟨fd, fa, fb, rfl⟩)
  | encrypt fd fa => exact .inr (.inr ⟨fd, fa, rfl⟩)
  | _ => exact .inl h.2

/-- An error writes `STATUS` and the draws made, and leaves `VALID` 0. -/
theorem MayFail.writesItsKinds {i : Instr} {e : ErrCode} {n : Nat} (h : MayFail i e n) (s : State) :
    WritesItsKinds i s (failedState e n s) := by
  refine ⟨⟨rfl, rfl, rfl, rfl, rfl, rfl⟩, fun hne => absurd rfl hne, fun hne => absurd rfl hne, fun _ _ => rfl,
    fun hne => ?_, fun _ hv => absurd hv Bool.false_ne_true⟩
  rcases h.draws with rfl | h
  · exact absurd (by simp [failedState]) hne
  · exact .inr h

/-- A write of bytes at the start of a buffer leaves those from its length up alone. -/
theorem Memory.read_writeBytes_above (m : Memory) {bs : List Byte} {n : Nat} (h : bs.length = n) :
    ∀ a, n ≤ a → Memory.read (Memory.writeBytes m 0 bs) a = Memory.read m a :=
  fun _ ha => Memory.read_writeBytes_outside m bs (.inr (by omega))

@[simp] theorem succeeded_valid (st : Status) : st.succeeded.valid = st.valid := rfl

/-- A success writes what its command writes, the completion fields of `STATUS` apart. -/
theorem MayWrite.writesItsKinds {i : Instr} {s u : State} (h : MayWrite s i u) : WritesItsKinds i s (complete u) := by
  cases i with
  | nop =>
    cases h
    simp [WritesItsKinds]
  | modred | modadd | modsub | modmul | montmul | montr2 | modinv =>
    obtain ⟨v, rfl⟩ := h
    simp [WritesItsKinds]
  | padd | pdbl | pmul | pubkey =>
    obtain ⟨q, rfl⟩ := h
    simp [WritesItsKinds]
  | keygen fd =>
    obtain ⟨v, rfl⟩ := h
    simp [WritesItsKinds, drawn]
  | shainit | shablk =>
    obtain ⟨hash, rfl⟩ := h
    simp [WritesItsKinds]
  | shahash fd =>
    obtain ⟨hash, v, rfl⟩ := h
    simp [WritesItsKinds]
  | sign fd fa fb =>
    obtain ⟨n, r, q, -, rfl⟩ := h
    simp [WritesItsKinds, drawn]
  | verify fa fb fc =>
    obtain ⟨v, rfl⟩ := h
    simp [WritesItsKinds]
  | encrypt fd fa =>
    obtain ⟨-, bs, q, hbs, rfl⟩ := h
    simpa [WritesItsKinds, drawn] using Memory.read_writeBytes_above s.out hbs
  | decrypt fa fb =>
    obtain ⟨-, bs, hbs, rfl⟩ := h
    simpa [WritesItsKinds] using Memory.read_writeBytes_above s.out hbs

theorem exec_writesItsKinds {i : Instr} {s t : State} (h : exec i s = .next t) : WritesItsKinds i s t := by
  rcases exec_ends i s with ⟨e, n, hr, hf⟩ | ⟨u, hr, hw⟩
  · obtain rfl : failedState e n s = t := by simpa [hr] using h
    exact hf.writesItsKinds s
  · obtain rfl : complete u = t := by simpa [hr] using h
    exact hw.writesItsKinds

/-- Settles O11: of the two ends of a command an error writes `STATUS` and `RNG_CTR` alone, and a success what
`MayWrite` says. -/
theorem whoWritesWhat : Obligations.WhoWritesWhat :=
  fun _ _ _ h => exec_writesItsKinds h

/-! ### What commands read -/

/-- The state with other contents of `CURVE_B` (10_state.md R30) and of `MSG` (20_memory.md R77): one argument shows
that no command reads either, the message it takes apart. -/
def State.withCurveBMsg (b : BigWord) (m : Memory) (s : State) : State :=
  { s with curve := { s.curve with b := b }, msg := m }

/-- The next state changed by `g`. -/
def mapNext (g : State → State) : Result → Result
  | .next s => .next (g s)
  | .fault r => .fault r
  | .refused r => .refused r

/-- `m` shows the command `i` the bytes of a message that `s` does: those below `MSG_LEN`, of a block its 64
(20_memory.md R77). -/
def SameMessage (m : Memory) (s : State) : Instr → Prop
  | .shahash _ | .sign _ _ _ | .verify _ _ _ | .encrypt _ _ | .decrypt _ _ =>
    Memory.bytes m 0 s.msgLen.toNat = s.message
  | .shablk n => Memory.bytes m (64 * n.toNat) 64 = s.messageBlock n.toNat
  | _ => True

section
variable (b : BigWord) (m : Memory)

theorem writePoint_withCurveBMsg (s : State) (j : PReg) (q : Point) :
    (s.withCurveBMsg b m).writePoint j q = (s.writePoint j q).withCurveBMsg b m := by
  cases q <;> rfl

/-- A commit that writes the same on both states commits the same. -/
theorem conclude_withCurveBMsg {α : Type} (r : Except ErrCode α) {f : α → State → State}
    (hf : ∀ v t, f v (t.withCurveBMsg b m) = (f v t).withCurveBMsg b m) (s : State) :
    conclude r f (s.withCurveBMsg b m) = mapNext (State.withCurveBMsg b m) (conclude r f s) := by
  cases r with
  | ok v => rw [conclude_ok, hf]; rfl
  | error e => rfl

theorem conclude_writeBig_withCurveBMsg (r : Except ErrCode Nat) (d : BReg) (s : State) :
    conclude r (fun v t => t.writeBig d v) (s.withCurveBMsg b m) =
      mapNext (State.withCurveBMsg b m) (conclude r (fun v t => t.writeBig d v) s) :=
  conclude_withCurveBMsg b m r (fun _ _ => by rfl) s

theorem conclude_writePoint_withCurveBMsg (r : Except ErrCode Point) (d : PReg) (s : State) :
    conclude r (fun q t => t.writePoint d q) (s.withCurveBMsg b m) =
      mapNext (State.withCurveBMsg b m) (conclude r (fun q t => t.writePoint d q) s) :=
  conclude_withCurveBMsg b m r (fun q t => writePoint_withCurveBMsg b m t d q) s

/-- The signing loop draws the same nonces and answers the same. -/
theorem signLoop_withCurveBMsg (c : CurveValues) (z d n : Nat) (s : State) :
    signLoop c z d n (s.withCurveBMsg b m) = ((signLoop c z d n s).1, (signLoop c z d n s).2.withCurveBMsg b m) := by
  induction n generalizing s with
  | zero => rfl
  | succ n ih =>
    have draws : keydraw c.n (s.withCurveBMsg b m) = ((keydraw c.n s).1, (keydraw c.n s).2.withCurveBMsg b m) := rfl
    simp only [signLoop, draws]
    split
    · rfl
    · exact ih _
    · rfl

/-- A command that is shown its message does the same whatever `CURVE_B` and the other bytes of `MSG` hold. -/
theorem exec_withCurveBMsg {i : Instr} {s : State} (hm : SameMessage m s i) :
    exec i (s.withCurveBMsg b m) = mapNext (State.withCurveBMsg b m) (exec i s) := by
  cases i with
  | nop | shainit => rfl
  | modred | modadd | modsub | modmul | montmul | montr2 | modinv =>
    exact conclude_writeBig_withCurveBMsg b m _ _ s
  | padd | pdbl | pmul | pubkey => exact conclude_writePoint_withCurveBMsg b m _ _ s
  | keygen fd =>
    change execKeygen fd _ = mapNext _ (execKeygen fd s)
    unfold execKeygen
    rw [apply_ite (mapNext _)]
    rfl
  | shablk n =>
    change execShablk n _ = mapNext _ (execShablk n s)
    have block : (s.withCurveBMsg b m).messageBlock n.toNat = s.messageBlock n.toNat := hm
    unfold execShablk
    rw [block, apply_ite (mapNext _)]
    rfl
  | shahash fd =>
    change execShahash fd _ = mapNext _ (execShahash fd s)
    have message : (s.withCurveBMsg b m).message = s.message := hm
    unfold execShahash
    rw [message, apply_ite (mapNext _)]
    rfl
  | sign fd fa fb =>
    change execSign fd fa fb _ = mapNext _ (execSign fd fa fb s)
    have z : (s.withCurveBMsg b m).messageZ = s.messageZ := congrArg (fun bs => zint (sha256 bs)) hm
    have check : signatureCheck (s.withCurveBMsg b m) = signatureCheck s := rfl
    have curve : (s.withCurveBMsg b m).curveValues = s.curveValues := rfl
    have key : (s.withCurveBMsg b m).readBig fa = s.readBig fa := rfl
    unfold execSign
    rw [check, z, curve, key, signLoop_withCurveBMsg]
    split
    · rfl
    · split
      · rfl
      · exact conclude_withCurveBMsg b m _ (fun _ _ => by rfl) _
  | verify fa fb fc =>
    change execVerify fa fb fc _ = mapNext _ (execVerify fa fb fc s)
    have z : (s.withCurveBMsg b m).messageZ = s.messageZ := congrArg (fun bs => zint (sha256 bs)) hm
    have check : signatureCheck (s.withCurveBMsg b m) = signatureCheck s := rfl
    unfold execVerify
    rw [check, z]
    split
    · rfl
    · exact conclude_withCurveBMsg b m _ (fun _ _ => by rfl) s
  | encrypt fd fa =>
    change execEncrypt fd fa _ = mapNext _ (execEncrypt fd fa s)
    have message : (s.withCurveBMsg b m).message = s.message := hm
    unfold execEncrypt
    rw [message, apply_ite (mapNext _), apply_ite (mapNext _)]
    congr 2
    exact conclude_withCurveBMsg b m _
      (fun v t => writePoint_withCurveBMsg b m (t.writeOut (cipherBytes Config.ksHexCase v.2 s.message)) fd v.1)
      (keydraw s.curveN s).2
  | decrypt fa fb =>
    change execDecrypt fa fb _ = mapNext _ (execDecrypt fa fb s)
    have message : (s.withCurveBMsg b m).message = s.message := hm
    unfold execDecrypt
    rw [message, apply_ite (mapNext _), apply_ite (mapNext _)]
    congr 2
    exact conclude_withCurveBMsg b m _ (fun _ _ => by rfl) s

end

/-- Every command shows itself the message it has. -/
theorem sameMessage_self (s : State) (i : Instr) : SameMessage s.msg s i := by
  cases i <;> trivial

/-- Settles O13: no command reads `CURVE_B`, nor writes `MSG`, which so stays that of the state it leaves. -/
theorem curveBReadByNoCommand : Obligations.CurveBReadByNoCommand := by
  intro i s t b h
  obtain ⟨⟨-, hmsg, -⟩, -⟩ := exec_writesItsKinds h
  have same := exec_withCurveBMsg b s.msg (sameMessage_self s i)
  rw [h] at same
  have kept : t.withCurveBMsg b s.msg = { t with curve := { t.curve with b := b } } := by rw [← hmsg]; rfl
  exact same.trans (congrArg Host.Outcome.next kept)

end Sys2Proof.Machine
end

section
/-! PROOFS. The host's side of the block (20_memory.md): undefined accesses, the register map, the byte order of the
buffers, what a host write changes, and the bytes of `MSG` that commands read. -/

namespace Sys2Proof.Machine

/-! ### Undefined accesses -/

/-- Inside the window an access of another width or at a misaligned offset is refused (20_memory.md R66). -/
theorem checkedAccess_undefined {off width : Nat} (ho : off < 0x4000) (h : width ≠ 4 ∨ off % 4 ≠ 0) (r : Result) :
    checkedAccess off width r = .refused .undefinedAccess := by
  unfold checkedAccess
  rw [if_neg (by simp only [Config.windowBytes]; omega), if_pos h]

/-- Settles O22: both accesses go through `checkedAccess`. -/
theorem undefinedAccessRefused : Obligations.UndefinedAccessRefused :=
  fun _ _ _ _ _ ho h =>
    ⟨fun hb => (step_event hb).trans (checkedAccess_undefined ho h _),
      fun hb => (step_event hb).trans (checkedAccess_undefined ho h _)⟩

/-! ### The register map -/

theorem curveRegSlot_lt (c : CurveReg) : curveRegSlot c < 6 := by
  cases c <;> decide

theorem curveRegAt_curveRegSlot (c : CurveReg) : curveRegAt (curveRegSlot c) = c := by
  cases c <;> rfl

theorem curveRegSlot_curveRegAt {i : Nat} (h : i < 6) : curveRegSlot (curveRegAt i) = i := by
  interval_cases i <;> rfl

/-- Every row of the map stands at an aligned offset below `0x3000`. -/
theorem offsetOf_range (l : Loc) : offsetOf l < 0x3000 ∧ offsetOf l % 4 = 0 := by
  cases l with
  | shaH i | bigWord i j | pointX k j | pointY k j | msgWord m | outWord m =>
    simp only [offsetOf]
    omega
  | curveWord c j =>
    have := curveRegSlot_lt c
    simp only [offsetOf]
    omega
  | _ => decide

/-- An index computed from an offset is the one the offset was made from. -/
theorem fin_ofNat_eq {n k : Nat} [NeZero n] {i : Fin n} (h : k = i.val) : Fin.ofNat n k = i := by
  rw [h, Fin.ofNat_val_eq_self]

/-- What stands at the offset of a named location is that location: its offset is in the range of its own branch of
`locate`, and the indices come back. -/
theorem locate_offsetOf {l : Loc} (h : l ≠ .reserved) : locate (offsetOf l) = l := by
  cases l with
  | reserved => exact absurd rfl h
  | shaH i =>
    rw [offsetOf, locate, if_neg (by omega), if_pos (by omega), fin_ofNat_eq (i := i) (by omega)]
  | bigWord i j =>
    rw [offsetOf, locate]
    repeat rw [if_neg (by omega)]
    rw [if_pos (by omega), fin_ofNat_eq (i := i) (by omega), fin_ofNat_eq (i := j) (by omega)]
  | pointX k j =>
    rw [offsetOf, locate]
    repeat rw [if_neg (by omega)]
    rw [if_pos (by omega), if_pos (by omega), fin_ofNat_eq (i := k) (by omega), fin_ofNat_eq (i := j) (by omega)]
  | pointY k j =>
    rw [offsetOf, locate]
    repeat rw [if_neg (by omega)]
    rw [if_pos (by omega), if_neg (by omega), fin_ofNat_eq (i := k) (by omega), fin_ofNat_eq (i := j) (by omega)]
  | curveWord c j =>
    have := curveRegSlot_lt c
    have slot : (0x0C00 + 0x40 * curveRegSlot c + 4 * j.val - 0x0C00) / 0x40 = curveRegSlot c := by omega
    rw [offsetOf, locate]
    repeat rw [if_neg (by omega)]
    rw [if_pos (by omega), slot, curveRegAt_curveRegSlot, fin_ofNat_eq (i := j) (by omega)]
  | msgWord m | outWord m =>
    rw [offsetOf, locate]
    repeat rw [if_neg (by omega)]
    rw [if_pos (by omega), fin_ofNat_eq (i := m) (by omega)]
  | _ => rfl

/-- The offsets of the window for which the table of 20_memory.md R61 names no location. -/
def ReservedOffset (off : Nat) : Prop :=
  off = 0x001C ∨ (0x0030 ≤ off ∧ off ≤ 0x003F) ∨ (0x0060 ≤ off ∧ off ≤ 0x03FF) ∨
    (0x0D80 ≤ off ∧ off ≤ 0x0FFF) ∨ 0x3000 ≤ off

theorem locate_of_reservedOffset {off : Nat} (ha : off % 4 = 0) (h : ReservedOffset off) : locate off = .reserved := by
  rcases h with rfl | ⟨hl, hu⟩ | ⟨hl, hu⟩ | ⟨hl, hu⟩ | hl
  · rfl
  · obtain rfl | rfl | rfl | rfl : off = 0x0030 ∨ off = 0x0034 ∨ off = 0x0038 ∨ off = 0x003C := by omega
    all_goals rfl
  · rw [locate, if_neg (by omega), if_neg (by omega), if_pos (by omega)]
  · rw [locate]
    repeat rw [if_neg (by omega)]
    rw [if_pos (by omega)]
  · rw [locate]
    repeat rw [if_neg (by omega)]

/-- The sixteen aligned offsets below `0x0040`: five are reserved, the others are those of the control registers. -/
theorem reserved_or_controlRegister : ∀ k : Fin 16, 4 * k.val = 0x001C ∨ 0x0030 ≤ 4 * k.val ∨
    ∃ l ∈ [Loc.id, .param, .ctrl, .status, .cmd, .msgLen, .pinf, .seedLo, .seedHi, .rngCtrLo, .rngCtrHi],
      offsetOf l = 4 * k.val := by
  decide

/-- Every aligned offset is reserved or the offset of a named location: below `0x0040` by the table, above by the
arithmetic of its range. -/
theorem reservedOffset_or_offsetOf {off : Nat} (ha : off % 4 = 0) :
    ReservedOffset off ∨ ∃ l, l ≠ .reserved ∧ offsetOf l = off := by
  by_cases hr : ReservedOffset off
  · exact .inl hr
  refine .inr ?_
  unfold ReservedOffset at hr
  obtain h | h | h | h | h | h | h : off < 0x0040 ∨ (0x0040 ≤ off ∧ off < 0x0060) ∨ (0x0400 ≤ off ∧ off < 0x0800) ∨
    (0x0800 ≤ off ∧ off < 0x0C00) ∨ (0x0C00 ≤ off ∧ off < 0x0D80) ∨ (0x1000 ≤ off ∧ off < 0x2000) ∨
    (0x2000 ≤ off ∧ off < 0x3000) := by omega
  · have named := reserved_or_controlRegister ⟨off / 4, by omega⟩
    simp only [show 4 * (off / 4) = off by omega] at named
    obtain ⟨l, hl, ho⟩ := (named.resolve_left (by omega)).resolve_left (by omega)
    exact ⟨l, by rintro rfl; exact absurd hl (by decide), ho⟩
  · exact ⟨.shaH ⟨(off - 0x0040) / 4, by omega⟩, nofun, by simp only [offsetOf]; omega⟩
  · exact ⟨.bigWord ⟨(off - 0x0400) / 0x40, by omega⟩ ⟨(off - 0x0400) % 0x40 / 4, by omega⟩, nofun,
      by simp only [offsetOf]; omega⟩
  · by_cases hx : (off - 0x0800) % 0x80 < 0x40
    · exact ⟨.pointX ⟨(off - 0x0800) / 0x80, by omega⟩ ⟨(off - 0x0800) % 0x40 / 4, by omega⟩, nofun,
        by simp only [offsetOf]; omega⟩
    · exact ⟨.pointY ⟨(off - 0x0800) / 0x80, by omega⟩ ⟨(off - 0x0800) % 0x40 / 4, by omega⟩, nofun,
        by simp only [offsetOf]; omega⟩
  · have slot : curveRegSlot (curveRegAt ((off - 0x0C00) / 0x40)) = (off - 0x0C00) / 0x40 :=
      curveRegSlot_curveRegAt (by omega)
    exact ⟨.curveWord (curveRegAt ((off - 0x0C00) / 0x40)) ⟨(off - 0x0C00) % 0x40 / 4, by omega⟩, nofun,
      by simp only [offsetOf, slot]; omega⟩
  · exact ⟨.msgWord ⟨(off - 0x1000) / 4, by omega⟩, nofun, by simp only [offsetOf]; omega⟩
  · exact ⟨.outWord ⟨(off - 0x2000) / 4, by omega⟩, nofun, by simp only [offsetOf]; omega⟩

/-- Settles O21: an aligned offset is reserved, where `locate` finds nothing, or that of a named location, which it
finds. -/
theorem registerMap : Obligations.RegisterMap := by
  refine ⟨?_, fun l hl => ?_, fun off _ ha hl => ?_, fun off _ ha => ⟨fun hl => ?_, locate_of_reservedOffset ha⟩⟩
  · exact ⟨rfl, rfl, rfl, rfl, rfl, rfl, rfl, rfl, rfl, rfl, rfl, fun _ => rfl, fun _ _ => rfl,
      fun _ _ => ⟨rfl, rfl⟩, fun _ => ⟨rfl, rfl, rfl, rfl, rfl, rfl⟩, fun _ => ⟨rfl, rfl⟩⟩
  · obtain ⟨below, aligned⟩ := offsetOf_range l
    exact ⟨below, aligned, locate_offsetOf hl⟩
  · obtain hr | ⟨l, hne, rfl⟩ := reservedOffset_or_offsetOf ha
    · exact absurd (locate_of_reservedOffset ha hr) hl
    · rw [locate_offsetOf hne]
  · obtain hr | ⟨l, hne, rfl⟩ := reservedOffset_or_offsetOf ha
    · exact hr
    · exact absurd ((locate_offsetOf hne).symm.trans hl) hne

/-! ### Words of the buffers -/

/-- The bytes of a word side by side, the highest first, are the word. -/
theorem append_bytes_eq (v : Word) :
    v.extractLsb' 24 8 ++ v.extractLsb' 16 8 ++ v.extractLsb' 8 8 ++ v.extractLsb' 0 8 = v := by
  repeat rw [BitVec.extractLsb'_append_extractLsb'_eq_extractLsb' (by rfl)]
  exact BitVec.extractLsb'_eq_self

/-- Each byte of a word written inside the buffer reads back. -/
theorem Memory.read_writeWord {m : Memory} (h : m.wf = true) {i : Nat} (w : Word) (hi : i + 4 ≤ Config.msgBytes)
    {k : Nat} (hk : k < 4) : Memory.read (Memory.writeWord m i w) (i + k) = (wordBytes w).getD k 0#8 := by
  rw [Memory.writeWord, Memory.read_writeBytes h hi, wordBytes_length, if_pos (by omega), Nat.add_sub_cancel_left]

/-- A word written inside the buffer reads back (20_memory.md R65). -/
theorem Memory.readWord_writeWord {m : Memory} (h : m.wf = true) {i : Nat} (w : Word) (hi : i + 4 ≤ Config.msgBytes) :
    Memory.readWord (Memory.writeWord m i w) i = w := by
  have byte := fun k (hk : k < 4) => Memory.read_writeWord h w hi hk
  have lowest : Memory.read (Memory.writeWord m i w) i = w.extractLsb' 0 8 := byte 0 (by decide)
  rw [Memory.readWord, byte 3 (by decide), byte 2 (by decide), byte 1 (by decide), lowest]
  exact append_bytes_eq w

theorem Memory.read_writeWord_outside (m : Memory) {i j : Nat} (w : Word) (h : j < i ∨ i + 4 ≤ j) :
    Memory.read (Memory.writeWord m i w) j = Memory.read m j :=
  Memory.read_writeBytes_outside m (wordBytes w) h

/-- A write of a word leaves every word that shares no byte with it. -/
theorem Memory.readWord_writeWord_ne (m : Memory) {i j : Nat} (w : Word) (h : j + 4 ≤ i ∨ i + 4 ≤ j) :
    Memory.readWord (Memory.writeWord m i w) j = Memory.readWord m j := by
  have byte : ∀ k < 4, Memory.read (Memory.writeWord m i w) (j + k) = Memory.read m (j + k) :=
    fun k hk => Memory.read_writeWord_outside m w (by omega)
  have lowest : Memory.read (Memory.writeWord m i w) j = Memory.read m j := byte 0 (by decide)
  rw [Memory.readWord, byte 3 (by decide), byte 2 (by decide), byte 1 (by decide), lowest]
  rfl

/-- Settles O28: a host write of a `MSG` word writes its four bytes, of which each reads back. -/
theorem bufferWordsLittleEndian : Obligations.BufferWordsLittleEndian := by
  refine fun s m v => ⟨⟨rfl, rfl⟩, rfl, rfl, ?_⟩
  rintro hs hm t rfl
  rw [writeHost_idle hs]
  exact ⟨Memory.readWord_writeWord hm v (by simp only [Config.msgBytes]; omega),
    fun a ha => Memory.read_writeWord_outside s.msg v (by omega)⟩

/-! ### What a host write leaves unchanged -/

/-- The locations that ignore writes (20_memory.md R67, R70). -/
theorem writeHost_ignored {l : Loc} (h : l = .id ∨ l = .param ∨ l = .rngCtrLo ∨ l = .rngCtrHi ∨
    (∃ m, l = .outWord m) ∨ l = .reserved) (v : Word) (s : State) : writeHost l v s = s := by
  rcases h with rfl | rfl | rfl | rfl | ⟨m, rfl⟩ | rfl <;> exact writeHost_of_writeLoc_eq rfl

section
variable {s : State} (hs : s.engine = .idle)
include hs

theorem readLoc_writeHost_msgLen (v : Word) {l' : Loc} (h : .msgLen ≠ l') :
    readLoc (writeHost .msgLen v s) l' = readLoc s l' := by
  rw [writeHost_idle hs]
  cases l' with
  | msgLen => exact absurd rfl h
  | _ => rfl

theorem readLoc_writeHost_pinf (v : Word) {l' : Loc} (h : .pinf ≠ l') :
    readLoc (writeHost .pinf v s) l' = readLoc s l' := by
  rw [writeHost_idle hs]
  cases l' with
  | pinf => exact absurd rfl h
  | _ => rfl

theorem readLoc_writeHost_shaH (i : Fin 8) (v : Word) {l' : Loc} (h : .shaH i ≠ l') :
    readLoc (writeHost (.shaH i) v s) l' = readLoc s l' := by
  rw [writeHost_idle hs]
  cases l' with
  | shaH i' => exact Vector.getElem_set_ne i.isLt i'.isLt fun e => h (congrArg Loc.shaH (Fin.ext e))
  | _ => rfl

theorem readLoc_writeHost_msgWord (m : Fin 1024) (v : Word) {l' : Loc} (h : .msgWord m ≠ l') :
    readLoc (writeHost (.msgWord m) v s) l' = readLoc s l' := by
  rw [writeHost_idle hs]
  cases l' with
  | msgWord m' =>
    have : m.val ≠ m'.val := fun e => h (congrArg Loc.msgWord (Fin.ext e))
    exact Memory.readWord_writeWord_ne s.msg v (by omega)
  | _ => rfl

/-- A write of a word of a `W`-bit register: the other words of such registers are those of BigRegisterWords, and the
remaining locations show other fields of the state. -/
theorem readLoc_writeHost_word (r : WideReg) (j : Fin 16) (v : Word) {l' : Loc} (h : r.word j ≠ l') :
    readLoc (writeHost (r.word j) v s) l' = readLoc s l' := by
  have wide : ∀ (r' : WideReg) (j' : Fin 16), r.word j ≠ r'.word j' →
      readLoc (writeHost (r.word j) v s) (r'.word j') = readLoc s (r'.word j') := by
    intro r' j' hne
    obtain ⟨-, -, -, -, others⟩ := bigRegisterWords.2 s r j v hs
    exact others r' j' (by rintro ⟨⟩; exact hne rfl)
  cases l' with
  | bigWord i' j' => exact wide (.big i') j' h
  | pointX k' j' => exact wide (.pointX k') j' h
  | pointY k' j' => exact wide (.pointY k') j' h
  | curveWord c' j' => exact wide (.curve c') j' h
  | _ =>
    rw [writeHost_idle hs]
    cases r <;> rfl

/-- No host write changes what another location reads, but for `CTRL`, `STATUS`, `CMD` and `SEED`. -/
theorem readLoc_writeHost_ne {l l' : Loc} (v : Word) (hl : l ∉ [Loc.ctrl, .status, .cmd, .seedLo, .seedHi])
    (h : l ≠ l') : readLoc (writeHost l v s) l' = readLoc s l' := by
  cases l with
  | ctrl | status | cmd | seedLo | seedHi => exact absurd (by decide) hl
  | id | param | rngCtrLo | rngCtrHi | outWord m | reserved => rw [writeHost_ignored (by simp)]
  | msgLen => exact readLoc_writeHost_msgLen hs v h
  | pinf => exact readLoc_writeHost_pinf hs v h
  | shaH i => exact readLoc_writeHost_shaH hs i v h
  | bigWord i j => exact readLoc_writeHost_word hs (.big i) j v h
  | pointX k j => exact readLoc_writeHost_word hs (.pointX k) j v h
  | pointY k j => exact readLoc_writeHost_word hs (.pointY k) j v h
  | curveWord c j => exact readLoc_writeHost_word hs (.curve c) j v h
  | msgWord m => exact readLoc_writeHost_msgWord hs m v h

/-- A read/write register of 32 bits reads back the word written (20_memory.md R70). -/
theorem readLoc_writeHost_same (hm : s.msg.wf = true) {l : Loc} (v : Word)
    (h : l = .msgLen ∨ (∃ i, l = .shaH i) ∨ ∃ m, l = .msgWord m) : readLoc (writeHost l v s) l = v := by
  rw [writeHost_idle hs]
  rcases h with rfl | ⟨i, rfl⟩ | ⟨m, rfl⟩
  · rfl
  · exact Vector.getElem_set_self i.isLt
  · exact Memory.readWord_writeWord hm v (by simp only [Config.msgBytes]; omega)

end

/-- The low byte of a word, as a word (10_state.md R41). -/
theorem zero_append_low_byte (v : Word) : 0#24 ++ v.extractLsb' 0 8 = v &&& 0x000000FF#32 := by
  apply BitVec.eq_of_toNat_eq
  have mask : (v &&& 0x000000FF#32).toNat = v.toNat % 2 ^ 8 := Nat.and_two_pow_sub_one_eq_mod v.toNat 8
  rw [append_toNat, mask]
  simp

/-- Settles O29: a defined write is one of the location; the locations are taken one by one for what they leave
unchanged, and a word of `SEED` is one of the halves put side by side. -/
theorem writeChangesOneLocation : Obligations.WriteChangesOneLocation := by
  refine ⟨fun s off v rest ho ha hb => step_write ho ha hb, fun s l l' v hs hm => ?_⟩
  have idle : ∀ x, writeHost x v s = writeLoc v s x := fun x => writeHost_idle hs x v
  refine ⟨fun hl => ⟨readLoc_writeHost_ne hs v hl, readLoc_writeHost_same hs hm v, ?_,
    fun h => writeHost_ignored h v s⟩, idle _, idle _, ?_, ?_⟩
  · rintro rfl
    rw [idle]
    exact zero_append_low_byte v
  · rw [idle]
    exact BitVec.extractLsb'_append_eq_right
  · rw [idle]
    exact BitVec.extractLsb'_append_eq_left

/-! ### The bytes of `MSG` that commands read -/

/-- The command `i` reads byte `k` of `MSG`: one below `MSG_LEN`, of a message, or one of its block (20_memory.md
R77). -/
def ReadsMessageByte (i : Instr) (s : State) (k : Nat) : Prop :=
  (opcodeOfInstr i ∈ [Opcode.shahash, .sign, .verify, .encrypt, .decrypt] ∧ k < s.msgLen.toNat) ∨
    ∃ n : BitVec 8, i = .shablk n ∧ 64 * n.toNat ≤ k ∧ k < 64 * n.toNat + 64

theorem Memory.bytes_congr {m m' : Memory} {i n : Nat} (h : ∀ k, i ≤ k → k < i + n → m.read k = m'.read k) :
    Memory.bytes m i n = Memory.bytes m' i n := by
  induction n generalizing i with
  | zero => rfl
  | succ n ih =>
    rw [Memory.bytes, Memory.bytes, h i le_rfl (by omega), ih fun k hl hu => h k (by omega) (by omega)]

/-- A buffer with the bytes a command reads shows it the same message. -/
theorem sameMessage_of_read_eq {i : Instr} {s : State} {m : Memory}
    (h : ∀ k, ReadsMessageByte i s k → m.read k = s.msg.read k) : SameMessage m s i := by
  cases i with
  | shahash | sign | verify | encrypt | decrypt =>
    exact Memory.bytes_congr fun k _ hk => h k (.inl ⟨by simp [opcodeOfInstr], by omega⟩)
  | shablk n => exact Memory.bytes_congr fun k hl hu => h k (.inr ⟨n, rfl, hl, hu⟩)
  | _ => trivial

/-- Settles O14: the command is shown its message, and does not write the curve. -/
theorem otherMessageBytesNotRead : Obligations.OtherMessageBytesNotRead := by
  intro i s t m h hread
  obtain ⟨⟨hcurve, -⟩, -⟩ := exec_writesItsKinds h
  have same := exec_withCurveBMsg s.curve.b m (sameMessage_of_read_eq hread)
  rw [h] at same
  have kept : t.withCurveBMsg s.curve.b m = { t with msg := m } := by rw [← hcurve]; rfl
  exact same.trans (congrArg Host.Outcome.next kept)

end Sys2Proof.Machine
end

section
/-! PROOFS. The encoding of commands (30_encoding.md): the fields of a word, what the decoder's checks say, decoding
as the inverse of encoding, and the opcode table's match and mask. -/

namespace Sys2Proof

open Machine

/-! ### The fields of a word -/

/-- A word is its six fields (30_encoding.md R101). -/
theorem word_ext_iff {c e : Word} : c = e ↔ fieldOpc c = fieldOpc e ∧ fieldFd c = fieldFd e ∧ fieldFa c = fieldFa e ∧
    fieldFb c = fieldFb e ∧ fieldFc c = fieldFc e ∧ fieldImm8 c = fieldImm8 e := by
  refine ⟨by rintro rfl; simp, fun ⟨hopc, hfd, hfa, hfb, hfc, himm⟩ => ?_⟩
  simp only [fieldOpc, fieldFd, fieldFa, fieldFb, fieldFc, fieldImm8, ← BitVec.toNat_inj, BitVec.extractLsb'_toNat,
    Nat.shiftRight_eq_div_pow] at *
  omega

/-- The value of a packed word (30_encoding.md R105). -/
theorem pack_toNat (imm8 : BitVec 8) (fc fb fa fd : BitVec 4) (op : Opcode) :
    (pack imm8 fc fb fa fd op).toNat = imm8.toNat * 2 ^ 24 + fc.toNat * 2 ^ 20 + fb.toNat * 2 ^ 16 +
      fa.toNat * 2 ^ 12 + fd.toNat * 2 ^ 8 + (opcodeValue op).toNat := by
  simp only [pack, append_toNat]
  omega

/-- The fields of a packed word are those it was packed from. -/
@[simp] theorem fields_pack (imm8 : BitVec 8) (fc fb fa fd : BitVec 4) (op : Opcode) :
    fieldOpc (pack imm8 fc fb fa fd op) = opcodeValue op ∧ fieldFd (pack imm8 fc fb fa fd op) = fd ∧
      fieldFa (pack imm8 fc fb fa fd op) = fa ∧ fieldFb (pack imm8 fc fb fa fd op) = fb ∧
      fieldFc (pack imm8 fc fb fa fd op) = fc ∧ fieldImm8 (pack imm8 fc fb fa fd op) = imm8 := by
  simp only [fieldOpc, fieldFd, fieldFa, fieldFb, fieldFc, fieldImm8, ← BitVec.toNat_inj, BitVec.extractLsb'_toNat,
    Nat.shiftRight_eq_div_pow, pack_toNat]
  omega

/-! ### Register indices as fields -/

@[simp] theorem asBig_ofBig (r : BReg) : asBig (ofBig r) = r := rfl

@[simp] theorem ofBig_asBig (v : BitVec 4) : ofBig (asBig v) = v := rfl

theorem asBig_inj {v w : BitVec 4} : asBig v = asBig w ↔ v = w :=
  ⟨congrArg ofBig, congrArg asBig⟩

@[simp] theorem ofBig_toNat (r : BReg) : (ofBig r).toNat = r.val := rfl

@[simp] theorem ofPoint_toNat (r : PReg) : (ofPoint r).toNat = r.val :=
  Nat.mod_eq_of_lt (by omega)

@[simp] theorem asPoint_ofPoint (r : PReg) : asPoint (ofPoint r) = r := by
  apply Fin.ext
  rw [asPoint, Fin.val_ofNat, ofPoint_toNat, Nat.mod_eq_of_lt r.isLt]

/-- A point field survives decoding when it names a register. -/
theorem ofPoint_asPoint {v : BitVec 4} (h : v.toNat < 8) : ofPoint (asPoint v) = v := by
  apply BitVec.eq_of_toNat_eq
  rw [ofPoint_toNat, asPoint, Fin.val_ofNat, Nat.mod_eq_of_lt h]

/-! ### What the decoder checks -/

/-- The opcode map read both ways (30_encoding.md R105). -/
theorem opcodeOf_eq_some_iff {v : BitVec 8} {op : Opcode} : opcodeOf v = some op ↔ v = opcodeValue op := by
  constructor
  · intro h
    apply BitVec.eq_of_toNat_eq
    unfold opcodeOf at h
    split at h <;> cases h <;> assumption
  · rintro rfl
    cases op <;> rfl

/-- What 30_encoding.md R108 asks of the value `v` of a field of kind `k`. -/
def FieldKind.Legal {w : Nat} (k : FieldKind) (v : BitVec w) : Prop :=
  (k = .sbz → v = 0) ∧ (k = .point → v.toNat < 8)

/-- What 30_encoding.md R108 asks of the operand fields of a word of the format `fmt`. -/
def Format.Legal (fmt : Format) (c : Word) : Prop :=
  fmt.fd.Legal (fieldFd c) ∧ fmt.fa.Legal (fieldFa c) ∧ fmt.fb.Legal (fieldFb c) ∧ fmt.fc.Legal (fieldFc c) ∧
    fmt.imm8.Legal (fieldImm8 c)

theorem checkField_eq_ok_iff {w : Nat} {f : CmdField} {k : FieldKind} {v : BitVec w} :
    checkField f k v.toNat = .ok () ↔ k.Legal v := by
  cases k <;> simp [checkField, FieldKind.Legal, ← BitVec.toNat_inj]

theorem checkFields_eq_ok_iff {fmt : Format} {c : Word} : checkFields fmt c = .ok () ↔ fmt.Legal c := by
  rw [Format.Legal, ← checkField_eq_ok_iff (f := .fd), ← checkField_eq_ok_iff (f := .fa),
    ← checkField_eq_ok_iff (f := .fb), ← checkField_eq_ok_iff (f := .fc), ← checkField_eq_ok_iff (f := .imm8)]
  unfold checkFields
  split
  next hfd => simp [hfd]
  next hfd =>
  split
  next hfa => simp [hfa]
  next hfa =>
  split
  next hfb => simp [hfb]
  next hfb =>
  split
  next hfc => simp [hfc]
  next hfc => simp [hfd, hfa, hfb, hfc]

/-- The word `c` is a command of the row `op`: its opcode, its operand fields, and the two results of `SIGN`
(30_encoding.md R107, R108). -/
def IsCommandOf (op : Opcode) (c : Word) : Prop :=
  fieldOpc c = opcodeValue op ∧ (formatOf op).Legal c ∧ (op = .sign → fieldFd c ≠ fieldFb c)

/-- Everything the decoder can accept (30_encoding.md R108). -/
theorem decode_eq_ok_iff {c : Word} {i : Instr} :
    decode c = .ok i ↔ ∃ op, IsCommandOf op c ∧ assemble op c = i := by
  simp only [IsCommandOf, ← opcodeOf_eq_some_iff, ← checkFields_eq_ok_iff]
  unfold decode
  cases opcodeOf (fieldOpc c) with
  | none => simp
  | some op =>
    cases hfields : checkFields (formatOf op) c with
    | error r => simp [hfields]
    | ok u =>
      by_cases hsign : op = .sign ∧ fieldFd c = fieldFb c
      · obtain ⟨rfl, hsame⟩ := hsign
        simp [hfields, hsame]
      · simpa [hfields, if_neg hsign] using fun _ => not_and.1 hsign

/-! ### Decoding is the inverse of encoding -/

theorem opcodeOfInstr_assemble (op : Opcode) (c : Word) : opcodeOfInstr (assemble op c) = op := by
  cases op <;> rfl

/-- `SIGN` is the only command that is not well formed for every operand (30_encoding.md R107). -/
theorem wellFormed_assemble (op : Opcode) (c : Word) :
    (assemble op c).wellFormed = true ↔ (op = .sign → fieldFd c ≠ fieldFb c) := by
  cases op with
  | sign => simp [assemble, Instr.wellFormed, asBig_inj]
  | _ => simp [assemble, Instr.wellFormed]

/-- The fields of a command's word name the command. -/
theorem assemble_encode (i : Instr) : assemble (opcodeOfInstr i) (encode i) = i := by
  cases i <;> simp [opcodeOfInstr, encode, assemble]

/-- A command's word has the command's opcode, zero in the fields the command does not use, and point registers that
exist. -/
theorem encode_legal (i : Instr) :
    fieldOpc (encode i) = opcodeValue (opcodeOfInstr i) ∧ (formatOf (opcodeOfInstr i)).Legal (encode i) := by
  cases i <;> simp [Format.Legal, FieldKind.Legal, formatOf, opcodeOfInstr, encode]

/-- The word of a well-formed command stands in the command's row: `SIGN`'s two results are told apart by
`wellFormed`, which is read off the fields. -/
theorem isCommandOf_encode {i : Instr} (h : i.wellFormed = true) : IsCommandOf (opcodeOfInstr i) (encode i) := by
  obtain ⟨hopc, hlegal⟩ := encode_legal i
  rw [← assemble_encode i, wellFormed_assemble] at h
  exact ⟨hopc, hlegal, h⟩

/-- The word of the command a word of the row `op` names is that word: the fields the row does not use are zero, and
its point fields are below 8. -/
theorem encode_assemble {op : Opcode} {c : Word} (hopc : fieldOpc c = opcodeValue op) (hlegal : (formatOf op).Legal c) :
    encode (assemble op c) = c := by
  rw [word_ext_iff]
  cases op <;> simp_all [Format.Legal, FieldKind.Legal, formatOf, encode, assemble, ofPoint_asPoint]

/-- The words the decoder accepts are those of the well-formed commands, each as the one command it encodes. -/
theorem decode_eq_ok_iff_encode {c : Word} {i : Instr} :
    decode c = .ok i ↔ i.wellFormed = true ∧ encode i = c := by
  rw [decode_eq_ok_iff]
  constructor
  · rintro ⟨op, ⟨hopc, hlegal, hsign⟩, rfl⟩
    exact ⟨(wellFormed_assemble op c).2 hsign, encode_assemble hopc hlegal⟩
  · rintro ⟨hwf, rfl⟩
    exact ⟨opcodeOfInstr i, isCommandOf_encode hwf, assemble_encode i⟩

/-- Settles O2: the word of a command stands in the command's row, and its fields name the command. -/
theorem decodeOfEncode : Obligations.DecodeOfEncode :=
  fun _ hwf => decode_eq_ok_iff_encode.2 ⟨hwf, rfl⟩

/-! ### Illegal words -/

/-- R106's list has none of the opcodes of R105. -/
theorem not_unassignedOpcode_opcodeValue (op : Opcode) : ¬ UnassignedOpcode (opcodeValue op).toNat := by
  unfold UnassignedOpcode
  cases op <;> decide

theorem decode_ne_ok_of_unassigned {c : Word} (h : UnassignedOpcode (fieldOpc c).toNat) (i : Instr) :
    decode c ≠ .ok i := by
  rw [Ne, decode_eq_ok_iff]
  rintro ⟨op, ⟨hopc, -⟩, -⟩
  exact not_unassignedOpcode_opcodeValue op (hopc ▸ h)

/-- A word that is no command ends in `ILLEGAL_COMMAND`, and nothing else happens (60_exceptions.md R274). -/
theorem performCommand_of_decode_ne_ok {c : Word} (h : ∀ i, decode c ≠ .ok i) (s : State) :
    performCommand c s = .next (failedState .illegalCommand 0 s) := by
  unfold performCommand
  cases hdec : decode c with
  | ok i => exact absurd hdec (h i)
  | error r => simp only [takeError_eq]

/-- Settles O3: a word is accepted as a command exactly when it is that command's word. -/
theorem everyWordOneCommandOrIllegal : Obligations.EveryWordOneCommandOrIllegal := by
  refine ⟨fun c hc => performCommand_of_decode_ne_ok (decode_ne_ok_of_unassigned hc), fun c => ?_⟩
  by_cases haccepted : ∃ i, decode c = .ok i
  · obtain ⟨i, hi⟩ := haccepted
    obtain ⟨hwf, henc⟩ := decode_eq_ok_iff_encode.1 hi
    refine .inl ⟨i, hwf, henc, hi, fun j hj hjc => ?_⟩
    have hj' : decode c = .ok j := decode_eq_ok_iff_encode.2 ⟨hj, hjc⟩
    exact Except.ok.inj (hj'.symm.trans hi)
  · rw [not_exists] at haccepted
    exact .inr ⟨fun i hwf henc => haccepted i (decode_eq_ok_iff_encode.2 ⟨hwf, henc⟩),
      performCommand_of_decode_ne_ok haccepted⟩

/-! ### The values of the words -/

/-- Settles O4: the value of a packed word, for the fields of each command. -/
theorem commandWordValue : Obligations.CommandWordValue := by
  unfold Obligations.CommandWordValue
  simp [encode, pack_toNat, opcodeValue]

/-- Settles O1: the decoder runs on each word. -/
theorem specWordsDecode : Obligations.SpecWordsDecode := by
  unfold Obligations.SpecWordsDecode
  decide

/-! ### Match and mask -/

/-- The bits of a field that the column `mask` of the opcode table covers: those of a field that should be zero. -/
def FieldKind.mask (k : FieldKind) (w : Nat) : BitVec w :=
  if k = .sbz then BitVec.allOnes w else 0

theorem FieldKind.and_mask_eq_zero_iff {w : Nat} {k : FieldKind} {v : BitVec w} :
    v &&& k.mask w = 0 ↔ (k = .sbz → v = 0) := by
  by_cases hk : k = .sbz <;> simp [mask, hk]

/-- The fields of a row's mask: all of the opcode, and of the operand fields those that should be zero. -/
theorem fields_rowMask (op : Opcode) :
    fieldOpc (rowMask op) = BitVec.allOnes 8 ∧ fieldFd (rowMask op) = (formatOf op).fd.mask 4 ∧
      fieldFa (rowMask op) = (formatOf op).fa.mask 4 ∧ fieldFb (rowMask op) = (formatOf op).fb.mask 4 ∧
      fieldFc (rowMask op) = (formatOf op).fc.mask 4 ∧ fieldImm8 (rowMask op) = (formatOf op).imm8.mask 8 := by
  cases op <;> decide

/-- The fields of a row's match: the opcode, and zero elsewhere. -/
theorem rowMatch_eq_pack (op : Opcode) : rowMatch op = pack 0 0 0 0 0 op := by
  cases op <;> rfl

theorem fields_and (c m : Word) :
    fieldOpc (c &&& m) = fieldOpc c &&& fieldOpc m ∧ fieldFd (c &&& m) = fieldFd c &&& fieldFd m ∧
      fieldFa (c &&& m) = fieldFa c &&& fieldFa m ∧ fieldFb (c &&& m) = fieldFb c &&& fieldFb m ∧
      fieldFc (c &&& m) = fieldFc c &&& fieldFc m ∧ fieldImm8 (c &&& m) = fieldImm8 c &&& fieldImm8 m := by
  simp only [fieldOpc, fieldFd, fieldFa, fieldFb, fieldFc, fieldImm8, BitVec.extractLsb'_and, and_self]

/-- A word agrees with its row's match under its mask when its opcode is the row's and the fields the row does not use
are zero (30_encoding.md R104). -/
theorem and_rowMask_eq_rowMatch_iff {c : Word} {op : Opcode} :
    c &&& rowMask op = rowMatch op ↔
      fieldOpc c = opcodeValue op ∧ ((formatOf op).fd = .sbz → fieldFd c = 0) ∧
        ((formatOf op).fa = .sbz → fieldFa c = 0) ∧ ((formatOf op).fb = .sbz → fieldFb c = 0) ∧
        ((formatOf op).fc = .sbz → fieldFc c = 0) ∧ ((formatOf op).imm8 = .sbz → fieldImm8 c = 0) := by
  simp only [word_ext_iff, rowMatch_eq_pack, fields_pack, fields_and, fields_rowMask, BitVec.and_allOnes,
    FieldKind.and_mask_eq_zero_iff]

theorem pointFieldsLegal_iff {op : Opcode} {c : Word} :
    PointFieldsLegal op c ↔
      ((formatOf op).fd = .point → (fieldFd c).toNat < 8) ∧ ((formatOf op).fa = .point → (fieldFa c).toNat < 8) ∧
        ((formatOf op).fb = .point → (fieldFb c).toNat < 8) ∧ ((formatOf op).fc = .point → (fieldFc c).toNat < 8) := by
  cases op <;> simp [PointFieldsLegal, formatOf]

/-- `IMM8` is no point field (30_encoding.md R105). -/
theorem formatOf_imm8_ne_point (op : Opcode) : (formatOf op).imm8 ≠ .point := by
  cases op <;> decide

/-- The decoder's conditions on the fields, sorted into those the opcode table gives and those that stand beside it. -/
theorem isCommandOf_iff {op : Opcode} {c : Word} :
    IsCommandOf op c ↔
      c &&& rowMask op = rowMatch op ∧ PointFieldsLegal op c ∧ (op = .sign → fieldFd c ≠ fieldFb c) := by
  simp only [IsCommandOf, Format.Legal, FieldKind.Legal, and_rowMask_eq_rowMatch_iff, pointFieldsLegal_iff,
    formatOf_imm8_ne_point, false_implies, and_true]
  tauto

/-- Settles O5: the row of an accepted word is the one whose conditions it meets. -/
theorem decodeByMatchAndMask : Obligations.DecodeByMatchAndMask := by
  intro c op
  rw [← isCommandOf_iff]
  constructor
  · rintro ⟨i, hi, rfl⟩
    obtain ⟨op, hop, rfl⟩ := decode_eq_ok_iff.1 hi
    rwa [opcodeOfInstr_assemble]
  · exact fun hop => ⟨assemble op c, decode_eq_ok_iff.2 ⟨op, hop, rfl⟩, opcodeOfInstr_assemble op c⟩

end Sys2Proof
end

section
/-! PROOFS. What the commits of commands leave: an error after draws, and the frame of several writes. -/

namespace Sys2Proof.Machine

theorem drawn_drawn (m n : Nat) (s : State) : drawn m (drawn n s) = drawn (n + m) s := by
  simp [drawn, BitVec.ofNat_add, BitVec.add_assoc]

/-- An error after `n` draws, as the statements write it. -/
theorem conclude_drawn_error {α : Type} {r : Except ErrCode α} {e : ErrCode} (hr : r = .error e) (n : Nat)
    (f : α → State → State) (s : State) : conclude r f (drawn n s) = .next (failedState e n s) := by
  rw [hr, conclude_error, takeError_drawn]

/-- A command whose values raise an error writes nothing. -/
theorem exec_eq_failed {α : Type} {i : Instr} {s : State} {r : Except ErrCode α} {f : α → State → State} {e : ErrCode}
    (hi : exec i s = conclude r f s) (hr : r = .error e) : exec i s = .next (failedState e 0 s) := by
  rw [hi, ← conclude_drawn_error hr 0 f s, drawn_zero]

/-- Two frames one after the other leave what both leave. -/
theorem Frame.trans {bigs bigs' : List BReg} {points points' : List PReg} {hash hash' : Bool} {n n' : Nat}
    {s t u : State} (h : Frame bigs points hash n s t) (h' : Frame bigs' points' hash' n' t u) :
    Frame (bigs ++ bigs') (points ++ points') (hash || hash') (max n n') s u := by
  obtain ⟨hbig, hpoint, hhash, hout, hmsg, hrest⟩ := h
  obtain ⟨hbig', hpoint', hhash', hout', hmsg', hrest'⟩ := h'
  simp only [Frame, List.mem_append, not_or, Bool.or_eq_false_iff, max_le_iff]
  refine ⟨fun r hr => (hbig' r hr.2).trans (hbig r hr.1), fun j hj => ?_, fun e => (hhash' e.2).trans (hhash e.1),
    fun i hi => (hout' i hi.2).trans (hout i hi.1), fun i => (hmsg' i).trans (hmsg i), ?_⟩
  · obtain ⟨hxy, htag⟩ := hpoint j hj.1
    obtain ⟨hxy', htag'⟩ := hpoint' j hj.2
    exact ⟨hxy'.trans hxy, htag'.trans htag⟩
  · simpa only [hrest] using hrest'

/-- Draws change nothing a frame speaks of. -/
theorem frame_drawn (n : Nat) (s : State) : Frame [] [] false 0 s (drawn n s) :=
  ⟨fun _ _ => rfl, fun _ _ => ⟨rfl, rfl⟩, fun _ => rfl, fun _ _ => rfl, fun _ => rfl, rfl, rfl, rfl, rfl, rfl, rfl, rfl,
    rfl⟩

end Sys2Proof.Machine
end

section
/-! PROOFS. Field arithmetic (40_field.md): what each command computes of its operand values, and what it leaves. -/

namespace Sys2Proof.Machine

/-! ### What a field command leaves -/

/-- The command `i` writes `v` to `B[d]` and nothing else, draws nothing, and succeeds. -/
def WritesBig (i : Instr) (s : State) (d : BReg) (v : Nat) : Prop :=
  ∃ t, exec i s = .next t ∧ t.readBig d = v ∧ Succeeded s t ∧ Frame [d] [] false 0 s t ∧ t.rngCtr = s.rngCtr

/-- A value below a modulus that a register holds is written whole. -/
theorem writesBig_of_ok {i : Instr} {s : State} {d m : BReg} {r : Except ErrCode Nat} {v : Nat}
    (hi : exec i s = conclude r (fun v t => t.writeBig d v) s) (hr : r = .ok v) (hv : v < s.readBig m) :
    WritesBig i s d v :=
  ⟨_, by rw [hi, hr, conclude_ok], complete_writeBig s d (hv.trans (s.readBig_lt m))⟩

/-! ### The commands on values -/

theorem modRed_malformed {m : Nat} (hm : m < 2) (x : Nat) : modRed x m = .error .malformedInput := if_pos hm

theorem modAdd_malformed {m : Nat} (hm : m < 2) (x y : Nat) : modAdd x y m = .error .malformedInput := if_pos hm

theorem modSub_malformed {m : Nat} (hm : m < 2) (x y : Nat) : modSub x y m = .error .malformedInput := if_pos hm

theorem modMul_malformed {m : Nat} (hm : m < 2) (x y : Nat) : modMul x y m = .error .malformedInput := if_pos hm

theorem modInv_malformed {m : Nat} (hm : m < 2) (x : Nat) : modInv x m = .error .malformedInput := if_pos hm

/-- A modulus the Montgomery multiplier refuses (40_field.md R137). -/
theorem montMul_malformed {m : Nat} (hm : m < 2 ∨ m % 2 = 0) (w x y : Nat) :
    montMul w x y m = .error .malformedInput := by
  unfold montMul
  split
  · rfl
  · next h => rw [if_pos (hm.resolve_left h)]

theorem montR2_malformed {m : Nat} (hm : m < 2 ∨ m % 2 = 0) (w : Nat) : montR2 w m = .error .malformedInput := by
  unfold montR2
  split
  · rfl
  · next h => rw [if_pos (hm.resolve_left h)]

section
variable {m : Nat} (hm : 2 ≤ m)
include hm

theorem modRed_ok (x : Nat) : modRed x m = .ok (x % m) := if_neg (by omega)

theorem modAdd_ok (x y : Nat) : modAdd x y m = .ok ((x + y) % m) := by
  rw [modAdd, if_neg (by omega), ← Nat.add_mod]

theorem modMul_ok (x y : Nat) : modMul x y m = .ok (x * y % m) := by
  rw [modMul, if_neg (by omega), ← Nat.mul_mod]

theorem modSub_ok (x y : Nat) : modSub x y m = .ok (floorMod ((x : Int) - y) m) := by
  rw [modSub, if_neg (by omega), floorMod, floorMod, Int.natCast_mod, Int.natCast_mod, ← Int.sub_emod]

theorem montR2_ok (hodd : m % 2 = 1) (w : Nat) : montR2 w m = .ok (2 ^ (2 * w) % m) := by
  rw [montR2, if_neg (by omega), if_neg (by omega)]

/-- `MODINV` answers exactly the residue whose product with `x` is 1 (40_field.md R142, R143). -/
theorem modInv_ok_iff {x y : Nat} : modInv x m = .ok y ↔ y < m ∧ x * y % m = 1 := by
  rw [modInv, if_neg (by omega), inv_natCast_iff hm]

theorem modInv_uninvertible {x : Nat} (h : Nat.gcd x m ≠ 1) : modInv x m = .error .uninvertible := by
  rw [modInv, if_neg (by omega), inv_error (by omega) (by rwa [Int.gcd_natCast_natCast])]

/-- The Montgomery product of an odd modulus is a residue that multiplied by the radix `2^w` gives `x·y` modulo `m`
(40_field.md R138): the inverse of the radix cancels. -/
theorem montMul_ok (hodd : m % 2 = 1) (w x y : Nat) :
    ∃ v, montMul w x y m = .ok v ∧ v < m ∧ v * 2 ^ w ≡ x * y [MOD m] := by
  obtain ⟨rinv, hinv, -, -, hr⟩ := inv_radix (w := w) hm hodd
  have hr : 2 ^ w * rinv ≡ 1 [MOD m] := Int.natCast_modEq_iff.1 (by exact_mod_cast hr)
  refine ⟨x % m * (y % m) * rinv % m, ?_, Nat.mod_lt _ (by omega), ?_⟩
  · rw [montMul, if_neg (by omega), if_neg (by omega), hinv]
  · calc x % m * (y % m) * rinv % m * 2 ^ w
      _ ≡ x % m * (y % m) * rinv * 2 ^ w [MOD m] := (Nat.mod_modEq _ m).mul_right _
      _ = x % m * (y % m) * (2 ^ w * rinv) := by ring
      _ ≡ x * y * 1 [MOD m] := ((Nat.mod_modEq x m).mul (Nat.mod_modEq y m)).mul hr
      _ = x * y := Nat.mul_one _

/-- There is no other such residue, since the radix is coprime to the modulus. -/
theorem montMul_ok_iff (hodd : m % 2 = 1) {w x y v : Nat} :
    montMul w x y m = .ok v ↔ v < m ∧ v * 2 ^ w ≡ x * y [MOD m] := by
  obtain ⟨u, hu, hlt, hprod⟩ := montMul_ok hm hodd w x y
  rw [hu]
  constructor
  · rintro ⟨⟩
    exact ⟨hlt, hprod⟩
  · rintro ⟨hv, h⟩
    have radix : m.Coprime (2 ^ w) := (Nat.coprime_two_right.2 (Nat.odd_iff.2 hodd)).pow_right w
    have same : u ≡ v [MOD m] := Nat.ModEq.cancel_right_of_coprime radix (hprod.trans h.symm)
    exact congrArg Except.ok (same.eq_of_lt_of_lt hlt hv)

end

/-- The difference that `MODSUB` gives is the residue that added to `y` gives `x` (40_field.md R135). -/
theorem floorMod_sub_add {m : Nat} (hm : 0 < m) (x y : Nat) : (floorMod ((x : Int) - y) m + y) % m = x % m := by
  have h : ((floorMod ((x : Int) - y) m + y : Nat) : Int) ≡ (x : Nat) [ZMOD m] := by
    simpa using (floorMod_modEq ((x : Int) - y) hm).add_right (y : Int)
  exact Int.natCast_modEq_iff.1 h

/-! ### The commands -/

section
variable (s : State) (d a b m : BReg)

theorem exec_modred : exec (.modred d a m) s =
    conclude (modRed (s.readBig a) (s.readBig m)) (fun v t => t.writeBig d v) s := rfl

theorem exec_modadd : exec (.modadd d a b m) s =
    conclude (modAdd (s.readBig a) (s.readBig b) (s.readBig m)) (fun v t => t.writeBig d v) s := rfl

theorem exec_modsub : exec (.modsub d a b m) s =
    conclude (modSub (s.readBig a) (s.readBig b) (s.readBig m)) (fun v t => t.writeBig d v) s := rfl

theorem exec_modmul : exec (.modmul d a b m) s =
    conclude (modMul (s.readBig a) (s.readBig b) (s.readBig m)) (fun v t => t.writeBig d v) s := rfl

theorem exec_montmul : exec (.montmul d a b m) s =
    conclude (montMul Config.W (s.readBig a) (s.readBig b) (s.readBig m)) (fun v t => t.writeBig d v) s := rfl

theorem exec_montr2 : exec (.montr2 d m) s =
    conclude (montR2 Config.W (s.readBig m)) (fun v t => t.writeBig d v) s := rfl

theorem exec_modinv : exec (.modinv d a m) s =
    conclude (modInv (s.readBig a) (s.readBig m)) (fun v t => t.writeBig d v) s := rfl

end

/-- Settles O33: each command writes its value, which is below the modulus. -/
theorem modredModaddModmulResult : Obligations.ModredModaddModmulResult := by
  refine fun s d a b m => ⟨fun hm => ?_, fun hm => ?_⟩
  · have below : ∀ x, x % s.readBig m < s.readBig m := fun x => Nat.mod_lt x (by omega)
    exact ⟨writesBig_of_ok (exec_modred ..) (modRed_ok hm _) (below _),
      writesBig_of_ok (exec_modadd ..) (modAdd_ok hm _ _) (below _),
      writesBig_of_ok (exec_modmul ..) (modMul_ok hm _ _) (below _)⟩
  · simp only [List.forall_mem_cons, List.not_mem_nil, false_implies, implies_true, and_true]
    exact ⟨exec_eq_failed (exec_modred ..) (modRed_malformed hm _),
      exec_eq_failed (exec_modadd ..) (modAdd_malformed hm _ _),
      exec_eq_failed (exec_modmul ..) (modMul_malformed hm _ _)⟩

/-- Settles O34: the difference is the floor modulo of an integer. -/
theorem modsubResult : Obligations.ModsubResult := by
  refine fun s d a b m => ⟨fun hm => ?_, fun hm => exec_eq_failed (exec_modsub ..) (modSub_malformed hm _ _)⟩
  have below := floorMod_lt ((s.readBig a : Int) - s.readBig b) (m := s.readBig m) (by omega)
  obtain ⟨t, ht, hd, ends⟩ := writesBig_of_ok (exec_modsub s d a b m) (modSub_ok hm _ _) below
  refine ⟨t, ht, ?_, ?_, ?_, ends⟩ <;> rw [hd]
  · exact below
  · exact floorMod_cast _ (by omega)
  · exact floorMod_sub_add (by omega) _ _

/-- Settles O35: an odd modulus has a Montgomery product. -/
theorem montmulResult : Obligations.MontmulResult := by
  refine fun s d a b m => ⟨fun hm hodd => ?_, fun hm => exec_eq_failed (exec_montmul ..) (montMul_malformed hm _ _ _)⟩
  obtain ⟨v, hv, below, product⟩ := montMul_ok hm hodd Config.W (s.readBig a) (s.readBig b)
  obtain ⟨t, ht, rfl, ends⟩ := writesBig_of_ok (exec_montmul s d a b m) hv below
  exact ⟨t, ht, below, product, ends⟩

/-- Settles O36: the constant is a residue. -/
theorem montr2Result : Obligations.Montr2Result :=
  fun _ _ _ => ⟨fun hm hodd => writesBig_of_ok (exec_montr2 ..) (montR2_ok hm hodd _) (Nat.mod_lt _ (by omega)),
    fun hm => exec_eq_failed (exec_montr2 ..) (montR2_malformed hm _)⟩

/-- Settles O37: each law is the congruence that `montMul_ok_iff` asks for, of two sides multiplied by the radix. -/
theorem montgomeryDomainLaws : Obligations.MontgomeryDomainLaws := by
  intro w m x y h3 hodd hx hy
  have hm : 2 ≤ m := by omega
  have below : ∀ z, z % m < m := fun z => Nat.mod_lt z (by omega)
  have residue : ∀ z, z % m ≡ z [MOD m] := fun z => Nat.mod_modEq z m
  obtain ⟨z, hz, -, hzw⟩ := montMul_ok hm hodd w x y
  refine ⟨_, montR2_ok hm hodd w, (montMul_ok_iff hm hodd).2 ⟨below _, ?_⟩, (montMul_ok_iff hm hodd).2 ⟨below _, ?_⟩,
    (montMul_ok_iff hm hodd).2 ⟨hx, ?_⟩, z, hz, (montMul_ok_iff hm hodd).2 ⟨below _, ?_⟩, modMul_ok hm x y⟩
  · calc x * 2 ^ w % m * 2 ^ w
      _ ≡ x * 2 ^ w * 2 ^ w [MOD m] := (residue _).mul_right _
      _ = x * 2 ^ (2 * w) := by ring
      _ ≡ x * (2 ^ (2 * w) % m) [MOD m] := ((residue _).symm).mul_left _
  · calc x * y * 2 ^ w % m * 2 ^ w
      _ ≡ x * y * 2 ^ w * 2 ^ w [MOD m] := (residue _).mul_right _
      _ = x * 2 ^ w * (y * 2 ^ w) := by ring
      _ ≡ x * 2 ^ w % m * (y * 2 ^ w % m) [MOD m] := ((residue _).mul (residue _)).symm
  · rw [Nat.mul_one]
    exact (residue _).symm
  · calc x * y % m * 2 ^ w
      _ ≡ x * y * 2 ^ w [MOD m] := (residue _).mul_right _
      _ ≡ z * 2 ^ w * 2 ^ w [MOD m] := hzw.symm.mul_right _
      _ = z * 2 ^ (2 * w) := by ring
      _ ≡ z * (2 ^ (2 * w) % m) [MOD m] := ((residue _).symm).mul_left _

/-- Settles O38: the inverse is the only residue whose product is 1, which of 0 is not. -/
theorem modinvResult : Obligations.ModinvResult := by
  refine fun s d a m => ⟨fun hm hg => ?_, fun hm hg => exec_eq_failed (exec_modinv ..) (modInv_uninvertible hm hg),
    fun hm => exec_eq_failed (exec_modinv ..) (modInv_malformed hm _)⟩
  obtain ⟨v, hv, hpos, -⟩ := inv_ok (x := (s.readBig a : Int)) hm (by rwa [Int.gcd_natCast_natCast])
  have hv : modInv (s.readBig a) (s.readBig m) = .ok v := (if_neg (by omega)).trans hv
  obtain ⟨below, product⟩ := (modInv_ok_iff hm).1 hv
  obtain ⟨t, ht, rfl, ends⟩ := writesBig_of_ok (exec_modinv s d a m) hv below
  refine ⟨t, ht, hpos, below, product, fun y hy h => ?_, ends⟩
  exact Except.ok.inj (((modInv_ok_iff hm).2 ⟨hy, h⟩).symm.trans hv)

end Sys2Proof.Machine
end

section
/-! PROOFS. Curve arithmetic (41_curve.md): the point adder branch by branch, and the commands that write a sum. -/

namespace Sys2Proof.Machine

/-! ### The point adder -/

theorem padd_infinity_left (p a : Nat) (Q : Point) : padd p a .infinity Q = .ok (normalise p Q) := rfl

theorem padd_infinity_right (p a : Nat) (Q : Point) : padd p a Q .infinity = .ok (normalise p Q) := by
  cases Q <;> rfl

theorem normalise_normalise (p : Nat) (P : Point) : normalise p (normalise p P) = normalise p P := by
  cases P with
  | infinity => rfl
  | finite x y => simp only [normalise, Nat.mod_mod]

theorem normalise_finite {p x y : Nat} (hx : x < p) (hy : y < p) : normalise p (.finite x y) = .finite x y :=
  normalise_of_below (q := .finite x y) ⟨hx, hy⟩

/-- The operands of the point adder are normalised (41_curve.md R160). -/
theorem padd_normalise (p a : Nat) (P Q : Point) : padd p a (normalise p P) (normalise p Q) = padd p a P Q := by
  simp only [padd, normalise_normalise]

section
variable {p a x1 y1 x2 y2 : Nat} (hx1 : x1 < p) (hy1 : y1 < p)
include hx1 hy1

theorem padd_self : padd p a (.finite x1 y1) (.finite x1 y1) = tangent p a x1 y1 := by
  rw [padd, normalise_finite hx1 hy1, addNormalised, if_pos ⟨rfl, rfl⟩]

variable (hx2 : x2 < p) (hy2 : y2 < p)
include hx2 hy2

theorem padd_of_x_ne (h : x1 ≠ x2) : padd p a (.finite x1 y1) (.finite x2 y2) = chord p x1 y1 x2 y2 := by
  rw [padd, normalise_finite hx1 hy1, normalise_finite hx2 hy2, addNormalised, if_neg fun e => h e.1, if_neg h]

theorem padd_of_y_ne (hx : x1 = x2) (h : y1 ≠ y2) : padd p a (.finite x1 y1) (.finite x2 y2) = .ok .infinity := by
  rw [padd, normalise_finite hx1 hy1, normalise_finite hx2 hy2, addNormalised, if_neg fun e => h e.2, if_pos hx]

end

/-- The third point is that of the line of slope `sl` (41_curve.md R166). -/
theorem lineResult_spec {p : Nat} (hp : 0 < p) (sl x1 y1 x2 : Nat) :
    ∃ x3 y3 : Nat, lineResult p sl x1 y1 x2 = .finite x3 y3 ∧ x3 < p ∧ y3 < p ∧
      (x3 : Int) ≡ (sl : Int) ^ 2 - x1 - x2 [ZMOD p] ∧ (y3 : Int) ≡ (sl : Int) * ((x1 : Int) - x3) - y1 [ZMOD p] :=
  ⟨_, _, rfl, floorMod_lt _ hp, floorMod_lt _ hp, floorMod_modEq _ hp, floorMod_modEq _ hp⟩

section
variable {p : Nat} (hp : 2 ≤ p) {x1 y1 x2 y2 : Nat}
include hp

theorem chord_uninvertible (h : Int.gcd ((x2 : Int) - x1) p ≠ 1) : chord p x1 y1 x2 y2 = .error .uninvertible := by
  rw [chord, inv_error (by omega) h]

/-- The slope of the chord (41_curve.md R165). -/
theorem chord_ok (h : Int.gcd ((x2 : Int) - x1) p = 1) :
    ∃ sl : Nat, chord p x1 y1 x2 y2 = .ok (lineResult p sl x1 y1 x2) ∧
      (sl : Int) * ((x2 : Int) - x1) ≡ (y2 : Int) - y1 [ZMOD p] := by
  obtain ⟨i, hi, -, -, hone⟩ := inv_ok hp h
  refine ⟨floorMod (((y2 : Int) - (y1 : Int)) * (i : Int)) p, by rw [chord, hi], ?_⟩
  calc ((floorMod (((y2 : Int) - y1) * i) p : Nat) : Int) * ((x2 : Int) - x1)
    _ ≡ ((y2 : Int) - y1) * i * ((x2 : Int) - x1) [ZMOD p] := (floorMod_modEq _ (by omega)).mul_right _
    _ = ((y2 : Int) - y1) * (((x2 : Int) - x1) * i) := by ring
    _ ≡ ((y2 : Int) - y1) * 1 [ZMOD p] := hone.mul_left _
    _ = (y2 : Int) - y1 := mul_one _

variable {a : Nat} (hy : (2 * y1) % p ≠ 0)
include hy

theorem tangent_uninvertible (h : Nat.gcd (2 * y1) p ≠ 1) : tangent p a x1 y1 = .error .uninvertible := by
  rw [tangent, if_neg hy, inv_error (by omega) (by rwa [Int.gcd_natCast_natCast])]

/-- The slope of the tangent (41_curve.md R163). -/
theorem tangent_ok (h : Nat.gcd (2 * y1) p = 1) :
    ∃ sl : Nat, tangent p a x1 y1 = .ok (lineResult p sl x1 y1 x1) ∧
      (sl : Int) * (2 * y1) ≡ 3 * (x1 : Int) ^ 2 + a [ZMOD p] := by
  obtain ⟨i, hi, -, -, hone⟩ := inv_ok (x := ((2 * y1 : Nat) : Int)) hp (by rwa [Int.gcd_natCast_natCast])
  refine ⟨(3 * x1 ^ 2 + a) * i % p, by rw [tangent, if_neg hy, hi], ?_⟩
  have hone : 2 * y1 * i ≡ 1 [MOD p] := Int.natCast_modEq_iff.1 (by exact_mod_cast hone)
  have slope : (3 * x1 ^ 2 + a) * i % p * (2 * y1) ≡ 3 * x1 ^ 2 + a [MOD p] :=
    calc (3 * x1 ^ 2 + a) * i % p * (2 * y1)
      _ ≡ (3 * x1 ^ 2 + a) * i * (2 * y1) [MOD p] := (Nat.mod_modEq _ p).mul_right _
      _ = (3 * x1 ^ 2 + a) * (2 * y1 * i) := by ring
      _ ≡ (3 * x1 ^ 2 + a) * 1 [MOD p] := hone.mul_left _
      _ = 3 * x1 ^ 2 + a := Nat.mul_one _
  exact_mod_cast Int.natCast_modEq_iff.2 slope

end

/-- The sum of two points of a chord, or of a tangent, that has a slope. -/
theorem padd_line {p a x1 y1 x2 y2 : Nat} (hp : 2 ≤ p) (hx1 : x1 < p) (hy1 : y1 < p) (hx2 : x2 < p) (hy2 : y2 < p)
    (h : (x1 ≠ x2 ∧ Int.gcd ((x2 : Int) - x1) p = 1) ∨
      (x1 = x2 ∧ y1 = y2 ∧ (2 * y1) % p ≠ 0 ∧ Nat.gcd (2 * y1) p = 1)) :
    ∃ sl : Nat, padd p a (.finite x1 y1) (.finite x2 y2) = .ok (lineResult p sl x1 y1 x2) ∧
      (x1 ≠ x2 → (sl : Int) * ((x2 : Int) - x1) ≡ (y2 : Int) - y1 [ZMOD p]) ∧
      (x1 = x2 → (sl : Int) * (2 * y1) ≡ 3 * (x1 : Int) ^ 2 + a [ZMOD p]) := by
  rcases h with ⟨hne, hg⟩ | ⟨rfl, rfl, hy, hg⟩
  · obtain ⟨sl, hsl, slope⟩ := chord_ok hp (y1 := y1) (y2 := y2) hg
    exact ⟨sl, by rw [padd_of_x_ne hx1 hy1 hx2 hy2 hne, hsl], fun _ => slope, fun e => absurd e hne⟩
  · obtain ⟨sl, hsl, slope⟩ := tangent_ok hp (x1 := x1) (a := a) hy hg
    exact ⟨sl, by rw [padd_self hx1 hy1, hsl], fun e => absurd rfl e, fun _ => slope⟩

/-- Modulo a prime the denominator of every chord and of every tangent has an inverse. -/
theorem denominators_coprime_prime {p x1 x2 y1 : Nat} (hp : p.Prime) (hx1 : x1 < p) (hx2 : x2 < p) :
    (x1 ≠ x2 → Int.gcd ((x2 : Int) - x1) p = 1) ∧ ((2 * y1) % p ≠ 0 → Nat.gcd (2 * y1) p = 1) := by
  constructor
  · intro h
    rw [Int.gcd_comm]
    exact Int.isCoprime_iff_gcd_eq_one.1
      ((Nat.prime_iff_prime_int.1 hp).coprime_iff_not_dvd.2 (not_dvd_sub hx1 hx2 h))
  · exact fun h => (hp.coprime_iff_not_dvd.2 fun hd => h (Nat.mod_eq_zero_of_dvd hd)).symm

/-- Settles O40: the branches of the adder, each by its own lemma. -/
theorem pointAdder : Obligations.PointAdder := by
  refine ⟨fun p a Q => ⟨rfl, padd_infinity_right p a Q, rfl, ?_⟩,
    fun p a x y P Q => ⟨(padd_normalise p a P Q).symm, rfl, rfl⟩, fun p a x1 y1 x2 y2 hp hx1 hy1 hx2 hy2 =>
      ⟨padd_of_y_ne hx1 hy1 hx2 hy2, fun h => ?_, fun hne h => ?_, fun hy h => ?_,
        fun prime => denominators_coprime_prime prime hx1 hx2, fun h => ?_⟩⟩
  · rw [padd_infinity_left, normalise, Nat.zero_mod]
  · rw [padd_self hx1 hy1, tangent, if_pos h]
  · rw [padd_of_x_ne hx1 hy1 hx2 hy2 hne, chord_uninvertible hp h]
  · rw [padd_self hx1 hy1, tangent_uninvertible hp hy h]
  · obtain ⟨sl, hsum, hchord, htangent⟩ := padd_line (a := a) hp hx1 hy1 hx2 hy2 h
    obtain ⟨x3, y3, hline, hx3, hy3, hx, hy⟩ := lineResult_spec (show 0 < p by omega) sl x1 y1 x2
    exact ⟨sl, x3, y3, by rw [hsum, hline], hx3, hy3, hchord, htangent, hx, hy⟩

/-! ### Commands that write a point -/

/-- The command `i` writes the normalised point `q` to `P[d]` and nothing else, draws nothing, and succeeds. -/
def WritesPoint (i : Instr) (s : State) (d : PReg) (q : Point) : Prop :=
  ∃ t, exec i s = .next t ∧ PointWritten t d q ∧ Normalised s.curveP q ∧
    Succeeded s t ∧ Frame [] [d] false 0 s t ∧ t.rngCtr = s.rngCtr

theorem normalised_of_below {p : Nat} {q : Point} (h : q.below p) : Normalised p q := by
  cases q with
  | infinity => trivial
  | finite x y => exact h

theorem padd_ok_below {p a : Nat} {P Q R : Point} (hp : 2 ≤ p) (h : padd p a P Q = .ok R) : R.below p := by
  obtain ⟨R', hR', below⟩ | herr := padd_cases hp a P Q
  · exact Except.ok.inj (hR'.symm.trans h) ▸ below
  · exact nomatch herr.symm.trans h

theorem pmul_ok_below {p a k : Nat} {P R : Point} (hp : 2 ≤ p) (h : pmul p a P k = .ok R) : R.below p := by
  obtain ⟨R', hR', below⟩ | herr := pmul_cases hp a P k
  · exact Except.ok.inj (hR'.symm.trans h) ▸ below
  · exact nomatch herr.symm.trans h

/-- A command that commits a point: it writes the point, or the inverse it needs does not exist. -/
theorem writesPoint_or_uninvertible {i : Instr} {s : State} {d : PReg} {r : Except ErrCode Point}
    (hi : exec i s = conclude r (fun q t => t.writePoint d q) s) (below : ∀ {q}, r = .ok q → q.below s.curveP)
    (code : ∀ {e}, r = .error e → e = .uninvertible) :
    (∀ q, r = .ok q → WritesPoint i s d q) ∧
      ∀ e, r = .error e → e = .uninvertible ∧ exec i s = .next (failedState .uninvertible 0 s) := by
  refine ⟨fun q hq => ?_, fun e he => ?_⟩
  · obtain ⟨written, ends⟩ := complete_writePoint s d (Point.fits_of_below (below hq))
    exact ⟨_, by rw [hi, hq, conclude_ok], written, normalised_of_below (below hq), ends⟩
  · obtain rfl := code he
    exact ⟨rfl, exec_eq_failed hi he⟩

theorem pointAdd_eq_padd {p : Nat} (hp : 2 ≤ p) (a : Nat) (P Q : Point) : pointAdd p a P Q = padd p a P Q :=
  if_neg (by omega)

theorem exec_padd {s : State} (hp : 2 ≤ s.curveP) (d a b : PReg) : exec (.padd d a b) s =
    conclude (padd s.curveP s.curveA (s.readPoint a) (s.readPoint b)) (fun q t => t.writePoint d q) s := by
  rw [← pointAdd_eq_padd hp]
  rfl

/-- A doubling is the sum of the point with itself (41_curve.md R168). -/
theorem exec_pdbl {s : State} (hp : 2 ≤ s.curveP) (d a : PReg) : exec (.pdbl d a) s =
    conclude (padd s.curveP s.curveA (s.readPoint a) (s.readPoint a)) (fun q t => t.writePoint d q) s :=
  exec_padd hp d a a

/-- Over a prime a command that commits a sum writes it. -/
theorem writesPoint_sum_prime {i : Instr} {s : State} {d : PReg} {P Q : Point} (hp : s.curveP.Prime)
    (hi : exec i s = conclude (padd s.curveP s.curveA P Q) (fun q t => t.writePoint d q) s) :
    ∃ q t, padd s.curveP s.curveA P Q = .ok q ∧ exec i s = .next t ∧ PointWritten t d q ∧ Normalised s.curveP q ∧
      Succeeded s t ∧ Frame [] [d] false 0 s t ∧ t.rngCtr = s.rngCtr := by
  obtain ⟨q, hq, -⟩ := padd_prime hp s.curveA P Q
  obtain ⟨t, written⟩ := (writesPoint_or_uninvertible hi (padd_ok_below hp.two_le) (padd_error hp.two_le)).1 q hq
  exact ⟨q, t, hq, written⟩

/-- Settles O41: both commands commit what the adder answers, which on a prime is always a point. -/
theorem paddPdblOnPrime : Obligations.PaddPdblOnPrime := by
  refine fun s d a b => ⟨?_, fun hp =>
    ⟨writesPoint_sum_prime hp (exec_padd hp.two_le d a b), writesPoint_sum_prime hp (exec_pdbl hp.two_le d a)⟩⟩
  rintro hp i b' (⟨rfl, rfl⟩ | ⟨rfl, rfl⟩)
  · exact writesPoint_or_uninvertible (exec_padd hp d a b') (padd_ok_below hp) (padd_error hp)
  · exact writesPoint_or_uninvertible (exec_pdbl hp d b') (padd_ok_below hp) (padd_error hp)

end Sys2Proof.Machine
end

section
/-! PROOFS. The scalar multiplier (41_curve.md R169): its loop is a run of double-and-add, and the commands that
multiply a point. -/

namespace Sys2Proof.Machine

/-! ### The loop as a run -/

/-- The run of `n` rounds of double-and-add over the lowest bits of `k`, from the running result `racc` and the doubling
term `t`, exists and ends in `R`: `DoubleAndAdd` in the form in which the loop makes it. -/
def DoubleAndAddFrom (p a n k : Nat) (racc t R : Point) : Prop :=
  ∃ rs ts : Nat → Point, rs 0 = racc ∧ ts 0 = t ∧
    (∀ i, i < n → (if k.testBit i then padd p a (rs i) (ts i) else .ok (rs i)) = .ok (rs (i + 1)) ∧
      padd p a (ts i) (ts i) = .ok (ts (i + 1))) ∧
    rs n = R

/-- One round of double-and-add, on the lowest bit of `k` (41_curve.md R169). -/
def DoubleAndAddRound (p a k : Nat) (racc t racc' t' : Point) : Prop :=
  (if k % 2 = 1 then padd p a racc t else .ok racc) = .ok racc' ∧ padd p a t t = .ok t'

theorem doubleAndAddFrom_zero {p a k : Nat} {racc t R : Point} : DoubleAndAddFrom p a 0 k racc t R ↔ racc = R := by
  constructor
  · rintro ⟨rs, ts, rfl, -, -, h⟩
    exact h
  · rintro rfl
    exact ⟨fun _ => racc, fun _ => t, rfl, rfl, nofun, rfl⟩

/-- A run is its first round and the run of the others, over the bits above the lowest. -/
theorem doubleAndAddFrom_succ {p a n k : Nat} {racc t R : Point} : DoubleAndAddFrom p a (n + 1) k racc t R ↔
    ∃ racc' t', DoubleAndAddRound p a k racc t racc' t' ∧ DoubleAndAddFrom p a n (k / 2) racc' t' R := by
  have lowest : k.testBit 0 = true ↔ k % 2 = 1 := by rw [Nat.testBit_zero, decide_eq_true_iff]
  constructor
  · rintro ⟨rs, ts, rfl, rfl, run, hR⟩
    have first := run 0 (Nat.succ_pos n)
    simp only [lowest] at first
    refine ⟨rs 1, ts 1, first, fun i => rs (i + 1), fun i => ts (i + 1), rfl, rfl, fun i hi => ?_, hR⟩
    rw [← Nat.testBit_succ]
    exact run (i + 1) (by omega)
  · rintro ⟨racc', t', first, rs, ts, rfl, rfl, run, hR⟩
    refine ⟨Stream'.cons racc rs, Stream'.cons t ts, rfl, rfl, fun i hi => ?_, hR⟩
    cases i with
    | zero =>
      simp only [lowest]
      exact first
    | succ i =>
      rw [Nat.testBit_succ]
      exact run i (by omega)

/-- The loop answers a point exactly when its first round exists and the loop over the other bits answers it. -/
theorem pmulLoop_succ_ok_iff {p a n k : Nat} {racc t R : Point} : pmulLoop p a (n + 1) k racc t = .ok R ↔
    ∃ racc' t', DoubleAndAddRound p a k racc t racc' t' ∧ pmulLoop p a n (k / 2) racc' t' = .ok R := by
  unfold DoubleAndAddRound
  rw [pmulLoop]
  cases (if k % 2 = 1 then padd p a racc t else .ok racc) with
  | error e => simp
  | ok racc' =>
    cases padd p a t t with
    | error e => simp
    | ok t' => simp

theorem pmulLoop_ok_iff {p a n k : Nat} {racc t R : Point} :
    pmulLoop p a n k racc t = .ok R ↔ DoubleAndAddFrom p a n k racc t R := by
  induction n generalizing k racc t with
  | zero => rw [doubleAndAddFrom_zero, pmulLoop, Except.ok.injEq]
  | succ n ih => simp only [pmulLoop_succ_ok_iff, doubleAndAddFrom_succ, ih]

/-- The scalar multiplier answers exactly what the run of double-and-add ends in (41_curve.md R169). -/
theorem pmul_ok_iff {p a k : Nat} {P R : Point} : pmul p a P k = .ok R ↔ DoubleAndAdd p a P k R := by
  rw [pmul, pmulLoop_ok_iff, bitlen_eq_size]
  rfl

/-- Once a point, if its doubling exists, is the point. -/
theorem pmul_one {p a : Nat} {P R : Point} (h : pmul p a P 1 = .ok R) : R = normalise p P := by
  obtain ⟨racc, t, hracc, ht, run, rfl⟩ := pmul_ok_iff.1 h
  rw [Nat.size_one] at run ⊢
  have sum : padd p a (racc 0) (t 0) = .ok (racc 1) := (run 0 one_pos).1
  rw [hracc, ht, padd_infinity_left, normalise_normalise] at sum
  exact (Except.ok.inj sum).symm

/-! ### The commands -/

theorem pointMul_eq_pmul {p : Nat} (hp : 2 ≤ p) (a : Nat) (P : Point) (k : Nat) : pointMul p a P k = pmul p a P k :=
  if_neg (by omega)

theorem exec_pmul {s : State} (hp : 2 ≤ s.curveP) (d a : PReg) (k : BReg) : exec (.pmul d a k) s =
    conclude (pmul s.curveP s.curveA (s.readPoint a) (s.readBig k)) (fun q t => t.writePoint d q) s := by
  rw [← pointMul_eq_pmul hp]
  rfl

theorem exec_pubkey {s : State} (hp : 2 ≤ s.curveP) (d : PReg) (k : BReg) : exec (.pubkey d k) s =
    conclude (pmul s.curveP s.curveA s.curveG (s.readBig k)) (fun q t => t.writePoint d q) s := by
  rw [← pointMul_eq_pmul hp]
  rfl

/-- Over a prime a command that commits a multiple writes it. -/
theorem writesPoint_multiple_prime {i : Instr} {s : State} {d : PReg} {P : Point} {k : Nat} (hp : s.curveP.Prime)
    (hi : exec i s = conclude (pmul s.curveP s.curveA P k) (fun q t => t.writePoint d q) s) :
    ∃ q t, pmul s.curveP s.curveA P k = .ok q ∧ exec i s = .next t ∧ PointWritten t d q ∧ Normalised s.curveP q ∧
      (k = 0 → q = .infinity) ∧ (k = 1 → q = normalise s.curveP P) ∧
      Succeeded s t ∧ Frame [] [d] false 0 s t ∧ t.rngCtr = s.rngCtr := by
  obtain ⟨q, hq, -⟩ := pmul_prime hp s.curveA P k
  obtain ⟨t, ht, written, normal, done⟩ :=
    (writesPoint_or_uninvertible hi (pmul_ok_below hp.two_le) (pmul_error hp.two_le)).1 q hq
  refine ⟨q, t, hq, ht, written, normal, ?_, ?_, done⟩
  · rintro rfl
    exact (Except.ok.inj hq).symm
  · rintro rfl
    exact pmul_one hq

/-- Settles O42: both commands commit what the multiplier answers, which on a prime is always a point. -/
theorem pmulPubkeyOnPrime : Obligations.PmulPubkeyOnPrime := by
  refine ⟨fun p a k P R => pmul_ok_iff, fun p a k P hp none => ?_, fun s d a k => ⟨?_, fun hp =>
    ⟨writesPoint_multiple_prime hp (exec_pmul hp.two_le d a k),
      writesPoint_multiple_prime hp (exec_pubkey hp.two_le d k)⟩⟩⟩
  · obtain ⟨R, hR, -⟩ | herr := pmul_cases hp a P k
    · exact absurd (pmul_ok_iff.1 hR) (none R)
    · exact herr
  · rintro hp i P (⟨rfl, rfl⟩ | ⟨rfl, rfl⟩)
    · exact writesPoint_or_uninvertible (exec_pmul hp d a k) (pmul_ok_below hp) (pmul_error hp)
    · exact writesPoint_or_uninvertible (exec_pubkey hp d k) (pmul_ok_below hp) (pmul_error hp)

end Sys2Proof.Machine
end

section
/-! PROOFS. Signatures (44_signature.md): what one attempt of the signer gives, the signing loop up to the attempt that
decides it, and the verifier as a chain of what it computes. -/

namespace Sys2Proof.Machine

/-! ### The commit of a signature -/

/-- Both numbers are written, the second over neither the first nor anything else. -/
theorem complete_writeSignature (s : State) (n : Nat) {d b : BReg} (hdb : d ≠ b) {r q : Nat} (hr : r < 2 ^ Config.W)
    (hq : q < 2 ^ Config.W) :
    ∃ t, t = complete (((drawn n s).writeBig d r).writeBig b q) ∧ t.readBig d = r ∧ t.readBig b = q ∧
      t.rngCtr = s.rngCtr + BitVec.ofNat 64 n ∧ Succeeded s t ∧ Frame [d, b] [] false 0 s t := by
  obtain ⟨hd, -, frame, -⟩ := complete_writeBig (drawn n s) d hr
  obtain ⟨hb, done, frame', -⟩ := complete_writeBig ((drawn n s).writeBig d r) b hq
  have kept := frame'.1 d (by simpa using hdb)
  exact ⟨_, rfl, kept.trans hd, hb, rfl, done, ((frame_drawn n s).trans frame).trans frame'⟩

/-! ### One attempt of the signer -/

/-- The attempt with the nonce `k` is degenerate (44_signature.md R224). -/
def DegenerateNonce (c : CurveValues) (z d k : Nat) : Prop :=
  pmul c.p c.a c.g k = .ok .infinity ∨
    ∃ x y, pmul c.p c.a c.g k = .ok (.finite x y) ∧
      (x % c.n = 0 ∨ ∃ kinv, kinv < c.n ∧ k * kinv % c.n = 1 ∧ kinv * (z + x % c.n * d) % c.n = 0)

section
variable {c : CurveValues} {z d k x y : Nat} (h : pmul c.p c.a c.g k = .ok (.finite x y))
include h

theorem signAttempt_of_r_zero (hr : x % c.n = 0) : signAttempt c z d k = .ok none := by
  rw [signAttempt, h]
  exact if_pos hr

variable (hr : x % c.n ≠ 0)
include hr

theorem signAttempt_of_inv_error {e : ErrCode} (hi : inv (k : Int) c.n = .error e) :
    signAttempt c z d k = .error e := by
  rw [signAttempt, h]
  simp only [if_neg hr, hi]

/-- The two numbers of an attempt (44_signature.md R223). -/
theorem signAttempt_of_inv_ok {kinv : Nat} (hi : inv (k : Int) c.n = .ok kinv) :
    signAttempt c z d k = if kinv * (z + x % c.n * d) % c.n = 0 then .ok none
      else .ok (some (x % c.n, kinv * (z + x % c.n * d) % c.n)) := by
  rw [signAttempt, h]
  simp only [if_neg hr, hi]

end

theorem signAttempt_of_pmul_error {c : CurveValues} {z d k : Nat} {e : ErrCode} (h : pmul c.p c.a c.g k = .error e) :
    signAttempt c z d k = .error e := by
  rw [signAttempt, h]

theorem signAttempt_degenerate {c : CurveValues} {z d k : Nat} (hn : 2 ≤ c.n) (h : DegenerateNonce c z d k) :
    signAttempt c z d k = .ok none := by
  obtain h | ⟨x, y, h, hdeg⟩ := h
  · rw [signAttempt, h]
  · by_cases hr : x % c.n = 0
    · exact signAttempt_of_r_zero h hr
    · obtain ⟨kinv, hlt, hone, hs⟩ := hdeg.resolve_left hr
      rw [signAttempt_of_inv_ok h hr ((inv_natCast_iff hn).2 ⟨hlt, hone⟩), if_pos hs]

/-- An attempt that is not degenerate gives its signature (44_signature.md R223). -/
theorem signAttempt_signature {c : CurveValues} {z d k x y kinv : Nat} (hn : 2 ≤ c.n)
    (h : pmul c.p c.a c.g k = .ok (.finite x y)) (hr : x % c.n ≠ 0) (hlt : kinv < c.n) (hone : k * kinv % c.n = 1)
    (hs : kinv * (z + x % c.n * d) % c.n ≠ 0) :
    signAttempt c z d k = .ok (some (x % c.n, kinv * (z + x % c.n * d) % c.n)) := by
  rw [signAttempt_of_inv_ok h hr ((inv_natCast_iff hn).2 ⟨hlt, hone⟩), if_neg hs]

/-- An attempt that needs an inverse that does not exist (40_field.md R144). -/
theorem signAttempt_uninvertible {c : CurveValues} {z d k : Nat} (hp : 2 ≤ c.p) (hn : 2 ≤ c.n)
    (h : (∃ e, pmul c.p c.a c.g k = .error e) ∨
      ∃ x y, pmul c.p c.a c.g k = .ok (.finite x y) ∧ x % c.n ≠ 0 ∧ Nat.gcd k c.n ≠ 1) :
    signAttempt c z d k = .error .uninvertible := by
  obtain ⟨e, h⟩ | ⟨x, y, h, hr, hg⟩ := h
  · obtain rfl := pmul_error hp h
    exact signAttempt_of_pmul_error h
  · exact signAttempt_of_inv_error h hr (inv_error (by omega) (by rwa [Int.gcd_natCast_natCast]))

/-! ### The signing loop -/

/-- The draw of a nonce (42_key.md R180). -/
theorem keydraw_eq (s : State) : keydraw s.curveN s = (nonceAt s 0, drawn 1 s) := by
  simp [keydraw, draw, nonceAt, drawn]

theorem nonceAt_drawn (s : State) (i j : Nat) : nonceAt (drawn j s) i = nonceAt s (j + i) := by
  simp [nonceAt, drawn, State.curveN, BitVec.ofNat_add, BitVec.add_assoc]

section
variable {c : CurveValues} {s : State} (hc : c.n = s.curveN) (z d : Nat)
include hc

theorem signLoop_of_none (n : Nat) (h : signAttempt c z d (nonceAt s 0) = .ok none) :
    signLoop c z d (n + 1) s = signLoop c z d n (drawn 1 s) := by
  rw [signLoop, hc, keydraw_eq]
  simp only [h]

/-- An attempt that is not degenerate decides the loop: with its signature, or with its error. -/
theorem signLoop_of_decided (n : Nat) {r : Except ErrCode (Nat × Nat)}
    (h : signAttempt c z d (nonceAt s 0) = r.map some) : signLoop c z d (n + 1) s = (r, drawn 1 s) := by
  rw [signLoop, hc, keydraw_eq]
  cases r with
  | error e => simp only [h, Except.map]
  | ok rs => simp only [h, Except.map]

/-- Attempts that are degenerate cost their draws and nothing else. -/
theorem signLoop_of_all_none {j : Nat} (h : ∀ i, i < j → signAttempt c z d (nonceAt s i) = .ok none) (n : Nat) :
    signLoop c z d (n + j) s = signLoop c z d n (drawn j s) := by
  induction j generalizing n with
  | zero => rw [drawn_zero, Nat.add_zero]
  | succ j ih =>
    have last : signAttempt c z d (nonceAt (drawn j s) 0) = .ok none := by
      rw [nonceAt_drawn]
      exact h j (Nat.lt_succ_self j)
    rw [show n + (j + 1) = n + 1 + j by omega, ih (fun i hi => h i (by omega)),
      signLoop_of_none (s := drawn j s) hc z d n last, drawn_drawn]

/-- The first attempt that is not degenerate decides the loop. -/
theorem signLoop_of_first_decided {j n : Nat} (hj : j < n) {r : Except ErrCode (Nat × Nat)}
    (before : ∀ i, i < j → signAttempt c z d (nonceAt s i) = .ok none)
    (h : signAttempt c z d (nonceAt s j) = r.map some) : signLoop c z d n s = (r, drawn (j + 1) s) := by
  obtain ⟨m, rfl⟩ : ∃ m, n = m + 1 + j := ⟨n - (j + 1), by omega⟩
  rw [signLoop_of_all_none hc z d before, signLoop_of_decided (s := drawn j s) hc z d m (r := r), drawn_drawn]
  rw [nonceAt_drawn]
  exact h

end

/-- The checks of 44_signature.md R220 pass. -/
theorem signatureCheck_eq_none {s : State} (hl : s.msgLen.toNat ≤ 4096) (hp : 2 ≤ s.curveP) (hn : 2 ≤ s.curveN) :
    signatureCheck s = none := by
  rw [signatureCheck, if_neg (by simp only [Config.msgBytes]; omega), if_neg (by omega)]

/-- `SIGN` commits what its loop answers, on the state with the loop's draws. -/
theorem exec_sign {s : State} {d b : BReg} (hdb : d ≠ b) (hs : signatureCheck s = none) (a : BReg)
    {r : Except ErrCode (Nat × Nat)} {t : State}
    (h : signLoop s.curveValues s.messageZ (s.readBig a) Config.signMaxAttempts s = (r, t)) :
    exec (.sign d a b) s = conclude r (fun v t => (t.writeBig d v.1).writeBig b v.2) t := by
  change execSign d a b s = _
  rw [execSign, if_neg hdb, hs]
  simp only [h]

/-- Settles O51: the loop passes the degenerate attempts, and the first other one decides it. -/
theorem signResult : Obligations.SignResult := by
  intro s d a b z j hdb hz hl hp hn hj before
  obtain rfl := (messageInteger_iff s z).1 hz
  have decided := fun {r} => signLoop_of_first_decided (c := s.curveValues) (s := s) rfl s.messageZ (s.readBig a) hj
    (r := r) fun i hi => signAttempt_degenerate hn (before i hi)
  have checks := signatureCheck_eq_none hl hp hn
  refine ⟨fun x y kinv hpoint hr hlt hone hs => ?_, fun herr => ?_⟩
  · have attempt := signAttempt_signature (c := s.curveValues) hn hpoint hr hlt hone hs
    have fits : ∀ v, v % s.curveN < 2 ^ Config.W :=
      fun v => (Nat.mod_lt v (Nat.zero_lt_of_lt hn)).trans s.curve.n.isLt
    obtain ⟨t, rfl, commit⟩ := complete_writeSignature s (j + 1) hdb (fits x)
      (fits (kinv * (s.messageZ + x % s.curveN * s.readBig a)))
    exact ⟨_, exec_sign hdb checks a (decided (r := .ok _) attempt), commit⟩
  · have attempt := signAttempt_uninvertible (c := s.curveValues) (z := s.messageZ) (d := s.readBig a) hp hn herr
    rw [exec_sign hdb checks a (decided (r := .error _) attempt), conclude_drawn_error rfl]

/-! ### The verifier -/

theorem matchesR_iff {n r : Nat} {P : Point} : matchesR n r P = true ↔ ∃ x y, P = .finite x y ∧ x % n = r := by
  cases P <;> simp [matchesR]

section
variable {c : CurveValues} {z r s : Nat} {q : Point} (range : ¬ (r < 1 ∨ r > c.n - 1 ∨ s < 1 ∨ s > c.n - 1))
include range

/-- The verifier of numbers in range is the chain of what it computes (44_signature.md R225). -/
theorem verifySignature_eq_bind : verifySignature c z r s q =
    (inv (s : Int) c.n).bind fun w => (pmul c.p c.a c.g (z * w % c.n)).bind fun x1 =>
      (pmul c.p c.a q (r * w % c.n)).bind fun x2 => (padd c.p c.a x1 x2).bind fun x => .ok (matchesR c.n r x) := by
  rw [verifySignature, if_neg range]
  cases inv (s : Int) c.n with
  | error e => rfl
  | ok w =>
    simp only [Except.bind]
    cases pmul c.p c.a c.g (z * w % c.n) with
    | error e => rfl
    | ok x1 =>
      cases pmul c.p c.a q (r * w % c.n) with
      | error e => rfl
      | ok x2 =>
        simp only
        cases padd c.p c.a x1 x2 with
        | error e => rfl
        | ok x => rfl

theorem verifySignature_of_inv_error {e : ErrCode} (h : inv (s : Int) c.n = .error e) :
    verifySignature c z r s q = .error e := by
  rw [verifySignature_eq_bind range, h, Except.bind]

variable {w : Nat} (hw : inv (s : Int) c.n = .ok w)
include hw

theorem verifySignature_ok {x1 x2 x : Point} (h1 : pmul c.p c.a c.g (z * w % c.n) = .ok x1)
    (h2 : pmul c.p c.a q (r * w % c.n) = .ok x2) (h : padd c.p c.a x1 x2 = .ok x) :
    verifySignature c z r s q = .ok (matchesR c.n r x) := by
  simp only [verifySignature_eq_bind range, hw, h1, h2, h, Except.bind]

/-- The first multiple or sum of the chain that does not exist ends it. -/
theorem verifySignature_of_point_error (hp : 1 < c.p) {e : ErrCode}
    (h : pmul c.p c.a c.g (z * w % c.n) = .error e ∨ ∃ x1, pmul c.p c.a c.g (z * w % c.n) = .ok x1 ∧
      (pmul c.p c.a q (r * w % c.n) = .error e ∨ ∃ x2, pmul c.p c.a q (r * w % c.n) = .ok x2 ∧
        padd c.p c.a x1 x2 = .error e)) : verifySignature c z r s q = .error .uninvertible := by
  rw [verifySignature_eq_bind range, hw]
  obtain h1 | ⟨x1, h1, h2 | ⟨x2, h2, h⟩⟩ := h
  · obtain rfl := pmul_error hp h1
    simp only [h1, Except.bind]
  · obtain rfl := pmul_error hp h2
    simp only [h1, h2, Except.bind]
  · obtain rfl := padd_error hp h
    simp only [h1, h2, h, Except.bind]

end

theorem exec_verify {s : State} (hs : signatureCheck s = none) (a b : BReg) (q : PReg) : exec (.verify a b q) s =
    conclude (verifySignature s.curveValues s.messageZ (s.readBig a) (s.readBig b) (s.readPoint q))
      (fun v t => t.writeValid v) s := by
  change execVerify a b q s = _
  rw [execVerify, hs]

/-- Settles O55: the links of the verifier's chain decide how the command ends, and over primes all of them exist. -/
theorem verifyResult : Obligations.VerifyResult := by
  intro s a b q z hz hl hp hn ha1 han hb1 hbn
  obtain rfl := (messageInteger_iff s z).1 hz
  have commits := exec_verify (signatureCheck_eq_none hl hp hn) a b q
  have range : ¬ (s.readBig a < 1 ∨ s.readBig a > s.curveN - 1 ∨ s.readBig b < 1 ∨ s.readBig b > s.curveN - 1) := by
    omega
  have inverse : ∀ {w}, w < s.curveN → s.readBig b * w % s.curveN = 1 → inv (s.readBig b : Int) s.curveN = .ok w :=
    fun hlt hone => (inv_natCast_iff hn).2 ⟨hlt, hone⟩
  have valid : ∀ w, w < s.curveN → s.readBig b * w % s.curveN = 1 → ∀ x1 x2 x,
      pmul s.curveP s.curveA s.curveG (s.messageZ * w % s.curveN) = .ok x1 →
      pmul s.curveP s.curveA (s.readPoint q) (s.readBig a * w % s.curveN) = .ok x2 →
      padd s.curveP s.curveA x1 x2 = .ok x →
        ∃ v : Bool, (v = true ↔ ∃ xx xy, x = .finite xx xy ∧ xx % s.curveN = s.readBig a) ∧
          exec (.verify a b q) s =
            .next { s with engine := .idle, status := ⟨true, v, s.status.overrun, .none⟩ } := by
    intro w hlt hone x1 x2 x h1 h2 h
    have answer := verifySignature_ok (c := s.curveValues) range (inverse hlt hone) h1 h2 h
    exact ⟨_, matchesR_iff, by rw [commits, answer, conclude_ok]; rfl⟩
  refine ⟨fun hg => ?_, fun w hlt hone => ⟨fun e he => ?_, valid w hlt hone⟩, fun primeP primeN => ?_⟩
  · exact exec_eq_failed commits (verifySignature_of_inv_error range
      (inv_error (Nat.zero_lt_of_lt hn) (by rwa [Int.gcd_natCast_natCast])))
  · exact exec_eq_failed commits (verifySignature_of_point_error (c := s.curveValues) range (inverse hlt hone) hp he)
  · obtain ⟨w, hw, -⟩ := inv_prime_nat primeN hb1 (x := s.readBig b) (by omega)
    obtain ⟨hlt, hone⟩ := (inv_natCast_iff hn).1 hw
    obtain ⟨x1, h1, -⟩ := pmul_prime primeP s.curveA s.curveG (s.messageZ * w % s.curveN)
    obtain ⟨x2, h2, -⟩ := pmul_prime primeP s.curveA (s.readPoint q) (s.readBig a * w % s.curveN)
    obtain ⟨x, h, -⟩ := padd_prime primeP s.curveA x1 x2
    obtain ⟨v, hv, ends⟩ := valid w hlt hone x1 x2 x h1 h2 h
    exact ⟨w, x1, x2, x, v, hlt, hone, h1, h2, h, hv, ends⟩

end Sys2Proof.Machine
end

section
/-! PROOFS. The cipher (45_cipher.md): what `ENCRYPT` and `DECRYPT` write, and how they end without a shared point. -/

namespace Sys2Proof.Machine

/-! ### The points of the cipher on values -/

theorem sharedSecret_finite {p a k x y : Nat} {P : Point} (h : pmul p a P k = .ok (.finite x y)) :
    sharedSecret p a P k = .ok x := by
  rw [sharedSecret, h]

theorem sharedSecret_of_pmul_error {p a k : Nat} {P : Point} {e : ErrCode} (h : pmul p a P k = .error e) :
    sharedSecret p a P k = .error e := by
  rw [sharedSecret, h]

theorem encryptPoints_finite {p a k x y : Nat} {G Q R : Point} (hG : pmul p a G k = .ok R)
    (hQ : pmul p a Q k = .ok (.finite x y)) : encryptPoints p a G Q k = .ok (R, x) := by
  simp only [encryptPoints, hG, sharedSecret_finite hQ]

/-- A multiple that does not exist, of `G` or of `Q`, ends the encryption (40_field.md R144). -/
theorem encryptPoints_uninvertible {p a k : Nat} (hp : 1 < p) {G Q : Point} {e : ErrCode}
    (h : pmul p a G k = .error e ∨ pmul p a Q k = .error e) : encryptPoints p a G Q k = .error .uninvertible := by
  cases hG : pmul p a G k with
  | error e' =>
    obtain rfl := pmul_error hp hG
    simp only [encryptPoints, hG]
  | ok R =>
    have hQ : pmul p a Q k = .error e := h.resolve_left (by rw [hG]; exact nofun)
    obtain rfl := pmul_error hp hQ
    simp only [encryptPoints, hG, sharedSecret_of_pmul_error hQ]

/-! ### What is written to `OUT` -/

/-- A write of `OUT` is framed by its length. -/
theorem frame_writeOut (s : State) {bs : List Byte} {n : Nat} (h : bs.length = n) :
    Frame [] [] false n s (s.writeOut bs) :=
  ⟨fun _ _ => rfl, fun _ _ => ⟨rfl, rfl⟩, fun _ => rfl, Memory.read_writeBytes_above s.out h, fun _ => rfl, rfl, rfl,
    rfl, rfl, rfl, rfl, rfl, rfl⟩

@[simp] theorem cipherBytes_message_length (hc : Config.HexCase) (x : Nat) (s : State) :
    (cipherBytes hc x s.message).length = s.msgLen.toNat := by
  rw [cipherBytes_length, State.message_length]

/-- The bytes of `OUT` after an encryption or a decryption of the message (45_cipher.md R241). -/
theorem read_writeOut_cipherBytes {s : State} (hwf : s.out.wf = true) (hl : s.msgLen.toNat ≤ 4096) (hc : Config.HexCase)
    (x : Nat) {i : Nat} (hi : i < s.msgLen.toNat) :
    (s.writeOut (cipherBytes hc x s.message)).out.read i =
      s.msg.read i ^^^ (keystream hc x s.msgLen.toNat).getD i 0#8 := by
  rw [read_writeOut s hwf (by rwa [cipherBytes_message_length]), if_pos (by simpa using hi),
    cipherBytes_getD _ _ _ (by simpa using hi), message_getD s hi, State.message_length]

/-- The commit of an encryption: a draw, a write of `OUT` and one of a point register, each with its frame. -/
theorem complete_writeCipher {s : State} (hwf : s.out.wf = true) (hl : s.msgLen.toNat ≤ 4096) (hc : Config.HexCase)
    (x : Nat) (d : PReg) {r : Point} (hr : r.fits) :
    ∃ t, t = complete (((drawn 1 s).writeOut (cipherBytes hc x s.message)).writePoint d r) ∧ PointWritten t d r ∧
      (∀ i, i < s.msgLen.toNat → t.out.read i = s.msg.read i ^^^ (keystream hc x s.msgLen.toNat).getD i 0#8) ∧
      t.rngCtr = s.rngCtr + 1#64 ∧ Succeeded s t ∧ Frame [] [d] false s.msgLen.toNat s t := by
  have frame := (frame_drawn 1 s).trans (frame_writeOut (drawn 1 s) (cipherBytes_message_length hc x s))
  obtain ⟨written, done, frame', rng⟩ :=
    complete_writePoint ((drawn 1 s).writeOut (cipherBytes hc x s.message)) d hr
  refine ⟨_, rfl, written, fun i hi => ?_, rng, done, by simpa using frame.trans frame'⟩
  rw [complete_out, writePoint_out]
  exact read_writeOut_cipherBytes hwf hl hc x hi

/-! ### The commands -/

section
variable {s : State} (hl : s.msgLen.toNat ≤ 4096) (hp : 2 ≤ s.curveP)
include hl hp

theorem exec_encrypt (hn : 2 ≤ s.curveN) (d a : PReg) : exec (.encrypt d a) s =
    conclude (encryptPoints s.curveP s.curveA s.curveG (s.readPoint a) (nonceAt s 0))
      (fun rx t => (t.writeOut (cipherBytes Config.ksHexCase rx.2 s.message)).writePoint d rx.1) (drawn 1 s) := by
  change execEncrypt d a s = _
  rw [execEncrypt, if_neg (by simp only [Config.msgBytes]; omega), if_neg (by omega), keydraw_eq]

theorem exec_decrypt (a : BReg) (b : PReg) : exec (.decrypt a b) s =
    conclude (sharedSecret s.curveP s.curveA (s.readPoint b) (s.readBig a))
      (fun x t => t.writeOut (cipherBytes Config.ksHexCase x s.message)) s := by
  change execDecrypt a b s = _
  rw [execDecrypt, if_neg (by simp only [Config.msgBytes]; omega), if_neg (by omega)]

end

/-- Settles O57: `encryptPoints` answers both points, or needs an inverse that does not exist. -/
theorem encryptResult : Obligations.EncryptResult := by
  intro s d a hl hp hn
  have commits := exec_encrypt hl hp hn d a
  refine ⟨fun r x y hwf hG hQ => ?_, fun e he => ?_⟩
  · obtain ⟨t, ht, commit⟩ :=
      complete_writeCipher hwf hl Config.ksHexCase x d (Point.fits_of_below (pmul_ok_below hp hG))
    exact ⟨t, by rw [commits, encryptPoints_finite hG hQ, conclude_ok, ht], commit⟩
  · rw [commits, conclude_drawn_error (encryptPoints_uninvertible hp he)]

/-- Settles O58: the commit is a write of `OUT`. -/
theorem decryptResult : Obligations.DecryptResult := by
  intro s a b hl hp
  have commits := exec_decrypt hl hp a b
  refine ⟨fun x y hwf h => ?_, fun e he => ?_⟩
  · exact ⟨complete (s.writeOut (cipherBytes Config.ksHexCase x s.message)),
      by rw [commits, sharedSecret_finite h, conclude_ok],
      fun i hi => read_writeOut_cipherBytes hwf hl Config.ksHexCase x hi, rfl, ⟨rfl, rfl⟩,
      frame_writeOut s (cipherBytes_message_length Config.ksHexCase x s)⟩
  · obtain rfl := pmul_error hp he
    exact exec_eq_failed commits (sharedSecret_of_pmul_error he)

end Sys2Proof.Machine
end

section
/-! PROOFS. The curve (41_curve.md R160, R172): the points of the model are those of a Weierstrass curve over the
residues of a prime, which sums and multiples do not leave; and what the point commands answer below 2. -/

namespace Sys2Proof.Machine

/-! ### The curve over the residues -/

/-- The curve `y² = x³ + a·x + b` over the residues modulo `p`, as the library has it (10_state.md R27). -/
def residueCurve (p a b : Nat) : WeierstrassCurve.Affine (ZMod p) := ⟨0, 0, 0, a, b⟩

theorem residueCurve_negY (p a b : Nat) (x y : ZMod p) : (residueCurve p a b).negY x y = -y := by
  simp [residueCurve, WeierstrassCurve.Affine.negY]

theorem onCurve_finite_iff {p a b x y : Nat} : OnCurve p a b (.finite x y) ↔ (residueCurve p a b).Equation x y := by
  rw [OnCurve, ← ZMod.intCast_eq_intCast_iff, WeierstrassCurve.Affine.equation_iff]
  simp [residueCurve]

theorem onCurve_normalise {p a b : Nat} {P : Point} : OnCurve p a b (normalise p P) ↔ OnCurve p a b P := by
  cases P with
  | infinity => rfl
  | finite x y => simp only [normalise, onCurve_finite_iff, ZMod.natCast_mod]

/-- The third point of a line has the coordinates of the library's addition formulae (41_curve.md R166). -/
theorem onCurve_lineResult_iff {p a b sl x1 y1 x2 : Nat} (hp : 0 < p) : OnCurve p a b (lineResult p sl x1 y1 x2) ↔
    (residueCurve p a b).Equation ((residueCurve p a b).addX x1 x2 sl) ((residueCurve p a b).addY x1 x2 y1 sl) := by
  obtain ⟨x3, y3, hline, -, -, hx, hy⟩ := lineResult_spec hp sl x1 y1 x2
  have hx : (x3 : ZMod p) = (residueCurve p a b).addX x1 x2 sl := by
    simpa [residueCurve, WeierstrassCurve.Affine.addX] using (ZMod.intCast_eq_intCast_iff ..).2 hx
  have hy : (y3 : ZMod p) = (residueCurve p a b).addY x1 x2 y1 sl := by
    rw [WeierstrassCurve.Affine.addY, residueCurve_negY, WeierstrassCurve.Affine.negAddY, ← hx]
    have hy : (y3 : ZMod p) = sl * (x1 - x3) - y1 := by simpa using (ZMod.intCast_eq_intCast_iff ..).2 hy
    rw [hy]
    ring
  rw [hline, onCurve_finite_iff, hx, hy]

/-! ### Sums -/

section
variable {p a b sl x1 y1 x2 y2 : Nat} [Fact p.Prime]

/-- A line whose slope is that of the library's group law meets the curve again on it. -/
theorem onCurve_lineResult (h1 : OnCurve p a b (.finite x1 y1)) (h2 : OnCurve p a b (.finite x2 y2))
    (hline : ¬ ((x1 : ZMod p) = x2 ∧ (y1 : ZMod p) = -y2))
    (slope : (sl : ZMod p) = (residueCurve p a b).slope x1 x2 y1 y2) : OnCurve p a b (lineResult p sl x1 y1 x2) := by
  rw [onCurve_lineResult_iff (Fact.out : p.Prime).pos, slope]
  refine WeierstrassCurve.Affine.equation_add (onCurve_finite_iff.1 h1) (onCurve_finite_iff.1 h2) ?_
  rwa [residueCurve_negY]

/-- The slope of a chord (41_curve.md R165). -/
theorem slope_of_chord (hx : (x1 : ZMod p) ≠ x2) (h : (sl : Int) * ((x2 : Int) - x1) ≡ (y2 : Int) - y1 [ZMOD p]) :
    (sl : ZMod p) = (residueCurve p a b).slope x1 x2 y1 y2 := by
  have h : (sl : ZMod p) * (x2 - x1) = y2 - y1 := by simpa using (ZMod.intCast_eq_intCast_iff ..).2 h
  rw [WeierstrassCurve.Affine.slope_of_X_ne hx, eq_div_iff (sub_ne_zero.2 hx), ← neg_sub, mul_neg, h, neg_sub]

/-- The slope of a tangent (41_curve.md R163). -/
theorem slope_of_tangent (hy : (y1 : ZMod p) ≠ -y1) (h : (sl : Int) * (2 * y1) ≡ 3 * (x1 : Int) ^ 2 + a [ZMOD p]) :
    (sl : ZMod p) = (residueCurve p a b).slope x1 x1 y1 y1 := by
  have h : (sl : ZMod p) * (2 * y1) = 3 * x1 ^ 2 + a := by simpa using (ZMod.intCast_eq_intCast_iff ..).2 h
  rw [WeierstrassCurve.Affine.slope_of_Y_ne rfl (by rwa [residueCurve_negY]), residueCurve_negY,
    eq_div_iff (sub_ne_zero.2 hy), sub_neg_eq_add, ← two_mul, h]
  simp [residueCurve]

/-- The sum of two points of different abscissas (41_curve.md R165). -/
theorem onCurve_chord {R : Point} (hx1 : x1 < p) (hx2 : x2 < p) (hne : x1 ≠ x2) (h1 : OnCurve p a b (.finite x1 y1))
    (h2 : OnCurve p a b (.finite x2 y2)) (h : chord p x1 y1 x2 y2 = .ok R) : OnCurve p a b R := by
  have hp : p.Prime := Fact.out
  obtain ⟨sl, hsl, slope⟩ := chord_ok hp.two_le (y1 := y1) (y2 := y2)
    ((denominators_coprime_prime (y1 := 0) hp hx1 hx2).1 hne)
  obtain rfl := Except.ok.inj (hsl.symm.trans h)
  have hx : (x1 : ZMod p) ≠ x2 := fun e => hne (((ZMod.natCast_eq_natCast_iff ..).1 e).eq_of_lt_of_lt hx1 hx2)
  exact onCurve_lineResult h1 h2 (fun e => hx e.1) (slope_of_chord hx slope)

/-- The doubling of a point (41_curve.md R163). -/
theorem onCurve_tangent {R : Point} (h1 : OnCurve p a b (.finite x1 y1)) (h : tangent p a x1 y1 = .ok R) :
    OnCurve p a b R := by
  have hp : p.Prime := Fact.out
  by_cases hy : 2 * y1 % p = 0
  · rw [tangent, if_pos hy] at h
    obtain rfl := Except.ok.inj h
    trivial
  · obtain ⟨sl, hsl, slope⟩ := tangent_ok hp.two_le (x1 := x1) (a := a) hy
      ((denominators_coprime_prime (x1 := 0) (x2 := 0) hp hp.pos hp.pos).2 hy)
    obtain rfl := Except.ok.inj (hsl.symm.trans h)
    have hy : (y1 : ZMod p) ≠ -y1 := fun e => hy <| Nat.mod_eq_zero_of_dvd <| (ZMod.natCast_eq_zero_iff ..).1 <| by
      rw [Nat.cast_mul, Nat.cast_two, two_mul]
      exact eq_neg_iff_add_eq_zero.1 e
    exact onCurve_lineResult h1 h1 (fun e => hy e.2) (slope_of_tangent hy slope)

/-- The branches of the adder: a neutral operand, a doubling, two opposite points, and a chord (41_curve.md R161). -/
theorem onCurve_addNormalised {P Q R : Point} (hP : P.below p) (hQ : Q.below p) (h1 : OnCurve p a b P)
    (h2 : OnCurve p a b Q) (h : addNormalised p a P Q = .ok R) : OnCurve p a b R := by
  match P, Q with
  | .infinity, Q => exact Except.ok.inj h ▸ h2
  | .finite x1 y1, .infinity => exact Except.ok.inj h ▸ h1
  | .finite x1 y1, .finite x2 y2 =>
    rw [addNormalised] at h
    split at h
    · exact onCurve_tangent h1 h
    · split at h
      · exact Except.ok.inj h ▸ trivial
      · next hne => exact onCurve_chord hP.1 hQ.1 hne h1 h2 h

theorem onCurve_padd {P Q R : Point} (h1 : OnCurve p a b P) (h2 : OnCurve p a b Q) (h : padd p a P Q = .ok R) :
    OnCurve p a b R :=
  have hp : 0 < p := (Fact.out : p.Prime).pos
  onCurve_addNormalised (normalise_below hp P) (normalise_below hp Q) (onCurve_normalise.2 h1)
    (onCurve_normalise.2 h2) h

/-! ### Multiples -/

/-- A round of double-and-add keeps the running result and the doubling term on the curve. -/
theorem onCurve_doubleAndAddRound {k : Nat} {racc t racc' t' : Point} (hr : OnCurve p a b racc) (ht : OnCurve p a b t)
    (h : DoubleAndAddRound p a k racc t racc' t') : OnCurve p a b racc' ∧ OnCurve p a b t' := by
  obtain ⟨hadd, hdouble⟩ := h
  refine ⟨?_, onCurve_padd ht ht hdouble⟩
  split at hadd
  · exact onCurve_padd hr ht hadd
  · exact Except.ok.inj hadd ▸ hr

theorem onCurve_pmulLoop {n k : Nat} {racc t R : Point} (hr : OnCurve p a b racc) (ht : OnCurve p a b t)
    (h : pmulLoop p a n k racc t = .ok R) : OnCurve p a b R := by
  induction n generalizing k racc t with
  | zero => exact Except.ok.inj h ▸ hr
  | succ n ih =>
    obtain ⟨racc', t', round, rest⟩ := pmulLoop_succ_ok_iff.1 h
    obtain ⟨hr', ht'⟩ := onCurve_doubleAndAddRound hr ht round
    exact ih hr' ht' rest

end

/-- Settles O43: the adder's third point is that of the library's group law, and a multiple is a run of sums. -/
theorem pointsStayOnCurve : Obligations.PointsStayOnCurve := by
  intro p a b hp
  have : Fact p.Prime := ⟨hp⟩
  exact ⟨fun P Q R => onCurve_padd, fun P R k h => onCurve_pmulLoop trivial (onCurve_normalise.2 h)⟩

/-! ### A prime below 2 -/

theorem pointAdd_malformed {p : Nat} (hp : p < 2) (a : Nat) (P Q : Point) :
    pointAdd p a P Q = .error .malformedInput := if_pos hp

theorem pointMul_malformed {p : Nat} (hp : p < 2) (a : Nat) (P : Point) (k : Nat) :
    pointMul p a P k = .error .malformedInput := if_pos hp

/-- Settles O39: a doubling is by definition a sum, and every point command first checks the prime. -/
theorem pdblIsPaddAndPrimeBelowTwo : Obligations.PdblIsPaddAndPrimeBelowTwo := by
  refine ⟨fun d a s => rfl, fun s d a b k hp i hi => ?_⟩
  have failed {r : Except ErrCode Point} (hr : r = .error .malformedInput) :
      conclude r (fun q t => t.writePoint d q) s = .next (failedState .malformedInput 0 s) := by
    rw [hr, conclude_error, takeError_eq]
  simp only [List.mem_cons, List.not_mem_nil, or_false] at hi
  obtain rfl | rfl | rfl | rfl := hi
  · exact failed (pointAdd_malformed hp s.curveA (s.readPoint a) (s.readPoint b))
  · exact failed (pointAdd_malformed hp s.curveA (s.readPoint a) (s.readPoint a))
  · exact failed (pointMul_malformed hp s.curveA (s.readPoint a) (s.readBig k))
  · exact failed (pointMul_malformed hp s.curveA s.curveG (s.readBig k))

end Sys2Proof.Machine
end

section
/-! PROOFS. The key service (42_key.md): the draw of a private key. -/

namespace Sys2Proof.Machine

/-- The draw of index `RNG_CTR` is in the range asked for, and so fits in a register (10_state.md R37). -/
theorem nonceAt_range {s : State} (hn : 2 ≤ s.curveN) (i : Nat) :
    1 ≤ nonceAt s i ∧ nonceAt s i ≤ s.curveN - 1 ∧ nonceAt s i < 2 ^ Config.W := by
  obtain ⟨hlo, hhi⟩ := Config.rng_range s.seed (s.rngCtr + BitVec.ofNat 64 i) (show 1 ≤ s.curveN - 1 by omega)
  have order : s.curveN < 2 ^ Config.W := BitVec.isLt _
  exact ⟨hlo, hhi, hhi.trans_lt (by omega)⟩

/-- The order passes the check: the draw is written. -/
theorem exec_keygen {s : State} (hn : 2 ≤ s.curveN) (d : BReg) :
    exec (.keygen d) s = .next (complete ((drawn 1 s).writeBig d (nonceAt s 0))) := by
  change execKeygen d s = _
  rw [execKeygen, if_neg (by omega), keydraw_eq]

theorem exec_keygen_malformed {s : State} (hn : s.curveN < 2) (d : BReg) :
    exec (.keygen d) s = .next (failedState .malformedInput 0 s) := by
  change execKeygen d s = _
  rw [execKeygen, if_pos hn, takeError_eq]

/-- Settles O44: the commit is a draw and a write of one big register, each with its frame. -/
theorem keygenResult : Obligations.KeygenResult := by
  refine fun s d => ⟨fun hn => ?_, fun hn => exec_keygen_malformed hn d⟩
  obtain ⟨hlo, hhi, fits⟩ := nonceAt_range hn 0
  obtain ⟨written, done, frame, rng⟩ := complete_writeBig (drawn 1 s) d fits
  have index : nonceAt s 0 = Config.rng s.seed s.rngCtr 1 (s.curveN - 1) := by simp [nonceAt]
  exact ⟨_, exec_keygen hn d, written.trans index, hlo.trans_eq written.symm, written.trans_le hhi, rng, done,
    (frame_drawn 1 s).trans frame⟩

end Sys2Proof.Machine
end

section
/-! PROOFS. The hash (43_hash.md): the digest as an integer, the padding, and the schedule, the rounds and the chain of
blocks as runs over the numbers of their steps; then the three commands. -/

namespace Sys2Proof.Machine

/-! ### The digest as an integer -/

theorem hashWords_toList (h : Vector Word 8) : h.toList = [h[0], h[1], h[2], h[3], h[4], h[5], h[6], h[7]] :=
  List.ext_getElem (by simp) fun i h1 _ => by
    have hi : i < 8 := by simpa using h1
    interval_cases i <;> simp

/-- The integer of the words, written out (43_hash.md R198). -/
theorem zint_eq (h : Vector Word 8) : zint h =
    h[0].toNat * 2 ^ 224 + h[1].toNat * 2 ^ 192 + h[2].toNat * 2 ^ 160 + h[3].toNat * 2 ^ 128 +
      h[4].toNat * 2 ^ 96 + h[5].toNat * 2 ^ 64 + h[6].toNat * 2 ^ 32 + h[7].toNat := by
  rw [zint, hashWords_toList]
  simp only [List.foldl_cons, List.foldl_nil]
  ring

/-- A number `z` followed by words is below `z + 1` followed by as many words of zero. -/
theorem foldl_words_lt (z : Nat) (ws : List Word) :
    ws.foldl (fun z w => z * 2 ^ 32 + w.toNat) z < (z + 1) * 2 ^ (32 * ws.length) := by
  induction ws generalizing z with
  | nil => simp
  | cons w ws ih =>
    have word : z * 2 ^ 32 + w.toNat + 1 ≤ (z + 1) * 2 ^ 32 := by omega
    calc
      _ < (z * 2 ^ 32 + w.toNat + 1) * 2 ^ (32 * ws.length) := ih (z * 2 ^ 32 + w.toNat)
      _ ≤ (z + 1) * 2 ^ 32 * 2 ^ (32 * ws.length) := Nat.mul_le_mul_right _ word
      _ = (z + 1) * 2 ^ (32 * (w :: ws).length) := by rw [List.length_cons]; ring

theorem zint_lt (h : Vector Word 8) : zint h < 2 ^ 256 := by simpa [zint] using foldl_words_lt 0 h.toList

/-- The four bytes of a word carry it into a big-endian integer. -/
theorem foldl_bigEndianBytes (z : Nat) (w : Word) :
    (bigEndianBytes w).foldl (fun z b => z * 256 + b.toNat) z = z * 2 ^ 32 + w.toNat := by
  simp only [bigEndianBytes, List.foldl_cons, List.foldl_nil, BitVec.extractLsb'_toNat, Nat.shiftRight_eq_div_pow]
  omega

/-- Settles O49: word by word the bytes of the digest make the number that the words make. -/
theorem digestInteger : Obligations.DigestInteger := by
  refine fun h => ⟨?_, ?_, zint_lt h, zint_eq h⟩
  · simp [digest, hashWords_toList, bigEndianBytes]
  · simp only [digest, List.foldl_flatMap, foldl_bigEndianBytes]
    rfl

/-! ### The padding of a message -/

/-- Byte `i` of 8, the most significant first, is the number over `256 ^ (7 - i)` (43_hash.md R196). -/
theorem bytes64_eq_map (v : Nat) : bytes64 v = (List.range 8).map fun i => BitVec.ofNat 8 (v / 2 ^ (8 * (7 - i))) := by
  simp [bytes64, List.range_succ]

/-- A padded message is a whole number of blocks (43_hash.md R197). -/
theorem pad_length_blocks (m : List Byte) : (pad m).length = 64 * ((m.length + 8) / 64 + 1) := by
  rw [pad_length]
  unfold padZeros
  omega

/-- Settles O48: the zeros are fewer than 64, so no smaller number of them has the same remainder. -/
theorem paddingOfMessage : Obligations.PaddingOfMessage := by
  intro m _
  obtain ⟨aligned, fewer⟩ := padZeros_spec m.length
  refine ⟨padZeros m.length, ?_, aligned, fun z' h' => by omega, pad_length_blocks m⟩
  rw [← bytes64_eq_map]
  simp [pad]

/-! ### Runs of numbered steps -/

/-- A run of `n` steps from `a` exists, and ends where the fold of the step over the numbers of the steps does. -/
theorem exists_run_iff {α : Type} {f : α → Nat → α} {a b : α} {n : Nat} :
    (∃ v : Nat → α, v 0 = a ∧ (∀ t, t < n → f (v t) t = v (t + 1)) ∧ v n = b) ↔ (List.range n).foldl f a = b := by
  have fold_succ (t : Nat) : (List.range (t + 1)).foldl f a = f ((List.range t).foldl f a) t := by
    rw [List.range_succ, List.foldl_concat]
  constructor
  · rintro ⟨v, start, steps, rfl⟩
    induction n with
    | zero => exact start.symm
    | succ n ih => rw [fold_succ, ih fun t ht => steps t (by omega), steps n (by omega)]
  · rintro rfl
    exact ⟨fun t => (List.range t).foldl f a, rfl, fun t _ => (fold_succ t).symm, rfl⟩

/-! ### The schedule -/

/-- Word `t` of a schedule from the words before it (43_hash.md R193). -/
def scheduleStep (w : Nat → Word) (t : Nat) : Word :=
  shaSmallSigma1 (w (t - 2)) + w (t - 7) + shaSmallSigma0 (w (t - 15)) + w (t - 16)

/-- The list form of the recurrence, the latest word first, is the recurrence. -/
theorem nextScheduleWord_map (w : Nat → Word) {k : Nat} (hk : 16 ≤ k) :
    nextScheduleWord ((List.range k).map w).reverse = scheduleStep w k := by
  have word {i : Nat} (hi : i < k) : ((List.range k).map w).reverse.getD i 0#32 = w (k - (i + 1)) := by
    rw [List.getD_eq_getElem _ _ (by simpa using hi)]
    simp [Nat.sub_sub, Nat.add_comm]
  rw [nextScheduleWord, word (by omega), word (by omega), word (by omega), word (by omega), scheduleStep]

/-- The last word made is the one in front. -/
theorem extendSchedule_succ (n : Nat) (ws : List Word) :
    extendSchedule (n + 1) ws = nextScheduleWord (extendSchedule n ws) :: extendSchedule n ws := by
  induction n generalizing ws with
  | zero => rfl
  | succ n ih => exact ih (nextScheduleWord ws :: ws)

/-- The words made are those of `w` just when `w` starts with the block and satisfies the recurrence. -/
theorem extendSchedule_eq_map_iff {bs : List Byte} {w : Nat → Word} (n : Nat) :
    extendSchedule n ((List.range 16).map (blockWord bs)).reverse = ((List.range (16 + n)).map w).reverse ↔
      (∀ t, t < 16 → w t = blockWord bs t) ∧ ∀ t, 16 ≤ t → t < 16 + n → w t = scheduleStep w t := by
  induction n with
  | zero =>
    simp only [extendSchedule, List.reverse_inj, List.map_inj_left, List.mem_range, eq_comm (a := w _)]
    exact ⟨fun h => ⟨h, fun t _ _ => by omega⟩, fun h => h.1⟩
  | succ n ih =>
    have words : ((List.range (16 + (n + 1))).map w).reverse = w (16 + n) :: ((List.range (16 + n)).map w).reverse := by
      rw [← Nat.add_assoc, List.range_succ, List.map_append, List.reverse_append]
      rfl
    rw [extendSchedule_succ, words, List.cons.injEq]
    constructor
    · rintro ⟨last, before⟩
      rw [before, nextScheduleWord_map w (by omega)] at last
      obtain ⟨first, steps⟩ := ih.1 before
      refine ⟨first, fun t ht ht' => ?_⟩
      obtain rfl | ht' : t = 16 + n ∨ t < 16 + n := by omega
      · exact last.symm
      · exact steps t ht ht'
    · rintro ⟨first, steps⟩
      have before := ih.2 ⟨first, fun t ht ht' => steps t ht (by omega)⟩
      rw [before, nextScheduleWord_map w (by omega)]
      exact ⟨(steps (16 + n) (by omega) (by omega)).symm, rfl⟩

/-- A schedule of a block is the model's schedule of it (43_hash.md R193). -/
theorem isSchedule_iff {bs : List Byte} {w : Nat → Word} : IsSchedule bs w ↔ schedule bs = (List.range 64).map w := by
  rw [schedule, List.reverse_eq_iff, extendSchedule_eq_map_iff 48]
  rfl

theorem exists_isSchedule (bs : List Byte) : ∃ w, IsSchedule bs w :=
  ⟨fun t => (schedule bs).getD t 0#32, isSchedule_iff.2 <| List.ext_getElem (by simp [schedule_length]) fun t ht _ => by
    rw [List.getElem_map, List.getElem_range, List.getD_eq_getElem _ _ ht]⟩

/-! ### The rounds -/

theorem isRound_iff {k w : Word} {u v : ShaWork} : IsRound k w u v ↔ shaRound u (k, w) = v := by
  constructor
  · cases v
    rintro ⟨_, _, rfl, rfl, rfl, rfl, rfl, rfl, rfl, rfl, rfl, rfl⟩
    rfl
  · rintro rfl
    exact ⟨_, _, rfl, rfl, rfl, rfl, rfl, rfl, rfl, rfl, rfl, rfl⟩

theorem shaK_eq_map : shaK = (List.range 64).map fun t => roundConstants.getD t 0#32 := by decide

/-- The 64 rounds are a run over their numbers (43_hash.md R194). -/
theorem shaRounds_eq_foldl {bs : List Byte} {w : Nat → Word} (hw : IsSchedule bs w) (h : Vector Word 8) :
    shaRounds h bs =
      (List.range 64).foldl (fun v t => shaRound v (roundConstants.getD t 0#32, w t)) (shaStart h) := by
  rw [shaRounds, isSchedule_iff.1 hw, shaK_eq_map, List.zip_map', List.foldl_map]

/-- A compression of a block exists, and is the model's (43_hash.md R193 to R195). -/
theorem compression_iff {h h' : Vector Word 8} {bs : List Byte} : Compression h bs h' ↔ compress h bs = h' := by
  constructor
  · rintro ⟨w, v, hw, start, rounds, rfl⟩
    have run : (List.range 64).foldl (fun u t => shaRound u (roundConstants.getD t 0#32, w t)) (shaStart h) = v 64 :=
      exists_run_iff.1 ⟨v, start, fun t ht => isRound_iff.1 (rounds t ht), rfl⟩
    exact compress_of_rounds (run.symm.trans (shaRounds_eq_foldl hw h).symm)
  · rintro rfl
    obtain ⟨w, hw⟩ := exists_isSchedule bs
    obtain ⟨v, start, rounds, last⟩ := exists_run_iff.2 (shaRounds_eq_foldl hw h).symm
    exact ⟨w, v, hw, start, fun t ht => isRound_iff.2 (rounds t ht), compress_of_rounds last⟩

/-! ### The chain of blocks -/

/-- Block `i` of a list of bytes (43_hash.md R197). -/
def nthBlock (bs : List Byte) (i : Nat) : List Byte := (List.range 64).map fun j => bs.getD (64 * i + j) 0#8

theorem nthBlock_zero {bs : List Byte} (h : 64 ≤ bs.length) : nthBlock bs 0 = bs.take 64 :=
  List.ext_getElem (by simp [nthBlock, h]) fun j _ hj => by
    simp [nthBlock, hj.trans_le (List.length_take_le' 64 bs)]

theorem nthBlock_succ (bs : List Byte) (i : Nat) : nthBlock bs (i + 1) = nthBlock (bs.drop 64) i := by
  simp only [nthBlock, List.getD_eq_getElem?_getD, List.getElem?_drop]
  refine List.map_congr_left fun j _ => ?_
  rw [show 64 * (i + 1) + j = 64 + (64 * i + j) by omega]

/-- The chaining state is a run over the numbers of the blocks (43_hash.md R197). -/
theorem hashBlocks_eq_foldl {n : Nat} {h : Vector Word 8} {bs : List Byte} (hbs : bs.length = 64 * n) :
    hashBlocks n h bs = (List.range n).foldl (fun c i => compress c (nthBlock bs i)) h := by
  induction n generalizing h bs with
  | zero => rfl
  | succ n ih =>
    rw [hashBlocks, ih (by rw [List.length_drop]; omega), List.range_succ_eq_map, List.foldl_cons, List.foldl_map,
      nthBlock_zero (by omega)]
    simp only [Nat.succ_eq_add_one, nthBlock_succ]

theorem hashChain_iff {n : Nat} {h h' : Vector Word 8} {bs : List Byte} (hbs : bs.length = 64 * n) :
    HashChain n h bs h' ↔ hashBlocks n h bs = h' := by
  rw [hashBlocks_eq_foldl hbs, ← exists_run_iff]
  simp only [HashChain, compression_iff, nthBlock]

/-! ### The commands -/

theorem frame_writeHash (s : State) (h : Vector Word 8) : Frame [] [] true 0 s (s.writeHash h) :=
  ⟨fun _ _ => rfl, fun _ _ => ⟨rfl, rfl⟩, nofun, fun _ _ => rfl, fun _ => rfl, rfl, rfl, rfl, rfl, rfl, rfl, rfl, rfl⟩

theorem exec_shablk (s : State) {i : BitVec 8} (hi : i.toNat < 64) :
    exec (.shablk i) s = .next (complete (s.writeHash (compress s.shaH (s.messageBlock i.toNat)))) := by
  change execShablk i s = _
  rw [execShablk, if_neg (by simp only [Config.msgBytes]; omega)]

theorem exec_shablk_malformed (s : State) {i : BitVec 8} (hi : 64 ≤ i.toNat) :
    exec (.shablk i) s = .next (failedState .malformedInput 0 s) := by
  change execShablk i s = _
  rw [execShablk, if_pos (by simp only [Config.msgBytes]; omega), takeError_eq]

theorem exec_shahash {s : State} (hl : s.msgLen.toNat ≤ 4096) (d : BReg) : exec (.shahash d) s =
    .next (complete ((s.writeHash (sha256 s.message)).writeBig d (zint (sha256 s.message)))) := by
  change execShahash d s = _
  rw [execShahash, if_neg (by simp only [Config.msgBytes]; omega)]

theorem exec_shahash_malformed {s : State} (hl : 4096 < s.msgLen.toNat) (d : BReg) :
    exec (.shahash d) s = .next (failedState .malformedInput 0 s) := by
  change execShahash d s = _
  rw [execShahash, if_pos (by simp only [Config.msgBytes]; omega), takeError_eq]

/-- The number of blocks of a padded message (43_hash.md R201). -/
theorem sha256_message (s : State) :
    sha256 s.message = hashBlocks ((s.msgLen.toNat + 8) / 64 + 1) shaIV (pad s.message) := by
  rw [sha256, pad_length_blocks, State.message_length, Nat.mul_div_cancel_left _ (by omega)]

/-- Settles O45: the commit is a write of the hash state. -/
theorem shainitResult : Obligations.ShainitResult := by
  intro s
  obtain ⟨written, done, frame, rng⟩ := complete_writeHash s shaIV
  exact ⟨_, rfl, written, rfl, done, frame, rng⟩

/-- Settles O46: the schedule and the rounds of the model are the only ones, and the commit is a write of the hash
state. -/
theorem shablkResult : Obligations.ShablkResult := by
  refine ⟨fun h h' bs => compression_iff.symm, fun s i => ⟨fun hi => ?_, exec_shablk_malformed s⟩⟩
  exact ⟨_, s.messageBlock i.toNat, exec_shablk s hi, Memory.bytes_length _ _ _, Memory.bytes_getD _ _ _,
    complete_writeHash s _⟩

/-- Settles O47: the fold over the blocks is the only chain, and the commit is a write of the hash state and one of a
big register, in which a digest fits. -/
theorem shahashResult : Obligations.ShahashResult := by
  refine ⟨rfl, fun n h h' bs hbs => (hashChain_iff hbs).symm, fun s d => ⟨fun hl => ?_, fun hl => ?_⟩⟩
  · obtain ⟨written, done, frame, rng⟩ :=
      complete_writeBig (s.writeHash (sha256 s.message)) d (Config.lt_two_pow_W (zint_lt (sha256 s.message)))
    exact ⟨_, s.message, exec_shahash hl d, s.message_length, fun j => message_getD s, sha256_message s, written, done,
      (frame_writeHash s _).trans frame, rng⟩
  · exact exec_shahash_malformed hl d

end Sys2Proof.Machine
end

section
/-! PROOFS. How the commands that read a message end on their checks (44_signature.md R220, R227), and how the signing
loop ends when every attempt is degenerate and over primes. -/

namespace Sys2Proof.Machine

/-! ### The first checks -/

/-- The two checks of R220 answer alike, so either one's failure gives the answer. -/
theorem signatureCheck_malformed {s : State} (h : 4096 < s.msgLen.toNat ∨ s.curveP < 2 ∨ s.curveN < 2) :
    signatureCheck s = some .malformedInput := by
  rw [signatureCheck, ← ite_or]
  exact if_pos h

theorem exec_sign_same_register (s : State) (d a : BReg) :
    exec (.sign d a d) s = .next (failedState .illegalCommand 0 s) := by
  change execSign d a d s = _
  rw [execSign, if_pos rfl, takeError_eq]

section
variable {s : State} {e : ErrCode} (hs : signatureCheck s = some e)
include hs

theorem exec_sign_of_failed_check {d b : BReg} (hdb : d ≠ b) (a : BReg) :
    exec (.sign d a b) s = .next (failedState e 0 s) := by
  change execSign d a b s = _
  rw [execSign, if_neg hdb, hs, ← takeError_eq]

theorem exec_verify_of_failed_check (a b : BReg) (q : PReg) : exec (.verify a b q) s = .next (failedState e 0 s) := by
  change execVerify a b q s = _
  rw [execVerify, hs, ← takeError_eq]

end

theorem exec_encrypt_malformed {s : State} (h : 4096 < s.msgLen.toNat ∨ s.curveP < 2 ∨ s.curveN < 2) (d a : PReg) :
    exec (.encrypt d a) s = .next (failedState .malformedInput 0 s) := by
  change execEncrypt d a s = _
  rw [execEncrypt, ← ite_or, ← takeError_eq]
  exact if_pos h

theorem exec_decrypt_malformed {s : State} (h : 4096 < s.msgLen.toNat ∨ s.curveP < 2) (a : BReg) (b : PReg) :
    exec (.decrypt a b) s = .next (failedState .malformedInput 0 s) := by
  change execDecrypt a b s = _
  rw [execDecrypt, ← ite_or, ← takeError_eq]
  exact if_pos h

/-- Settles O50: each command answers its first check that fails, on the state as it was. -/
theorem messageAndCurveChecks : Obligations.MessageAndCurveChecks := by
  refine fun s d a b p q => ⟨exec_sign_same_register s d a, fun h => ?_, fun h => exec_decrypt_malformed h a q⟩
  have check := signatureCheck_malformed h
  exact ⟨fun hdb => exec_sign_of_failed_check check hdb a, exec_verify_of_failed_check check a b q,
    exec_encrypt_malformed h p q⟩

/-- No arithmetic comes before the range of `r` and `s` (44_signature.md R227). -/
theorem verifySignature_out_of_range {c : CurveValues} {r s : Nat} (h : r < 1 ∨ c.n - 1 < r ∨ s < 1 ∨ c.n - 1 < s)
    (z : Nat) (q : Point) : verifySignature c z r s q = .error .degenerateSignature :=
  if_pos h

/-- Settles O54: the range of `r` and `s` is the verifier's first check after those of R220. -/
theorem verifyRange : Obligations.VerifyRange := by
  intro s a b q hl hp hn range
  exact exec_eq_failed (exec_verify (signatureCheck_eq_none hl hp hn) a b q)
    (verifySignature_out_of_range (c := s.curveValues) range _ _)

/-! ### The end of the signing loop -/

/-- Settles O52: the loop passes every attempt and has none left. -/
theorem signExhausted : Obligations.SignExhausted := by
  intro s d a b z hdb hz hl hp hn degenerate
  obtain rfl := (messageInteger_iff s z).1 hz
  have passes := signLoop_of_all_none (c := s.curveValues) (s := s) rfl s.messageZ (s.readBig a)
    (fun i hi => signAttempt_degenerate hn (degenerate i hi)) 0
  rw [Nat.zero_add] at passes
  rw [exec_sign hdb (signatureCheck_eq_none hl hp hn) a passes, conclude_drawn_error rfl]

/-- Over primes an attempt with a nonce in `[1, n-1]` never needs an inverse that does not exist. -/
theorem signAttempt_prime {c : CurveValues} (hp : c.p.Prime) (hn : c.n.Prime) (z d : Nat) {k : Nat} (h1 : 1 ≤ k)
    (hk : k < c.n) : ∃ o, signAttempt c z d k = .ok o := by
  obtain ⟨R, hR, -⟩ := pmul_prime hp c.a c.g k
  cases R with
  | infinity => exact ⟨none, signAttempt_degenerate hn.two_le (.inl hR)⟩
  | finite x y =>
    by_cases hr : x % c.n = 0
    · exact ⟨none, signAttempt_of_r_zero hR hr⟩
    · obtain ⟨kinv, hi, -⟩ := inv_prime_nat hn h1 hk
      rw [signAttempt_of_inv_ok hR hr hi]
      split_ifs
      · exact ⟨_, rfl⟩
      · exact ⟨_, rfl⟩

/-- Over primes the signing loop ends with a signature, or after all its draws. -/
theorem signLoop_prime {c : CurveValues} (hp : c.p.Prime) (hn : c.n.Prime) (z d n : Nat) {s : State}
    (hc : c.n = s.curveN) :
    (∃ m rs, 1 ≤ m ∧ m ≤ n ∧ signLoop c z d n s = (.ok rs, drawn m s)) ∨
      signLoop c z d n s = (.error .degenerateSignature, drawn n s) := by
  induction n generalizing s with
  | zero => exact .inr (by rw [signLoop, drawn_zero])
  | succ n ih =>
    obtain ⟨hlo, hhi, -⟩ := nonceAt_range (hc ▸ hn.two_le) 0
    obtain ⟨o, ho⟩ := signAttempt_prime hp hn z d hlo (by have := hn.pos; omega)
    cases o with
    | some rs => exact .inl ⟨1, rs, le_rfl, by omega, signLoop_of_decided hc z d n (r := .ok rs) ho⟩
    | none =>
      rw [signLoop_of_none hc z d n ho]
      obtain ⟨m, rs, hm, hmn, h⟩ | h := ih (s := drawn 1 s) hc
      · exact .inl ⟨1 + m, rs, by omega, by omega, by rw [h, drawn_drawn]⟩
      · exact .inr (by rw [h, drawn_drawn, Nat.add_comm])

/-- Settles O53: the loop's signature is in range and is committed; otherwise all its draws are made. -/
theorem signOnPrimes : Obligations.SignOnPrimes := by
  intro s d a b hdb hl primeP primeN
  have checks := signatureCheck_eq_none hl primeP.two_le primeN.two_le
  obtain ⟨m, ⟨r, q⟩, hm, hmax, h⟩ | h :=
    signLoop_prime (c := s.curveValues) primeP primeN s.messageZ (s.readBig a) Config.signMaxAttempts (s := s) rfl
  · obtain ⟨hr1, hrn, hq1, hqn⟩ := signLoop_range (c := s.curveValues) primeN.pos _ _ _ _ r q (congrArg Prod.fst h)
    have order : s.curveN < 2 ^ Config.W := s.curve.n.isLt
    obtain ⟨t, ht, hd, hb, rest⟩ := complete_writeSignature s m hdb (hrn.trans order) (hqn.trans order)
    exact .inl ⟨t, m, by rw [exec_sign hdb checks a h, conclude_ok, ht], hr1.trans_eq hd.symm,
      hd.trans_le (Nat.le_pred_of_lt hrn), hq1.trans_eq hb.symm, hb.trans_le (Nat.le_pred_of_lt hqn), hm, hmax, rest⟩
  · exact .inr (by rw [exec_sign hdb checks a h, conclude_drawn_error rfl])

end Sys2Proof.Machine
end

section
/-! PROOFS. The cipher's keystream (45_cipher.md R240) as the library's base-16 digits, a shared point at infinity
(R244), and the round trip of the XOR step (R245). -/

namespace Sys2Proof.Machine

/-! ### The keystream -/

/-- With enough fuel the digits of a positive number are the library's, which has the least significant one first. -/
theorem hexDigits_eq_digits {fuel x : Nat} (hx : 0 < x) (hfuel : x < 16 ^ fuel) (ds : List Nat) :
    hexDigits fuel x ds = (Nat.digits 16 x).reverse ++ ds := by
  induction fuel generalizing x ds with
  | zero => rw [pow_zero] at hfuel; omega
  | succ fuel ih =>
    rw [hexDigits]
    split
    next hlt => rw [Nat.digits_of_lt 16 x hx.ne' hlt, List.reverse_singleton, List.singleton_append]
    next hge =>
      rw [ih (by omega) (by rw [pow_succ] at hfuel; omega), Nat.digits_def' (by norm_num) hx, List.reverse_cons,
        List.append_assoc, List.singleton_append]

/-- One base-16 digit for each bit is more than a number has (log 17). -/
theorem lt_sixteen_pow_bitlen (x : Nat) : x < 16 ^ (bitlen x + 1) := by
  rw [bitlen_eq_size]
  calc x < 2 ^ x.size := Nat.lt_size_self x
    _ ≤ 16 ^ x.size := Nat.pow_le_pow_left (by norm_num) _
    _ ≤ 16 ^ (x.size + 1) := Nat.pow_le_pow_right (by norm_num) (by omega)

theorem hextext_zero (hc : Config.HexCase) : hextext hc 0 = [0].map (hexByte hc) := rfl

theorem hextext_of_pos (hc : Config.HexCase) {x : Nat} (hx : 0 < x) :
    hextext hc x = (Nat.digits 16 x).reverse.map (hexByte hc) := by
  rw [hextext, hexDigits_eq_digits hx (lt_sixteen_pow_bitlen x), List.append_nil]

/-- The digits read from the most significant one on give the number back. -/
theorem foldl_reverse_digits (x : Nat) : (Nat.digits 16 x).reverse.foldl (fun v e => v * 16 + e) 0 = x := by
  conv_rhs => rw [← Nat.ofDigits_digits 16 x, Nat.ofDigits_eq_foldr]
  simp only [List.foldl_reverse, Nat.cast_id, Nat.add_comm, Nat.mul_comm]

theorem head?_reverse_digits_ne_zero {x : Nat} (hx : x ≠ 0) : (Nat.digits 16 x).reverse.head? ≠ some 0 := by
  rw [List.head?_reverse, List.getLast?_eq_getLast_of_ne_nil (Nat.digits_ne_nil_iff_ne_zero.2 hx), ne_eq,
    Option.some_inj]
  exact Nat.getLast_digit_ne_zero 16 hx

/-- The text of a number: digits below 16, of that value, and a leading zero for 0 only (45_cipher.md R240). -/
theorem hextext_digits (hc : Config.HexCase) (x : Nat) :
    ∃ ds : List Nat, ds ≠ [] ∧ hextext hc x = ds.map (hexByte hc) ∧ (∀ e ∈ ds, e < 16) ∧
      ds.foldl (fun v e => v * 16 + e) 0 = x ∧ (ds.head? = some 0 → ds = [0]) := by
  rcases Nat.eq_zero_or_pos x with rfl | hx
  · exact ⟨[0], by decide, hextext_zero hc, by decide, rfl, fun _ => rfl⟩
  · refine ⟨(Nat.digits 16 x).reverse, ?_, hextext_of_pos hc hx, fun e he => ?_, foldl_reverse_digits x,
      fun h => absurd h (head?_reverse_digits_ne_zero hx.ne')⟩
    · exact List.reverse_ne_nil_iff.2 (Nat.digits_ne_nil_iff_ne_zero.2 hx.ne')
    · exact Nat.digits_lt_base (by norm_num) (List.mem_reverse.1 he)

/-- The keystream repeats the text. -/
theorem keystream_getD (hc : Config.HexCase) (x : Nat) {n i : Nat} (hi : i < n) :
    (keystream hc x n).getD i 0#8 = (hextext hc x).getD (i % (hextext hc x).length) 0#8 := by
  rw [List.getD_eq_getElem _ _ (by rwa [keystream_length])]
  simp only [keystream, List.getElem_map, List.getElem_range]

/-- Settles O56: the text is the library's digits in reverse, and each of the sixteen digits has its letter. -/
theorem keystreamText : Obligations.KeystreamText := by
  refine fun hc x n i => ⟨hextext_digits hc x, keystream_length hc x n, keystream_getD hc x, ?_, by decide, by decide⟩
  exact List.map_congr_left fun e he => by
    have he := List.mem_range.1 he
    rw [hexByte_lower e he, BitVec.toNat_ofNat, Nat.mod_eq_of_lt (by omega)]

/-! ### A shared point at infinity -/

theorem sharedSecret_infinity {p a k : Nat} {P : Point} (h : pmul p a P k = .ok .infinity) :
    sharedSecret p a P k = .error .infinityPoint := by
  rw [sharedSecret, h]

theorem encryptPoints_infinity {p a k : Nat} {G Q R : Point} (hG : pmul p a G k = .ok R)
    (hQ : pmul p a Q k = .ok .infinity) : encryptPoints p a G Q k = .error .infinityPoint := by
  simp only [encryptPoints, hG, sharedSecret_infinity hQ]

/-- Settles O59: the shared point has no abscissa, which ends the command before its writes and after its draw. -/
theorem sharedPointAtInfinity : Obligations.SharedPointAtInfinity := by
  intro s d a k r hl hp
  refine ⟨fun hn hG hQ => ?_, fun h => ?_⟩
  · rw [exec_encrypt hl hp hn d a, conclude_drawn_error (encryptPoints_infinity hG hQ)]
  · exact exec_eq_failed (exec_decrypt hl hp k a) (sharedSecret_infinity h)

/-! ### The round trip -/

/-- A failed state shows its code. -/
theorem errcode_of_exec_failed {i : Instr} {s t : State} {e : ErrCode} {n : Nat} (ht : exec i s = .next t)
    (failed : exec i s = .next (failedState e n s)) : t.status.errcode = e := by
  obtain rfl := Host.Outcome.next.inj (ht.symm.trans failed)
  rfl

/-- An encryption without an error code passed its checks, and its ephemeral point exists. -/
theorem exec_encrypt_succeeds {s t : State} {d a : PReg} (ht : exec (.encrypt d a) s = .next t)
    (ok : t.status.errcode = .none) : s.msgLen.toNat ≤ 4096 ∧ 2 ≤ s.curveP ∧ 2 ≤ s.curveN ∧
      ∃ r, pmul s.curveP s.curveA s.curveG (nonceAt s 0) = .ok r := by
  have checks : ¬ (4096 < s.msgLen.toNat ∨ s.curveP < 2 ∨ s.curveN < 2) := fun h =>
    nomatch ok.symm.trans (errcode_of_exec_failed ht (exec_encrypt_malformed h d a))
  obtain ⟨hl, hp, hn⟩ : s.msgLen.toNat ≤ 4096 ∧ 2 ≤ s.curveP ∧ 2 ≤ s.curveN := by omega
  refine ⟨hl, hp, hn, ?_⟩
  cases hG : pmul s.curveP s.curveA s.curveG (nonceAt s 0) with
  | ok r => exact ⟨r, rfl⟩
  | error e => nomatch ok.symm.trans (errcode_of_exec_failed ht ((encryptResult s d a hl hp hn).2 e (.inl hG)))

/-- Settles O60: both commands succeed, and the same keystream taken twice cancels. -/
theorem cipherRoundTrip : Obligations.CipherRoundTrip := by
  intro s t u v d a b k x y y' hs hu ht ok hQ hlen hmsg hR hp hv
  obtain ⟨hl, hps, hns, r, hG⟩ := exec_encrypt_succeeds ht ok
  obtain ⟨t', ht', -, cipher, -⟩ := (encryptResult s d a hl hps hns).1 r x y hs hG hQ
  obtain rfl := Host.Outcome.next.inj (ht.symm.trans ht')
  obtain ⟨v', hv', plain, -, ⟨-, done⟩, -⟩ := (decryptResult u k b (by rwa [hlen]) hp).1 x y' hu hR
  obtain rfl := Host.Outcome.next.inj (hv.symm.trans hv')
  refine ⟨by rw [done], fun i hi => ?_⟩
  rw [plain i (by rwa [hlen]), hmsg i hi, cipher i hi, hlen, BitVec.xor_assoc, BitVec.xor_self, BitVec.xor_zero]

end Sys2Proof.Machine
end

section
/-! PROOFS. The system command (46_system.md): its completion, its one word, and its run from reset. -/

namespace Sys2Proof.Machine

/-- The completion changes nothing a frame speaks of. -/
theorem frame_complete (s : State) : Frame [] [] false 0 s (complete s) :=
  ⟨fun _ _ => rfl, fun _ _ => ⟨rfl, rfl⟩, fun _ => rfl, fun _ _ => rfl, fun _ => rfl, rfl, rfl, rfl, rfl, rfl, rfl, rfl,
    rfl⟩

/-- `NOP` has no effect before its completion (46_system.md R260). -/
theorem exec_nop (s : State) : exec .nop s = .next (complete s) := rfl

theorem encode_nop : encode .nop = 0x00000000#32 := by decide

theorem decode_eq_nop_iff {c : Word} : decode c = .ok .nop ↔ c = 0x00000000#32 := by
  rw [decode_eq_ok_iff_encode, encode_nop, eq_comm (a := c)]
  exact and_iff_right rfl

/-- A word that decodes is performed as the command it encodes. -/
theorem performCommand_of_decode_ok {c : Word} {i : Instr} (h : decode c = .ok i) (s : State) :
    performCommand c s = exec i s := by
  simp only [performCommand, h]

/-- The next step performs a placed word, on the state as acceptance leaves it (log 11). -/
theorem step_withFetchWord (s : State) (nbits w : Nat) :
    step (s.withFetchWord nbits w) = performCommand (tableWord nbits w) (accept (tableWord nbits w) s) :=
  calc step (s.withFetchWord nbits w)
    _ = engineStep (accept (tableWord nbits w) s) := step_event (e := .engine) rfl
    _ = performCommand (tableWord nbits w) (accept (tableWord nbits w) s) := engineStep_busy rfl

/-- Settles O32: `NOP` is its completion alone, its word is its encoding, and the other word has `FD` not zero. -/
theorem nopCompletes : Obligations.NopCompletes := by
  refine ⟨fun s => ⟨complete s, exec_nop s, ⟨rfl, rfl⟩, frame_complete s, rfl, rfl⟩, fun c => decode_eq_nop_iff,
    fun s => ?_, complete (accept (tableWord 32 0x00000000) .reset), ?_, by decide⟩
  · have rejected : decode 0x00000100#32 = .error (.sbzNotZero .fd) := by decide
    exact performCommand_of_decode_ne_ok (fun i accepted => nomatch rejected.symm.trans accepted) s
  · have word : decode (tableWord 32 0x00000000) = .ok .nop := decode_eq_nop_iff.2 rfl
    rw [step_withFetchWord, performCommand_of_decode_ok word, exec_nop]

end Sys2Proof.Machine
end

section
/-! PROOFS. The engine and its exceptions (60_exceptions.md): how a command ends, what one step can do, and what that
keeps. -/

namespace Sys2Proof.Machine

/-! ### How a command ends -/

/-- The two ends of a command whose next state is known. -/
theorem exec_next_cases {i : Instr} {s t : State} (h : exec i s = .next t) :
    (∃ e n, t = failedState e n s ∧ MayFail i e n) ∨ ∃ u, t = complete u ∧ MayWrite s i u := by
  rcases exec_ends i s with ⟨e, n, hr, hf⟩ | ⟨u, hr, hw⟩
  · exact .inl ⟨e, n, Host.Outcome.next.inj (h.symm.trans hr), hf⟩
  · exact .inr ⟨u, Host.Outcome.next.inj (h.symm.trans hr), hw⟩

/-- A command that ends with an error code has failed. -/
theorem exec_failed {i : Instr} {s t : State} (h : exec i s = .next t) (he : t.status.errcode ≠ .none) :
    ∃ e n, t = failedState e n s ∧ MayFail i e n := by
  rcases exec_next_cases h with failed | ⟨u, rfl, -⟩
  · exact failed
  · exact absurd rfl he

/-- The draws before an error: no more than `SIGN` makes attempts, and at most one by `ENCRYPT`. -/
theorem MayFail.draws_le {i : Instr} {e : ErrCode} {n : Nat} (h : MayFail i e n) :
    n ≤ Config.signMaxAttempts ∧ ∀ fd fa, i = .encrypt fd fa → n ≤ 1 := by
  have attempts := Config.signMaxAttempts_pos
  rcases h.draws with rfl | ⟨fd, fa, fb, rfl⟩ | ⟨fd, fa, rfl⟩
  · exact ⟨Nat.zero_le _, fun _ _ _ => Nat.zero_le _⟩
  · refine ⟨?_, nofun⟩
    rcases h with ⟨-, -, rfl⟩ | ⟨-, rfl⟩ | ⟨-, hn⟩
    · exact Nat.zero_le _
    · exact Nat.zero_le _
    · exact hn
  · have one : n ≤ 1 := by
      rcases h with ⟨-, rfl⟩ | ⟨-, rfl⟩
      · exact Nat.zero_le _
      · exact le_rfl
    exact ⟨one.trans attempts, fun _ _ _ => one⟩

/-- Settles O10: a command with an error code has failed, and `MayFail` bounds its draws. -/
theorem errorWritesNothing : Obligations.ErrorWritesNothing := by
  intro i s t h he
  obtain ⟨e, n, rfl, hf⟩ := exec_failed h he
  obtain ⟨attempts, one⟩ := hf.draws_le
  refine ⟨n, rfl, attempts, fun notEncrypt notSign => ?_, one⟩
  rcases hf.draws with hn | ⟨fd, fa, fb, hi⟩ | ⟨fd, fa, hi⟩
  · exact hn
  · exact absurd hi (notSign fd fa fb)
  · exact absurd hi (notEncrypt fd fa)

/-- The command `i` may report the code `e` (60_exceptions.md R272). -/
def MayReport (i : Instr) (e : ErrCode) : Prop :=
  (e = .uninvertible → opcodeOfInstr i ∈
    [Opcode.modinv, .padd, .pdbl, .pmul, .pubkey, .sign, .verify, .encrypt, .decrypt]) ∧
    (e = .degenerateSignature → opcodeOfInstr i ∈ [Opcode.sign, .verify]) ∧
    (e = .infinityPoint → opcodeOfInstr i ∈ [Opcode.encrypt, .decrypt]) ∧
    (e = .malformedInput → opcodeOfInstr i ∉ [Opcode.nop, .shainit]) ∧
    (e = .illegalCommand → i.wellFormed = false)

theorem MayFail.mayReport {i : Instr} {e : ErrCode} {n : Nat} (h : MayFail i e n) : MayReport i e := by
  cases i with
  | nop | shainit => exact h.elim
  | modred | modadd | modsub | modmul | montmul | montr2 | keygen | shablk | shahash =>
    obtain ⟨rfl, -⟩ := h
    simp [MayReport, opcodeOfInstr]
  | modinv | padd | pdbl | pmul | pubkey =>
    obtain ⟨rfl | rfl, -⟩ := h <;> simp [MayReport, opcodeOfInstr]
  | verify | decrypt =>
    obtain ⟨rfl | rfl | rfl, -⟩ := h <;> simp [MayReport, opcodeOfInstr]
  | encrypt fd fa =>
    rcases h with ⟨rfl, -⟩ | ⟨rfl | rfl, -⟩ <;> simp [MayReport, opcodeOfInstr]
  | sign fd fa fb =>
    rcases h with ⟨rfl, rfl, -⟩ | ⟨rfl, -⟩ | ⟨rfl | rfl, -⟩ <;>
      simp [MayReport, opcodeOfInstr, Instr.wellFormed]

/-- Settles O12: a success reports no code, and a failure one of those of `MayFail`. -/
theorem whoReportsWhat : Obligations.WhoReportsWhat := by
  intro i s t h
  rcases exec_next_cases h with ⟨e, n, rfl, hf⟩ | ⟨u, rfl, -⟩
  · exact hf.mayReport
  · exact ⟨nofun, nofun, nofun, nofun, nofun⟩

/-! ### The completion of a command -/

/-- From `s` a command has come to its completion in `t`, with or without an error (60_exceptions.md R274 to R276). -/
structure Completed (s t : State) : Prop where
  engine : t.engine = .idle
  done : t.status.done = true
  overrun : t.status.overrun = s.status.overrun
  errcode_of_valid : t.status.valid = true → t.status.errcode = .none
  ctrl : t.ctrl = s.ctrl
  msg : t.msg = s.msg
  out_wf : s.out.wf = true → t.out.wf = true

theorem completed_failedState (e : ErrCode) (n : Nat) (s : State) : Completed s (failedState e n s) :=
  ⟨rfl, rfl, rfl, nofun, rfl, rfl, id⟩

theorem MayWrite.overrun {i : Instr} {s u : State} (h : MayWrite s i u) : u.status.overrun = s.status.overrun := by
  cases i with
  | nop => rw [h]
  | modred | modadd | modsub | modmul | montmul | montr2 | modinv | keygen | shainit | shablk | verify =>
    obtain ⟨v, rfl⟩ := h
    rfl
  | padd | pdbl | pmul | pubkey =>
    obtain ⟨q, rfl⟩ := h
    rw [writePoint_status]
  | shahash fd =>
    obtain ⟨hash, v, rfl⟩ := h
    rfl
  | sign fd fa fb =>
    obtain ⟨n, r, q, -, rfl⟩ := h
    rfl
  | encrypt fd fa =>
    obtain ⟨-, bs, q, -, rfl⟩ := h
    rw [writePoint_status]
    rfl
  | decrypt fa fb =>
    obtain ⟨-, bs, -, rfl⟩ := h
    rfl

/-- The bytes of a message written to a canonical `OUT` leave it canonical. -/
theorem wf_writeBytes_message {s : State} (hl : s.msgLen.toNat ≤ Config.msgBytes) {bs : List Byte}
    (hbs : bs.length = s.msgLen.toNat) (hwf : s.out.wf = true) : (Memory.writeBytes s.out 0 bs).wf = true :=
  Memory.wf_writeBytes hwf (by omega)

/-- Only `ENCRYPT` and `DECRYPT` write `OUT`, and both write the bytes of a message. -/
theorem MayWrite.out_wf {i : Instr} {s u : State} (h : MayWrite s i u) (hwf : s.out.wf = true) : u.out.wf = true := by
  obtain ⟨-, -, kind, -⟩ := h.writesItsKinds
  by_cases same : u.out = s.out
  · rwa [same]
  · rcases kind same with ⟨fd, fa, rfl⟩ | ⟨fa, fb, rfl⟩
    · obtain ⟨hl, bs, q, hbs, rfl⟩ := h
      rw [writePoint_out]
      exact wf_writeBytes_message hl hbs hwf
    · obtain ⟨hl, bs, hbs, rfl⟩ := h
      exact wf_writeBytes_message hl hbs hwf

theorem MayWrite.completed {i : Instr} {s u : State} (h : MayWrite s i u) : Completed s (complete u) := by
  obtain ⟨⟨-, hmsg, -, hctrl, -⟩, -⟩ := h.writesItsKinds
  exact ⟨rfl, rfl, h.overrun, fun _ => rfl, hctrl, hmsg, h.out_wf⟩

theorem exec_completed (i : Instr) (s : State) : ∃ t, exec i s = .next t ∧ Completed s t := by
  rcases exec_ends i s with ⟨e, n, hr, -⟩ | ⟨u, hr, hw⟩
  · exact ⟨_, hr, completed_failedState e n s⟩
  · exact ⟨_, hr, hw.completed⟩

/-- Every command word completes, one that is no command with `ILLEGAL_COMMAND` (60_exceptions.md R273, R274). -/
theorem performCommand_completed (c : Word) (s : State) : ∃ t, performCommand c s = .next t ∧ Completed s t := by
  by_cases accepted : ∃ i, decode c = .ok i
  · obtain ⟨i, hi⟩ := accepted
    rw [performCommand_of_decode_ok hi]
    exact exec_completed i s
  · exact ⟨_, performCommand_of_decode_ne_ok (not_exists.1 accepted) s, completed_failedState _ 0 s⟩

theorem completed_of_performCommand {c : Word} {s t : State} (h : performCommand c s = .next t) : Completed s t := by
  obtain ⟨t', ht', completed⟩ := performCommand_completed c s
  obtain rfl := Host.Outcome.next.inj (h.symm.trans ht')
  exact completed

/-- Settles O9: every command word completes, and completion leaves the engine idle. -/
theorem everyCommandCompletes : Obligations.EveryCommandCompletes := by
  intro c s
  obtain ⟨t, ht, completed⟩ := performCommand_completed c s
  refine ⟨t, ht, completed.engine, completed.done, ?_, completed.overrun⟩
  rw [State.isBusy, completed.engine]

/-! ### The engine's turn -/

/-- With a command accepted, the engine's turn, or a step without an event, performs it. -/
theorem step_busy {s : State} {c : Word} (hc : s.engine = .busy c) :
    (∀ rest, s.bus = .engine :: rest → step s = performCommand c { s with bus := rest }) ∧
      (s.bus = [] → step s = performCommand c s) :=
  ⟨fun _ hb => (step_event hb).trans (engineStep_busy hc), fun hb => (step_no_event hb).trans (engineStep_busy hc)⟩

theorem decode_of_decodeTableWord {w : Nat} {i : Instr} (hw : w < 2 ^ 32) (h : decodeTableWord 32 w = some i) :
    decode (BitVec.ofNat 32 w) = .ok i := by
  rw [decodeTableWord, Nat.mod_eq_of_lt hw, if_pos hw] at h
  cases hd : decode (BitVec.ofNat 32 w) with
  | ok j => simpa [hd, Except.toOption] using h
  | error r => simp [hd, Except.toOption] at h

/-- Settles O6: `step_busy` performs the word, which its decoding settles; a placed word is an accepted one. -/
theorem stepRunsDecodedCommand : Obligations.StepRunsDecodedCommand := by
  refine ⟨fun s c i hc hd => ?_, fun s c r hc hd => ?_, fun s w i hw hd => ?_⟩
  · have run := performCommand_of_decode_ok hd
    obtain ⟨turn, last⟩ := step_busy hc
    exact ⟨fun rest hb => (turn rest hb).trans (run _), fun hb => (last hb).trans (run s)⟩
  · have rejected : ∀ i, decode c ≠ .ok i := fun i hi => nomatch hd.symm.trans hi
    have run := performCommand_of_decode_ne_ok rejected
    obtain ⟨turn, last⟩ := step_busy hc
    exact ⟨fun rest hb => (turn rest hb).trans (run _), fun hb => (last hb).trans (run s)⟩
  · have word : tableWord 32 w = BitVec.ofNat 32 w := by rw [tableWord, Nat.mod_eq_of_lt hw]
    rw [step_withFetchWord, word]
    exact performCommand_of_decode_ok (decode_of_decodeTableWord hw hd) (accept _ s)

/-! ### Writes of `CTRL`, `STATUS` and `CMD` -/

section
variable {s : State} {v : Word} {rest : List BusEvent}

theorem step_write_ctrl (hb : s.bus = .write 0x0008 4 v :: rest) : step s = .next (writeCtrl v { s with bus := rest }) :=
  (step_write (by decide) (by decide) hb).trans (congrArg _ (writeHost_writableWhileBusy (l := .ctrl) rfl v _))

theorem step_write_status (hb : s.bus = .write 0x000C 4 v :: rest) :
    step s = .next { s with bus := rest, status := s.status.clearWritten v } :=
  (step_write (by decide) (by decide) hb).trans (congrArg _ (writeHost_writableWhileBusy (l := .status) rfl v _))

theorem step_write_cmd (hb : s.bus = .write 0x0010 4 v :: rest) :
    step s = .next (offerCommand v { s with bus := rest }) :=
  (step_write (by decide) (by decide) hb).trans (congrArg _ (writeHost_writableWhileBusy (l := .cmd) rfl v _))

end

theorem offerCommand_idle {s : State} (h : s.engine = .idle) (c : Word) : offerCommand c s = accept c s := by
  simp only [offerCommand, h]

theorem offerCommand_busy {s : State} {c : Word} (h : s.engine = .busy c) (c' : Word) :
    offerCommand c' s = overrun s := by
  simp only [offerCommand, h]

theorem writeCtrl_reset {v : Word} (h : v[1] = true) (s : State) : writeCtrl v s = resetBlock s := if_pos h

theorem writeCtrl_ie {v : Word} (h : v[1] = false) (s : State) : writeCtrl v s = { s with ctrl := ⟨v[0]⟩ } :=
  if_neg (ne_true_of_eq_false h)

/-- Settles O7: a word offered to an idle engine is accepted. -/
theorem acceptance : Obligations.Acceptance := by
  intro s c rest hidle hb
  have accepted := offerCommand_idle (s := { s with bus := rest }) hidle c
  exact (step_write_cmd hb).trans (congrArg Host.Outcome.next accepted)

/-- Settles O26: the level after each event is read off the two fields it is made of. -/
theorem interruptLevel : Obligations.InterruptLevel := by
  refine ⟨fun s => Bool.and_eq_true_iff, fun c s t h => ?_, fun s t v rest hb h hv => ?_,
    fun s t v rest hb h hv => ?_, fun _ _ => rfl, fun _ => rfl⟩
  · have completed := completed_of_performCommand h
    rw [State.irq, completed.done, completed.ctrl, Bool.true_and]
  · rw [step_write_ctrl hb, writeCtrl_ie hv] at h
    cases h
    rfl
  · rw [step_write_status hb] at h
    cases h
    simp [State.irq, clearWritten_eq, hv]

/-! ### What a step can do -/

/-- From `s` to `t` the engine, `STATUS`, `CMD` and `OUT` have not changed, and `MSG` is still canonical: what reads,
and writes of other locations than `CTRL`, `STATUS` and `CMD`, keep. -/
structure KeepsControl (s t : State) : Prop where
  engine : t.engine = s.engine
  status : t.status = s.status
  cmd : t.cmd = s.cmd
  out : t.out = s.out
  msg_wf : s.msg.wf = true → t.msg.wf = true

theorem KeepsControl.refl (s : State) : KeepsControl s s := ⟨rfl, rfl, rfl, rfl, id⟩

theorem readHost_keepsControl (l : Loc) (s : State) : KeepsControl s (readHost l s) := by
  unfold readHost
  split <;> exact ⟨rfl, rfl, rfl, rfl, id⟩

theorem writeLoc_keepsControl {l : Loc} (h : writableWhileBusy l = false) (v : Word) (s : State) :
    KeepsControl s (writeLoc v s l) := by
  cases l with
  | ctrl | status | cmd => cases h
  | msgWord m =>
    exact ⟨rfl, rfl, rfl, rfl, fun hwf => Memory.wf_writeWord hwf v (by simp only [Config.msgBytes]; omega)⟩
  | _ => exact ⟨rfl, rfl, rfl, rfl, id⟩

theorem writeHost_keepsControl {l : Loc} (h : writableWhileBusy l = false) (v : Word) (s : State) :
    KeepsControl s (writeHost l v s) := by
  unfold writeHost
  split
  · exact .refl s
  · exact writeLoc_keepsControl h v s

/-- All a step from `s` to `t` can do, with the events `rest` still to come after it. -/
inductive StepEffect (s : State) (rest : List BusEvent) (t : State) : Prop
  /-- A read, a write of another location than the next three, or the turn of an idle engine. -/
  | keepsControl (h : KeepsControl { s with bus := rest } t)
  /-- The engine's turn with a command accepted. -/
  | completed (h : Completed { s with bus := rest } t)
  /-- A write of `CTRL`. -/
  | ctrl (v : Word) (hb : s.bus = .write 0x0008 4 v :: rest) (ht : t = writeCtrl v { s with bus := rest })
  /-- A write of `STATUS`. -/
  | status (v : Word) (hb : s.bus = .write 0x000C 4 v :: rest)
    (ht : t = { s with bus := rest, status := s.status.clearWritten v })
  /-- A write of `CMD`. -/
  | cmd (v : Word) (hb : s.bus = .write 0x0010 4 v :: rest) (ht : t = offerCommand v { s with bus := rest })
  /-- The platform's reset. -/
  | rst (hb : s.bus = .rst :: rest) (ht : t = resetBlock { s with bus := rest })

/-- An access that answers a next state is a defined one. -/
theorem checkedAccess_eq_next {off width : Nat} {r : Result} {t : State} (h : checkedAccess off width r = .next t) :
    off < 0x4000 ∧ width = 4 ∧ off % 4 = 0 ∧ r = .next t := by
  unfold checkedAccess at h
  split at h
  · cases h
  · split at h
    · cases h
    · next inside defined =>
      rw [Config.windowBytes] at inside
      exact ⟨by omega, by omega, by omega, h⟩

/-- The turn of an idle engine changes nothing, and that of a busy one completes its command. -/
theorem engineStep_cases {s t : State} (h : engineStep s = .next t) : KeepsControl s t ∨ Completed s t := by
  cases he : s.engine with
  | idle =>
    obtain rfl := Host.Outcome.next.inj ((engineStep_idle he).symm.trans h)
    exact .inl (.refl s)
  | busy c => exact .inr (completed_of_performCommand ((engineStep_busy he).symm.trans h))

theorem stepEffect_of_engineStep {s t : State} {rest : List BusEvent} (h : engineStep { s with bus := rest } = .next t) :
    StepEffect s rest t :=
  (engineStep_cases h).elim .keepsControl .completed

/-- A defined write: one of `CTRL`, `STATUS` or `CMD` has the offset of that location. -/
theorem stepEffect_of_write {s : State} {off : Nat} {v : Word} {rest : List BusEvent} (ho : off < 0x4000)
    (ha : off % 4 = 0) (hb : s.bus = .write off 4 v :: rest) :
    StepEffect s rest (writeHost (locate off) v { s with bus := rest }) := by
  obtain ⟨-, -, offset, -⟩ := registerMap
  have hoff := offset off ho ha
  cases hl : locate off with
  | ctrl =>
    obtain rfl : 0x0008 = off := by simpa [hl, offsetOf] using hoff
    exact .ctrl v hb (writeHost_writableWhileBusy rfl v _)
  | status =>
    obtain rfl : 0x000C = off := by simpa [hl, offsetOf] using hoff
    exact .status v hb (writeHost_writableWhileBusy rfl v _)
  | cmd =>
    obtain rfl : 0x0010 = off := by simpa [hl, offsetOf] using hoff
    exact .cmd v hb (writeHost_writableWhileBusy rfl v _)
  | _ => exact .keepsControl (writeHost_keepsControl rfl v _)

theorem step_effect {s t : State} (h : step s = .next t) : ∃ rest, StepEffect s rest t := by
  cases hb : s.bus with
  | nil =>
    rw [step_no_event hb] at h
    exact ⟨s.bus, stepEffect_of_engineStep h⟩
  | cons e rest =>
    rw [step_event hb] at h
    refine ⟨rest, ?_⟩
    cases e with
    | read off width =>
      obtain ⟨-, -, -, hr⟩ := checkedAccess_eq_next h
      cases hr
      exact .keepsControl (readHost_keepsControl _ _)
    | write off width v =>
      obtain ⟨ho, rfl, ha, hr⟩ := checkedAccess_eq_next h
      cases hr
      exact stepEffect_of_write ho ha hb
    | engine => exact stepEffect_of_engineStep h
    | rst => exact .rst hb (Host.Outcome.next.inj h).symm

/-! ### `OVERRUN` -/

theorem offerCommand_overrun {s : State} (h : s.status.overrun = true) (c : Word) :
    (offerCommand c s).status.overrun = true := by
  unfold offerCommand
  split
  · exact h
  · rfl

/-- Settles O8: a word offered to a busy engine is an overrun; of the effects of a step only a write of `STATUS` and a
reset clear it. -/
theorem overrunStays : Obligations.Overrun := by
  refine ⟨fun s c c' rest hc hb => ?_, fun s t h hs => ?_⟩
  · have refused := offerCommand_busy (s := { s with bus := rest }) hc c'
    exact (step_write_cmd hb).trans (congrArg Host.Outcome.next refused)
  · obtain ⟨rest, effect⟩ := step_effect h
    cases effect with
    | keepsControl keeps => exact .inl ((congrArg Status.overrun keeps.status).trans hs)
    | completed completed => exact .inl (completed.overrun.trans hs)
    | ctrl v hb ht =>
      cases hv : v[1] with
      | true => exact .inr (.inr (.inl ⟨v, rest, hb, hv⟩))
      | false =>
        rw [writeCtrl_ie hv] at ht
        exact .inl (ht ▸ hs)
    | status v hb ht =>
      cases hv : v[3] with
      | true => exact .inr (.inl ⟨v, rest, hb, hv⟩)
      | false => exact .inl (by simp [ht, clearWritten_eq, hv, hs])
    | cmd v hb ht => exact .inl (ht ▸ offerCommand_overrun (s := { s with bus := rest }) hs v)
    | rst hb ht => exact .inr (.inr (.inr ⟨rest, hb⟩))

/-! ### The invariant -/

theorem stateInv_of_keepsControl {s t : State} (hs : StateInv s) (h : KeepsControl s t) : StateInv t := by
  obtain ⟨hmsg, hout, hbusy, hvalid⟩ := hs
  refine ⟨h.msg_wf hmsg, ?_, ?_, ?_⟩
  · rwa [h.out]
  · rwa [h.engine, h.cmd, h.status]
  · rwa [h.status]

/-- After a completion the engine is idle, so that nothing is asked of the command. -/
theorem stateInv_of_completed {s t : State} (hs : StateInv s) (h : Completed s t) : StateInv t := by
  obtain ⟨hmsg, hout, -, -⟩ := hs
  refine ⟨?_, h.out_wf hout, fun c hc => ?_, h.errcode_of_valid⟩
  · rwa [h.msg]
  · rw [h.engine] at hc
    cases hc

theorem stateInv_resetBlock (s : State) : StateInv (resetBlock s) := ⟨rfl, rfl, nofun, nofun⟩

theorem stateInv_writeCtrl {s : State} (hs : StateInv s) (v : Word) : StateInv (writeCtrl v s) := by
  unfold writeCtrl
  split
  · exact stateInv_resetBlock s
  · exact hs

/-- A write of `STATUS` sets no bit, and leaves `VALID` and `ERRCODE`. -/
theorem stateInv_clearWritten {s : State} (hs : StateInv s) (v : Word) :
    StateInv { s with status := s.status.clearWritten v } := by
  obtain ⟨hmsg, hout, hbusy, hvalid⟩ := hs
  rw [clearWritten_eq]
  refine ⟨hmsg, hout, fun c hc => ?_, hvalid⟩
  obtain ⟨hcmd, hdone, hrest⟩ := hbusy c hc
  exact ⟨hcmd, by rw [hdone, Bool.false_and], hrest⟩

/-- Acceptance stores the word and clears the flags; an overrun sets none that the invariant speaks of. -/
theorem stateInv_offerCommand {s : State} (hs : StateInv s) (c : Word) : StateInv (offerCommand c s) := by
  obtain ⟨hmsg, hout, hbusy, hvalid⟩ := hs
  unfold offerCommand
  split
  · refine ⟨hmsg, hout, ?_, nofun⟩
    rintro _ ⟨⟩
    exact ⟨rfl, rfl, rfl, rfl⟩
  · exact ⟨hmsg, hout, hbusy, hvalid⟩

/-- Settles O19: the invariant does not speak of the events, and each effect of a step keeps it. -/
theorem stepKeepsInvariant : Obligations.StepKeepsInvariant := by
  intro s t hs h
  obtain ⟨rest, effect⟩ := step_effect h
  have taken : StateInv { s with bus := rest } := hs
  cases effect with
  | keepsControl keeps => exact stateInv_of_keepsControl taken keeps
  | completed completed => exact stateInv_of_completed taken completed
  | ctrl v hb ht => exact ht ▸ stateInv_writeCtrl taken v
  | status v hb ht => exact ht ▸ stateInv_clearWritten taken v
  | cmd v hb ht => exact ht ▸ stateInv_offerCommand taken v
  | rst hb ht => exact ht ▸ stateInv_resetBlock _

end Sys2Proof.Machine
end

section
/-! PROOFS. Reset and hazards (70_reset_and_hazards.md): the state reset leaves, what host reads return and host writes do
while a command is in progress, and that an accepted command is performed in time. -/

namespace Sys2Proof.Machine

/-! ### Reset -/

/-- The platform's reset is a reset of the block, idle or busy (70_reset_and_hazards.md R300). -/
theorem step_rst {s : State} {rest : List BusEvent} (hb : s.bus = .rst :: rest) :
    step s = .next (resetBlock { s with bus := rest }) :=
  step_event hb

/-- Settles O17: both sources of a reset answer `resetBlock`. -/
theorem ctrlWriteAndReset : Obligations.CtrlWriteAndReset := by
  refine ⟨fun s v rest hb => ⟨fun hv => ?_, fun hv => ?_⟩, fun s rest hb => step_rst hb⟩
  · rw [step_write_ctrl hb, writeCtrl_reset hv]
    rfl
  · rw [step_write_ctrl hb, writeCtrl_ie hv]

/-- Settles O18: the reset state is what a reset of the block leaves of it. -/
theorem resetHasInvariant : Obligations.ResetHasInvariant :=
  stateInv_resetBlock .reset

theorem getWord_zero (j : Fin 16) : getWord 0#Config.W j = 0#32 := by
  simp [getWord]

theorem Memory.readWord_nil (i : Nat) : Memory.readWord [] i = 0#32 := by
  have zeros : Memory.unlisted ++ Memory.unlisted ++ Memory.unlisted ++ Memory.unlisted = 0#32 := by decide
  exact zeros

/-- In the reset state every location but the two constants reads 0 (70_reset_and_hazards.md R301). -/
theorem readLoc_reset {l : Loc} (hid : l ≠ .id) (hparam : l ≠ .param) : readLoc State.reset l = 0#32 := by
  cases l with
  | id => exact absurd rfl hid
  | param => exact absurd rfl hparam
  | bigWord i j | pointX i j | pointY i j => simp [readLoc, State.reset, getWord_zero]
  | curveWord r j => cases r <;> exact getWord_zero j
  | shaH i => simp [readLoc, State.reset]
  | msgWord m | outWord m => exact Memory.readWord_nil (4 * m.val)
  | _ => decide

/-- What a location reads does not depend on the model's own fields, which a reset keeps. -/
theorem readLoc_resetBlock (s : State) (l : Loc) : readLoc (resetBlock s) l = readLoc State.reset l := by
  cases l <;> rfl

theorem readLoc_resetBlock_eq (s : State) (l : Loc) : readLoc (resetBlock s) l =
    if l = .id then 0x45430007#32 else if l = .param then readLoc s .param else 0#32 := by
  rw [readLoc_resetBlock]
  split
  · next hid => rw [hid]; rfl
  · next hid =>
    split
    · next hparam => rw [hparam]; rfl
    · next hparam => exact readLoc_reset hid hparam

theorem readBig_resetBlock (s : State) (r : BReg) : (resetBlock s).readBig r = 0 := by
  simp [State.readBig, resetBlock, State.reset]

theorem readPoint_resetBlock (s : State) (j : PReg) : (resetBlock s).readPoint j = .finite 0 0 := by
  simp [State.readPoint, resetBlock, State.reset]

theorem curve_resetBlock (s : State) : (resetBlock s).curveP = 0 ∧ (resetBlock s).curveA = 0 ∧
    (resetBlock s).curve.b = 0#Config.W ∧ (resetBlock s).curveN = 0 ∧ (resetBlock s).curveG = .finite 0 0 := by
  simp [State.curveP, State.curveA, State.curveN, State.curveG, resetBlock, State.reset]

/-- With a prime and an order below 2 every command that reads the curve answers `MALFORMED_INPUT`, and writes nothing
else. -/
theorem exec_of_curve_below_two {s : State} (hp : s.curveP < 2) (hn : s.curveN < 2) (d a b : PReg) {k k2 k3 : BReg}
    (hk : k ≠ k3) : ∀ i ∈ [Instr.padd d a b, .pdbl d a, .pmul d a k, .keygen k, .pubkey d k, .sign k k2 k3,
      .verify k k2 d, .encrypt d a, .decrypt k a], exec i s = .next (failedState .malformedInput 0 s) := by
  have point := pdblIsPaddAndPrimeBelowTwo.2 s d a b k hp
  have check := signatureCheck_malformed (s := s) (.inr (.inl hp))
  intro i hi
  simp only [List.mem_cons, List.not_mem_nil, or_false] at hi
  obtain rfl | rfl | rfl | rfl | rfl | rfl | rfl | rfl | rfl := hi
  · exact point _ (by simp)
  · exact point _ (by simp)
  · exact point _ (by simp)
  · exact exec_keygen_malformed hn k
  · exact point _ (by simp)
  · exact exec_sign_of_failed_check check hk k2
  · exact exec_verify_of_failed_check check k k2 d
  · exact exec_encrypt_malformed (.inr (.inl hp)) d a
  · exact exec_decrypt_malformed (.inr hp) k a

/-- Settles O16: the fields of the reset state, whose prime and order are below 2. -/
theorem resetValues : Obligations.ResetValues := by
  intro s t rest hb ht
  obtain rfl := Host.Outcome.next.inj ((step_rst hb).symm.trans ht)
  have curve := curve_resetBlock { s with bus := rest }
  have ⟨hp, _, _, hn, _⟩ := curve
  exact ⟨readLoc_resetBlock_eq _, readBig_resetBlock _, readPoint_resetBlock _, curve, fun _ => rfl, fun _ => rfl,
    rfl, rfl, rfl, rfl, fun d a b k k2 k3 hk =>
      exec_of_curve_below_two (hp.trans_lt Nat.two_pos) (hn.trans_lt Nat.two_pos) d a b hk⟩

/-! ### Host reads -/

/-- The two halves of a register of 64 bits (10_state.md R37). -/
theorem append_halves (x : BitVec 64) : x.extractLsb' 32 32 ++ x.extractLsb' 0 32 = x := by
  rw [BitVec.extractLsb'_append_extractLsb'_eq_extractLsb' (by decide)]
  simp

/-- Bit `j` of `PINF` as a word is the tag of `Pj` (10_state.md R41). -/
theorem getElem_readLoc_pinf (s : State) (j : PReg) : (readLoc s .pinf)[j.val] = s.pinf[j.val] := by
  change (0#24 ++ s.pinf)[j.val] = s.pinf[j.val]
  rw [BitVec.getElem_append, dif_pos j.isLt]

theorem readLoc_pinf_lt (s : State) : (readLoc s .pinf).toNat < 2 ^ 8 := by
  have byte : (readLoc s .pinf).toNat = 0 * 2 ^ 8 + s.pinf.toNat := append_toNat 0#24 s.pinf
  have := s.pinf.isLt
  omega

/-- What a location reads does not depend on the events to come. -/
theorem readLoc_bus (s : State) (rest : List BusEvent) (l : Loc) : readLoc { s with bus := rest } l = readLoc s l := by
  cases l <;> rfl

/-- A step whose event is a defined read is that read (20_memory.md R70). -/
theorem step_read {s : State} {off : Nat} {rest : List BusEvent} (ho : off < 0x4000) (ha : off % 4 = 0)
    (h : s.bus = .read off 4 :: rest) : step s = .next (readHost (locate off) { s with bus := rest }) :=
  (step_event h).trans (checkedAccess_defined ho rfl ha _)

theorem readHost_value {l : Loc} {s : State} (h : (s.isBusy && engineWritten l) = false) :
    readHost l s = returnWord (readLoc s l) s :=
  if_neg (ne_true_of_eq_false h)

theorem readHost_free {l : Loc} {s : State} (h : (s.isBusy && engineWritten l) = true) :
    readHost l s = { s with reads := Config.busyRead s.freeCtr :: s.reads, freeCtr := s.freeCtr + 1 } :=
  if_pos h

/-- A read changes the model's own fields alone (20_memory.md R70). -/
theorem readHost_frame (l : Loc) (s : State) :
    ∃ v n, readHost l s = { s with reads := v :: s.reads, freeCtr := n } := by
  cases h : s.isBusy && engineWritten l with
  | false => exact ⟨_, _, readHost_value h⟩
  | true => exact ⟨_, _, readHost_free h⟩

/-- Settles O23: a defined read is one of the location, free exactly while busy and of state that a command can write. -/
theorem hostReads : Obligations.HostReads := by
  refine ⟨fun s => ⟨rfl, rfl, rfl, fun _ => rfl, append_halves s.seed, append_halves s.rngCtr, getElem_readLoc_pinf s,
    readLoc_pinf_lt s⟩, ?_⟩
  intro s off l rest ho ha hl hb
  have read : step s = .next (readHost l { s with bus := rest }) := hl ▸ step_read ho ha hb
  have value (h : (s.isBusy && engineWritten l) = false) :
      step s = .next { s with bus := rest, reads := readLoc s l :: s.reads } := by
    rw [read, readHost_value (s := { s with bus := rest }) h, readLoc_bus]
    rfl
  have free (h : (s.isBusy && engineWritten l) = true) :
      step s = .next { s with bus := rest, reads := Config.busyRead s.freeCtr :: s.reads, freeCtr := s.freeCtr + 1 } :=
    read.trans (congrArg _ (readHost_free (s := { s with bus := rest }) h))
  refine ⟨?_, fun idle => value ?_, fun c busy => ?_⟩
  · obtain ⟨v, n, h⟩ := readHost_frame l { s with bus := rest }
    exact ⟨v, n, read.trans (congrArg _ h)⟩
  · rw [State.isBusy, idle, Bool.false_and]
  · have isBusy : s.isBusy = true := (isBusy_iff s).2 ⟨c, busy⟩
    rw [isBusy, Bool.true_and] at value free
    refine ⟨fun writes => free ?_, fun keeps => value ?_⟩
    · rcases writes with rfl | rfl | rfl | ⟨_, rfl⟩ | ⟨_, _, rfl⟩ | ⟨_, _, rfl⟩ | ⟨_, _, rfl⟩ | ⟨_, rfl⟩ <;> rfl
    · rcases keeps with rfl | rfl | rfl | rfl | rfl | rfl | rfl | rfl | ⟨_, rfl⟩ | ⟨_, _, rfl⟩ | rfl <;> rfl

/-! ### Host writes while busy -/

/-- The locations a write reaches while busy stand at the offsets of `CTRL`, `STATUS` and `CMD`
(70_reset_and_hazards.md R311). -/
theorem writableWhileBusy_locate {off : Nat} (ho : off < 0x4000) (ha : off % 4 = 0) (h1 : off ≠ 0x0008)
    (h2 : off ≠ 0x000C) (h3 : off ≠ 0x0010) : writableWhileBusy (locate off) = false := by
  obtain ⟨-, -, offset, -⟩ := registerMap
  have hoff := offset off ho ha
  cases hl : locate off with
  | ctrl => exact absurd (by simpa [hl, offsetOf, eq_comm] using hoff) h1
  | status => exact absurd (by simpa [hl, offsetOf, eq_comm] using hoff) h2
  | cmd => exact absurd (by simpa [hl, offsetOf, eq_comm] using hoff) h3
  | _ => rfl

theorem writeHost_busy_ignored {s : State} {c : Word} (hc : s.engine = .busy c) {l : Loc}
    (h : writableWhileBusy l = false) (v : Word) : writeHost l v s = s := by
  simp [writeHost, (isBusy_iff s).2 ⟨c, hc⟩, h]

section
variable {s : State} {c v : Word} {rest : List BusEvent} (hc : s.engine = .busy c)
include hc

theorem step_write_busy_ignored {off : Nat} (ho : off < 0x4000) (ha : off % 4 = 0) (hb : s.bus = .write off 4 v :: rest)
    (h1 : off ≠ 0x0008) (h2 : off ≠ 0x000C) (h3 : off ≠ 0x0010) : step s = .next { s with bus := rest } :=
  (step_write ho ha hb).trans
    (congrArg _ (writeHost_busy_ignored (s := { s with bus := rest }) hc
      (writableWhileBusy_locate ho ha h1 h2 h3) v))

theorem step_write_cmd_busy (hb : s.bus = .write 0x0010 4 v :: rest) :
    step s = .next (overrun { s with bus := rest }) :=
  (step_write_cmd hb).trans (congrArg _ (offerCommand_busy (s := { s with bus := rest }) hc v))

end

/-- Settles O24: a write of another location is ignored; a write of `STATUS` finds `DONE` already 0, so that it can clear
`OVERRUN` alone. -/
theorem writeWhileBusy : Obligations.WriteWhileBusy := by
  intro s c v off rest hc hdone ho ha hb
  refine ⟨step_write_busy_ignored hc ho ha hb, ?_, ?_, ?_⟩
  · rintro rfl
    exact step_write_ctrl hb
  · rintro rfl
    rw [step_write_status hb]
    simp [clearWritten_eq, hdone]
  · rintro rfl
    exact step_write_cmd_busy hc hb

/-! ### An accepted command is performed in time -/

/-- From `s` to `t` nothing has changed but `CTRL`, `STATUS` and the model's own fields: what defined events that are no
resets do while the command waits for the engine's turn (20_memory.md R72). -/
def CommandWaits (s t : State) : Prop :=
  ∃ ctrl status bus reads n,
    t = { s with ctrl := ctrl, status := status, bus := bus, reads := reads, freeCtr := n }

theorem CommandWaits.refl (s : State) : CommandWaits s s := ⟨_, _, _, _, _, rfl⟩

theorem CommandWaits.trans {s t u : State} (h : CommandWaits s t) (h' : CommandWaits t u) : CommandWaits s u := by
  obtain ⟨_, _, _, _, _, rfl⟩ := h
  obtain ⟨_, _, _, _, _, rfl⟩ := h'
  exact ⟨_, _, _, _, _, rfl⟩

theorem CommandWaits.engine {s t : State} (h : CommandWaits s t) : t.engine = s.engine := by
  obtain ⟨_, _, _, _, _, rfl⟩ := h
  rfl

theorem CommandWaits.dropEvent_eq {s t : State} (h : CommandWaits s t) :
    dropEvent t = { s with ctrl := t.ctrl, status := t.status, bus := t.bus.tail, reads := t.reads
                           freeCtr := t.freeCtr } := by
  obtain ⟨_, _, _, _, _, rfl⟩ := h
  rfl

/-- With no event left, or the engine's turn next, the step performs the command (60_exceptions.md R274). -/
theorem step_engine_turn {s : State} {c : Word} (hc : s.engine = .busy c)
    (hb : s.bus = [] ∨ ∃ rest, s.bus = .engine :: rest) : step s = performCommand c (dropEvent s) := by
  obtain ⟨turn, last⟩ := step_busy hc
  rcases hb with hb | ⟨rest, hb⟩
  · have same : dropEvent s = s := by cases s; cases hb; rfl
    rw [last hb, same]
  · rw [turn rest hb, dropEvent, hb, List.tail_cons]

section
variable {s : State} {c : Word} {rest : List BusEvent} (hc : s.engine = .busy c)
include hc

/-- A defined write while busy resets the block, or the command waits on. -/
theorem step_write_busy {off : Nat} {v : Word} (ho : off < 0x4000) (ha : off % 4 = 0)
    (hb : s.bus = .write off 4 v :: rest) :
    (ResetEvent (.write off 4 v) ∧ step s = .next (resetBlock { s with bus := rest })) ∨
      ∃ t, step s = .next t ∧ CommandWaits s t ∧ t.bus = rest := by
  by_cases h1 : off = 0x0008
  · subst h1
    rw [step_write_ctrl hb]
    cases hv : v[1] with
    | true => exact .inl ⟨⟨rfl, hv⟩, by rw [writeCtrl_reset hv]⟩
    | false => exact .inr ⟨_, by rw [writeCtrl_ie hv], ⟨_, _, _, _, _, rfl⟩, rfl⟩
  · refine .inr ?_
    by_cases h2 : off = 0x000C
    · subst h2
      exact ⟨_, step_write_status hb, ⟨_, _, _, _, _, rfl⟩, rfl⟩
    · by_cases h3 : off = 0x0010
      · subst h3
        exact ⟨_, step_write_cmd_busy hc hb, ⟨_, _, _, _, _, rfl⟩, rfl⟩
      · exact ⟨_, step_write_busy_ignored hc ho ha hb h1 h2 h3, ⟨_, _, _, _, _, rfl⟩, rfl⟩

/-- A defined event while busy is the engine's turn, resets the block, or the command waits on. -/
theorem step_busy_event {e : BusEvent} (hb : s.bus = e :: rest) (hd : DefinedEvent e) :
    e = .engine ∨ (ResetEvent e ∧ step s = .next (resetBlock { s with bus := rest })) ∨
      ∃ t, step s = .next t ∧ CommandWaits s t ∧ t.bus = rest := by
  cases e with
  | engine => exact .inl rfl
  | rst => exact .inr (.inl ⟨trivial, step_rst hb⟩)
  | read off width =>
    obtain ⟨ho, rfl, ha⟩ := hd
    obtain ⟨v, n, h⟩ := readHost_frame (locate off) { s with bus := rest }
    exact .inr (.inr ⟨_, (step_read ho ha hb).trans (congrArg _ h), ⟨_, _, _, _, _, rfl⟩, rfl⟩)
  | write off width v =>
    obtain ⟨ho, rfl, ha⟩ := hd
    exact .inr (step_write_busy hc ho ha hb)

end

section
variable {M : Host.Core} {s t u : M.State} {k : Nat}

theorem run_succ_eq_next_iff : M.run (k + 1) s = .next u ↔ ∃ t, M.step s = .next t ∧ M.run k t = .next u := by
  rw [Host.Core.run]
  cases M.step s <;> simp

/-- A run may be made one step longer at its end. -/
theorem run_succ_of_step (hr : M.run k s = .next t) (h : M.step t = .next u) : M.run (k + 1) s = .next u := by
  induction k generalizing s with
  | zero =>
    obtain rfl := Host.Outcome.next.inj hr
    exact run_succ_eq_next_iff.2 ⟨u, h, rfl⟩
  | succ k ih =>
    obtain ⟨s', hs, hr'⟩ := run_succ_eq_next_iff.1 hr
    exact run_succ_eq_next_iff.2 ⟨s', hs, ih hr'⟩

end

/-- A run over the events of a busy block: each defined event but a reset leaves the command waiting with one event fewer,
so that the engine's turn comes, or a reset abandons the command (70_reset_and_hazards.md R300, R317). -/
theorem run_to_engine_turn {c : Word} (bus : List BusEvent) (hd : ∀ e ∈ bus, DefinedEvent e) :
    ∀ s : State, s.bus = bus → s.engine = .busy c →
      ∃ k t, k ≤ bus.length ∧ Sys2Proof.core.run k s = .next t ∧
        ((CommandWaits s t ∧ step t = performCommand c (dropEvent t)) ∨
          ((∃ e ∈ bus, ResetEvent e) ∧ t.engine = .idle)) := by
  induction bus with
  | nil =>
    intro s hb hc
    exact ⟨0, s, le_rfl, rfl, .inl ⟨.refl s, step_engine_turn hc (.inl hb)⟩⟩
  | cons e rest ih =>
    intro s hb hc
    obtain ⟨he, hrest⟩ := List.forall_mem_cons.1 hd
    rcases step_busy_event hc hb he with rfl | ⟨reset, hstep⟩ | ⟨s', hstep, waits, hb'⟩
    · exact ⟨0, s, Nat.zero_le _, rfl, .inl ⟨.refl s, step_engine_turn hc (.inr ⟨rest, hb⟩)⟩⟩
    · exact ⟨1, _, Nat.succ_le_succ (Nat.zero_le _), run_succ_eq_next_iff.2 ⟨_, hstep, rfl⟩,
        .inr ⟨⟨e, List.mem_cons_self, reset⟩, rfl⟩⟩
    · obtain ⟨k, t, hk, hrun, ends⟩ := ih hrest s' hb' (waits.engine.trans hc)
      refine ⟨k + 1, t, Nat.succ_le_succ hk, run_succ_eq_next_iff.2 ⟨s', hstep, hrun⟩, ?_⟩
      rcases ends with ⟨waits', turn⟩ | ⟨⟨e', he', reset⟩, idle⟩
      · exact .inl ⟨waits.trans waits', turn⟩
      · exact .inr ⟨⟨e', List.mem_cons_of_mem e he', reset⟩, idle⟩

/-- Settles O15: the run comes to the engine's turn, whose command completes; only a reset ends it before, with the engine
idle. -/
theorem commandIsPerformedInTime : Obligations.CommandIsPerformedInTime := by
  intro s c hc hd
  obtain ⟨k, t, hk, hrun, ends⟩ := run_to_engine_turn s.bus hd s rfl hc
  refine ⟨fun noReset => ?_, ?_⟩
  · rcases ends with ⟨waits, turn⟩ | ⟨⟨e, he, reset⟩, -⟩
    · obtain ⟨u, hu, completed⟩ := performCommand_completed c (dropEvent t)
      exact ⟨k, t, u, hk, hrun, turn, turn.trans hu, completed.engine, completed.done, waits.dropEvent_eq⟩
    · exact absurd reset (noReset e he)
  · rcases ends with ⟨-, turn⟩ | ⟨-, idle⟩
    · obtain ⟨u, hu, completed⟩ := performCommand_completed c (dropEvent t)
      exact ⟨k + 1, u, Nat.succ_le_succ hk, run_succ_of_step hrun (turn.trans hu), completed.engine⟩
    · exact ⟨k, t, hk.trans (Nat.le_succ _), hrun, idle⟩

end Sys2Proof.Machine
end
